-- ==== Sys2Proof/Word.lean ====
section
/-! DEFINITION. The word types of the control store: plain names for the widths the spec gives. -/

namespace Sys2Proof

/-- One byte of the serialised image (R43) or of a request. -/
abbrev Byte := BitVec 8

/-- One control word, `WW` = 32 bits (R6, R60). -/
abbrev Word := BitVec 32

/-- One address or control bit: the clock phase, the format bit, the qualifier (R83 to R86). -/
abbrev Bit := BitVec 1

/-- A 3-bit sub-field of an address: group selector, sub-opcode, regA, regB (R85, R86). -/
abbrev Sub3 := BitVec 3

/-- The instruction bits of the full variant, `IB` = 11 (R6); the mini variant uses the low 8. -/
abbrev InstrBits := BitVec 11

/-- The identity of a decode rule (R23). The spec only compares identities, so a number names one. -/
abbrev RuleId := Nat

end Sys2Proof
end

