-- ==== Sys2Proof/Config.lean ====
section
/-! DEFINITION. What an implementation fixes: the variant's constants (R6), the parameters the source leaves open
(R7) as plain data, the notation of decode rules (R98) as data, and the free values of the model. -/

namespace Sys2Proof

/-! ### The variant (R2, R6) -/

/-- The two variants of the block (R2). -/
inductive Variant where
  | full
  | mini
  deriving DecidableEq, Repr

/-- `IB`: instruction bits in the address (R6). -/
def Variant.instrBits : Variant → Nat
  | .full => 11
  | .mini => 8

/-- `HALF` = 2^IB, the offset between the two phase slots of one instruction (R6). -/
def Variant.half (v : Variant) : Nat := 2 ^ v.instrBits

/-- `N` = 2^(1 + IB), the number of table entries (R6). -/
def Variant.size (v : Variant) : Nat := 2 ^ (1 + v.instrBits)

/-! ### The control-word schema (R60) -/

/-- The 21 named fields of a control word, in the order of the table of R60. -/
inductive Field where
  | OP | RL | RLOE | RR | RROE | RI | RIWE | IMM | RRBUSOE | ALUOE | FLAGSOE
  | FLAGSWE | IADDRSEL | CNZ | MOE | MWE | W16 | CRST | IWE | SELE | SELIFLAGSSEL
  deriving DecidableEq, Repr

/-- The 21 fields, each once, in the order of R60. -/
def Field.all : List Field :=
  [.OP, .RL, .RLOE, .RR, .RROE, .RI, .RIWE, .IMM, .RRBUSOE, .ALUOE, .FLAGSOE,
   .FLAGSWE, .IADDRSEL, .CNZ, .MOE, .MWE, .W16, .CRST, .IWE, .SELE, .SELIFLAGSSEL]

/-- One row of a schema: a field, its width and the offset of its lowest bit (R7, R60). -/
structure FieldSpec where
  field  : Field
  width  : Nat
  offset : Nat
  deriving DecidableEq, Repr

/-- The parameter `Schema`: a list of (name, width, offset) (R7). -/
abbrev Schema := List FieldSpec

/-- The default schema: widths by D2, offsets by D3 (R60). DESIGN CHOICE of the spec (log 5). -/
def defaultSchema : Schema :=
  [⟨.OP, 4, 0⟩, ⟨.RL, 3, 4⟩, ⟨.RLOE, 1, 7⟩, ⟨.RR, 3, 8⟩, ⟨.RROE, 1, 11⟩, ⟨.RI, 3, 12⟩,
   ⟨.RIWE, 1, 15⟩, ⟨.IMM, 3, 16⟩, ⟨.RRBUSOE, 1, 19⟩, ⟨.ALUOE, 1, 20⟩, ⟨.FLAGSOE, 1, 21⟩,
   ⟨.FLAGSWE, 1, 22⟩, ⟨.IADDRSEL, 1, 23⟩, ⟨.CNZ, 1, 24⟩, ⟨.MOE, 1, 25⟩, ⟨.MWE, 1, 26⟩,
   ⟨.W16, 1, 27⟩, ⟨.CRST, 1, 28⟩, ⟨.IWE, 1, 29⟩, ⟨.SELE, 1, 30⟩, ⟨.SELIFLAGSSEL, 1, 31⟩]

/-- A map from field names to unsigned values; a field it does not list is absent (R111). -/
abbrev FieldMap := List (Field × Nat)

/-! ### The address layouts (R83 to R87) -/

/-- The two address formats (R84): `A` is the source's format "0-6", `B` its format "7". -/
inductive Fmt where
  | A
  | B
  deriving DecidableEq, Repr

/-- The sub-fields of one instruction address: its format, its group key (the group selector of format A, the
sub-opcode of format B), regA, regB and the qualifier (R85, R86, R140). -/
structure Combo where
  fmt : Fmt
  key : Sub3
  a   : Sub3
  b   : Sub3
  q   : Bit
  deriving DecidableEq, Repr

/-- The lowest bit of each sub-field of one format, inside the bits below the format bit (R85, R86). -/
structure FmtLayout where
  keyLo : Nat
  aLo   : Nat
  bLo   : Nat
  qLo   : Nat
  deriving DecidableEq, Repr

/-- The parameter `LayoutFull` (R7): the value of the leading format bit that means format A (D6) and the places of
the sub-fields of either format (D4). The phase bit is the top bit, bit 11, and the format bit the next (R83, R84). -/
structure LayoutFull where
  fmtA  : Bit
  forA  : FmtLayout
  forB  : FmtLayout
  deriving DecidableEq, Repr

/-- The default full layout: `p0gggaaabbbq` and `p1aaasssbbbq` (R85, R86; D4, D6). DESIGN CHOICE of the spec (log 6). -/
def defaultLayout : LayoutFull :=
  { fmtA := 0, forA := ⟨7, 4, 1, 0⟩, forB := ⟨4, 7, 1, 0⟩ }

/-- Two bit ranges, each given by its lowest bit and its width, share no bit. -/
def rangesApart (lo₁ w₁ lo₂ w₂ : Nat) : Bool :=
  decide (lo₁ + w₁ ≤ lo₂) || decide (lo₂ + w₂ ≤ lo₁)

/-- The four sub-fields of a format fill its ten bits, each bit once: the layout is a concatenation (R85, R86). -/
def FmtLayout.valid (l : FmtLayout) : Bool :=
  decide (l.keyLo + 3 ≤ 10) && decide (l.aLo + 3 ≤ 10) && decide (l.bLo + 3 ≤ 10) && decide (l.qLo + 1 ≤ 10) &&
  rangesApart l.keyLo 3 l.aLo 3 && rangesApart l.keyLo 3 l.bLo 3 && rangesApart l.keyLo 3 l.qLo 1 &&
  rangesApart l.aLo 3 l.bLo 3 && rangesApart l.aLo 3 l.qLo 1 && rangesApart l.bLo 3 l.qLo 1

/-- The constraint of R7 on `LayoutFull`. -/
def LayoutFull.valid (l : LayoutFull) : Bool := l.forA.valid && l.forB.valid

/-- One slot of the mini variant's address space: the sub-fields and the 8-bit instruction pattern they have. -/
abbrev MiniSlot := Combo × BitVec 8

/-- The parameter `LayoutMini` (R87): for each format a function from sub-field values to an 8-bit pattern, given
as its graph. -/
abbrev LayoutMini := List MiniSlot

/-- The constraint of R87 on `LayoutMini`: injective, and the 256 patterns are partitioned between the formats. -/
def miniValid (l : LayoutMini) : Bool :=
  decide ((l.map (·.1)).Nodup) && decide ((l.map (·.2)).Nodup) && decide (l.length = 256)

/-! ### Decode rules as data (R98, R140) -/

/-- The numbers a rule's predicate and its packed-pair extraction compute with (R98, R129). -/
inductive NumExpr where
  | const (n : Nat)
  | key
  | regA
  | regB
  | qual
  | add (x y : NumExpr)
  | mul (x y : NumExpr)
  deriving DecidableEq, Repr

/-- A predicate over the enumerated sub-fields (R98). -/
inductive Pred where
  | always
  | eq (x y : NumExpr)
  | le (x y : NumExpr)
  | compl (p : Pred)
  | conj (p r : Pred)
  | disj (p r : Pred)
  deriving DecidableEq, Repr

/-- The value a template gives a field: a number, a sub-field of the combination, a register of the unpacked pair
(R163), or a named code (R97). -/
inductive FieldExpr where
  | const (n : Nat)
  | regA
  | regB
  | qual
  | base
  | opd
  | opAdd
  | immM2
  | iaddrselPc
  deriving DecidableEq, Repr

/-- A control-word template `cw` with its listed fields; an unlisted field is 0 (R97). One that lists a field twice,
which R97 calls an error, gives it the first value listed (log 35). -/
abbrev Template := List (Field × FieldExpr)

/-- What a rule emits: one word (R158) or the two words of a two-phase instruction (R159). -/
inductive Emit where
  | one (w : Template)
  | two (w0 w1 : Template)
  deriving DecidableEq, Repr

/-- Whether a rule is an alternate (escape) form, the generic register-operand form, or neither (R161). -/
inductive RuleForm where
  | generic
  | alternate
  | plain
  deriving DecidableEq, Repr

/-- A decode rule (R98, R140): its identity, the format and group it belongs to, its predicate, the packed pair
number it unpacks if it is a pair-packed form (R129, R163), and what it emits. -/
structure Rule where
  id   : RuleId
  fmt  : Fmt
  key  : Sub3
  form : RuleForm
  pred : Pred
  pair : Option NumExpr
  emit : Emit
  deriving DecidableEq, Repr

/-- The parameter `Content` (R7): the decode rules. The rules of one (format, group) stand in priority order,
highest first (R141). -/
abbrev Content := List Rule

/-! ### The parameters (R7) -/

/-- The parameters the source leaves open (R7), as one record. A model of the hardware takes them as arguments: here
every state carries one, no step changes it, and a statement about every state is a statement about every
parameter value (log 3). -/
structure Params where
  schema     : Schema
  layoutFull : LayoutFull
  layoutMini : LayoutMini
  opAdd      : BitVec 4
  immM2      : BitVec 4
  iaddrselPc : Bit
  w16Word    : Bit
  trapWord   : Word
  pairStride : Nat
  contentFull : Content
  contentMini : Content
  deriving DecidableEq, Repr

/-- The decode rules of a variant: the groups of the two variants differ (R2, R169). -/
def Params.rules (cfg : Params) : Variant → Content
  | .full => cfg.contentFull
  | .mini => cfg.contentMini

/-- `IMM_OFF7`, the value of IMM that selects the full 7-bit offset (R6, R68). R6 states it for the full variant; that the
mini variant has the same value is a DESIGN CHOICE (log 38). -/
def immOff7 : Nat := 2

/-- The trap word of R155 under the default schema: the eight stated fields with the thirteen defaults of D8. -/
def defaultTrapWord (opAdd : BitVec 4) (immM2 : BitVec 3) (iaddrselPc : Bit) : Word :=
  0x1010F0F0#32 ||| opAdd.setWidth 32 ||| (immM2.setWidth 32 <<< 16) ||| (iaddrselPc.setWidth 32 <<< 23)

/-! ### The free values: constants with no body -/

/-- `OP_ADD`: OPEN (D7). Free (log 4). -/
opaque Config.opAdd : BitVec 4

/-- The code of the constant -2 before the constraint of R68 is applied. Free (log 4). -/
opaque Config.immM2Raw : BitVec 3

/-- `IADDRSEL_PC`: OPEN (D7). Free (log 4). -/
opaque Config.iaddrselPc : Bit

/-- `W16_WORD`: OPEN for the real hardware (R77, D7). Free (log 4). -/
opaque Config.w16Word : Bit

/-- `LayoutMini` before the constraint of R87 is applied. Free (log 7). -/
opaque Config.layoutMiniRaw : LayoutMini

/-- `Content` of the full variant before the constraints of R170 are applied: OPEN (R7). Free (log 10). -/
opaque Config.contentFullRaw : Content

/-- `Content` of the mini variant before the constraints of R169 and R170 are applied: OPEN (R7). Free (log 10). -/
opaque Config.contentMiniRaw : Content

/-- The content of entry `a` between `ALLOC` and `FILL`, which the spec leaves unspecified (R136). Free (log 2). -/
opaque Config.unfilled : Nat → Word

/-- `BigEndian`, the flag of the serializer that a request leaves out: its default is false, little-endian (R7, R44). -/
def Config.bigEndian : Bool := false

/-- `IMM_M2`: any code but `IMM_OFF7` (R7, R68). -/
def Config.immM2 : BitVec 3 := if Config.immM2Raw = 2 then 3 else Config.immM2Raw

/-- Every 3-bit value, in rising order. -/
def allSub3 : List Sub3 := [0, 1, 2, 3, 4, 5, 6, 7]

/-- Every 1-bit value, in rising order. -/
def allBit : List Bit := [0, 1]

/-- A layout that meets the constraint of R87: the pattern is `f kkk aa bb`, qualifier 0. The machine after reset has it
only where the free layout breaks R87, and `Config.pRef` has it for printing vectors. It shows that the constraint can be
met and is no claim about the hardware (DESIGN CHOICE, log 7). -/
def someLayoutMini : LayoutMini :=
  [Fmt.A, Fmt.B].flatMap fun f => allSub3.flatMap fun k => (allSub3.take 4).flatMap fun a =>
    (allSub3.take 4).map fun b =>
      (⟨f, k, a, b, 0⟩,
        (if f = .A then 0#1 else 1#1) ++ k ++ a.setWidth 2 ++ b.setWidth 2)

/-- `LayoutMini`: any layout that meets the constraint of R87 (log 7). -/
def Config.layoutMini : LayoutMini :=
  if miniValid Config.layoutMiniRaw then Config.layoutMiniRaw else someLayoutMini

/-- `P_ref`, the reference instantiation used to print the spec's test vectors (R8), with a given content. It is no
claim about the hardware. R8 gives it no `LayoutMini` (OPEN, D5): that it takes `someLayoutMini` here is the model's
DESIGN CHOICE, and no vector of the spec rests on it (log 7). R8 gives it no `Content` either, and the groups of the two
variants may differ (R2, R169): that the given content stands for both variants is a DESIGN CHOICE (log 10). -/
def Config.pRef (content : Content) : Params where
  schema     := defaultSchema
  layoutFull := defaultLayout
  layoutMini := someLayoutMini
  opAdd      := 1
  immM2      := 3
  iaddrselPc := 0
  w16Word    := 1
  trapWord   := 0x1013F0F1
  pairStride := 6
  contentFull := content
  contentMini := content

end Sys2Proof
end

