-- ==== Sys2Proof/Syntax.lean ====
section
/-! DEFINITION. The instructions: one constructor for each row of `spec/opcode_table.json`, in its order, with the
operands the row's rule gives it. -/

namespace Sys2Proof

/-- One row of the opcode table with its operands. The first eighteen are operations an agent invokes, the others
addresses of a class of ROM entries that the environment presents on the lookup port (log 11, log 17). -/
inductive Instr where
  /-- PACK (R111): the field map; a field it does not list is absent. -/
  | pack (fields : FieldMap)
  /-- EXTRACT (R113): a control word and a field name. -/
  | extract (w : Word) (f : Field)
  /-- SCHEMA_VALID (R115): the schema to check. -/
  | schemaValid (S : Schema)
  /-- INDEXA (R121): phase, group selector, regA, regB, qualifier. -/
  | indexA (p : Bit) (g a b : Sub3) (q : Bit)
  /-- INDEXB (R122): phase, regA, sub-opcode, regB, qualifier. -/
  | indexB (p : Bit) (a sub b : Sub3) (q : Bit)
  /-- SPLIT (R123): a 12-bit index. -/
  | split (x : BitVec 12)
  /-- INDEX_MINI (R130): phase and the 8 instruction bits. -/
  | indexMini (p : Bit) (i : BitVec 8)
  /-- PAIR_PACK (R126): base and operand register. -/
  | pairPack (base operand : Sub3)
  /-- PAIR_UNPACK (R127): a pair number. -/
  | pairUnpack (pair : Nat)
  /-- ALLOC (R136): the variant. -/
  | alloc (v : Variant)
  /-- FILL (R137). -/
  | fill
  /-- WRITE1 (R138): an index with phase bit 0, the word, the rule's identity. -/
  | write1 (index : BitVec 12) (w : Word) (id : RuleId)
  /-- WRITE2 (R139): an index, the words of the two micro-steps, the rule's identity. -/
  | write2 (index : BitVec 12) (w0 w1 : Word) (id : RuleId)
  /-- DECODE_PASS (R140), of the parameter `Content`. -/
  | decodePass
  /-- GENERATE (R143): the variant, with the parameters `Schema` and `Content`. -/
  | generate (v : Variant)
  /-- LOOKUP (R146), full variant: phase and instruction bits. -/
  | lookup (p : Bit) (i : InstrBits)
  /-- LOOKUP_MINI (R146), mini variant. -/
  | lookupMini (p : Bit) (i : BitVec 8)
  /-- SERIALIZE (R148): the flag `BigEndian`. -/
  | serialize (big : Bool)
  /-- TRAP (R155), full variant: an address no rule claims. -/
  | trap (p : Bit) (i : InstrBits)
  /-- TRAP_MINI (R155), mini variant. -/
  | trapMini (p : Bit) (i : BitVec 8)
  /-- LD_G0 (R157): the address with every sub-field 0. -/
  | ldG0
  /-- LD_G0_REF (R157, D24): a group-0 address with regB in 0 to 5. -/
  | ldG0Ref (a b : Sub3) (q : Bit)
  /-- ONE_WORD (R158): the phase-0 address of a single-phase instruction. -/
  | oneWord (i : InstrBits)
  /-- TWO_WORD_FIRST (R159): the phase-0 address of a two-phase instruction. -/
  | twoWordFirst (i : InstrBits)
  /-- TWO_WORD_SECOND (R159): the phase-1 address of a two-phase instruction. -/
  | twoWordSecond (i : InstrBits)
  /-- ESC_REGB (R161): regB is an escape code, 6 + e; f the format bit, u bits 9:7, v bits 6:4. -/
  | escRegB (f : Bit) (u v : Sub3) (e : Bit) (q : Bit)
  /-- ESC_REGA_A (R161): format A, regA is an escape code, 6 + e. -/
  | escRegAA (g : Sub3) (e : Bit) (b : Sub3) (q : Bit)
  /-- ESC_REGA_B (R161): format B, regA is an escape code, 6 + e. -/
  | escRegAB (e : Bit) (sub b : Sub3) (q : Bit)
  /-- A_GROUP7 (R94): format A with group selector 7. -/
  | aGroup7 (p : Bit) (a b : Sub3) (q : Bit)
  deriving DecidableEq, Repr

end Sys2Proof
end

