-- ==== Sys2Proof/WellFormed.lean ====
section
/-! DEFINITION. Which instructions are well-formed: the operand constraints the rules state, and the bounds within
which a request can carry an operand (log 29). -/

namespace Sys2Proof

/-- A field map lists no field twice (R97) and its values fit the 16 bits a request gives each. -/
def fieldMapOk (m : FieldMap) : Bool :=
  decide ((m.map (·.1)).Nodup) && m.all (fun e => decide (e.2 < 2 ^ 16))

/-- A schema's widths and offsets fit the byte a request gives each. Nothing else is asked: SCHEMA_VALID takes any
list (R115). -/
def schemaOperandOk (S : Schema) : Bool :=
  S.all fun e => decide (e.width < 2 ^ 8) && decide (e.offset < 2 ^ 8)

/-- A rule identity fits the 16 bits a request gives it. -/
def ruleIdOk (id : RuleId) : Bool := decide (id < 2 ^ 16)

/-- The check on each instruction. -/
def Instr.wellFormed : Instr → Bool
  | .pack m => fieldMapOk m
  | .extract _ _ => true
  | .schemaValid S => schemaOperandOk S
  | .indexA _ _ _ _ _ => true
  | .indexB _ _ _ _ _ => true
  | .split _ => true
  | .indexMini _ _ => true
  | .pairPack _ _ => true
  | .pairUnpack n => decide (n < 2 ^ 38)
  | .alloc _ => true
  | .fill => true
  | .write1 x _ id => decide (x.toNat < 2048) && ruleIdOk id   -- phase bit 0 (R138)
  | .write2 _ _ _ id => ruleIdOk id
  | .decodePass => true
  | .generate _ => true
  | .lookup _ _ => true
  | .lookupMini _ _ => true
  | .serialize _ => true
  | .trap _ _ => true
  | .trapMini _ _ => true
  | .ldG0 => true
  | .ldG0Ref _ b _ => decide (b.toNat ≤ 5)                     -- the row's constraint (D24)
  | .oneWord _ => true
  | .twoWordFirst _ => true
  | .twoWordSecond _ => true
  | .escRegB _ _ _ _ _ => true
  | .escRegAA _ _ _ _ => true
  | .escRegAB _ _ _ _ => true
  | .aGroup7 _ _ _ _ => true

end Sys2Proof
end

