-- ==== Sys2Proof/Decode.lean ====
section
/-! DEFINITION. From bytes to instructions and back. The block executes no instruction stream, and the rows of the
opcode table share their words, so a request is: the row's word of four bytes, a selector (the row's place in the
table), and the operands the row's word has no bits for. A bare word (one, two or four bytes, no selector) is read as
the row its bits determine, as far as they do (log 11). -/

namespace Sys2Proof

/-- Why bytes are no request. -/
inductive DecodeError where
  /-- The length is that of no request. -/
  | badLength (n : Nat)
  /-- The selector names no row of the table. -/
  | badSelector (n : Nat)
  /-- The word has a bit outside the row's width, or differs from the row in a fixed bit. -/
  | notOfRow (mnemonic : String)
  /-- The bytes after the selector are no operands of the row. -/
  | badOperand (mnemonic : String)
  /-- The operands break a constraint of the row (`Instr.wellFormed`). -/
  | illFormed
  deriving DecidableEq, Repr

/-! ### Bytes and words -/

/-- The `n` low bytes of a number, least significant first. -/
def leBytes : Nat → Nat → List Byte
  | 0, _ => []
  | n + 1, w => BitVec.ofNat 8 w :: leBytes n (w / 256)

/-- A 32-bit word from its bytes, least significant first. -/
def wordOfBytes (b0 b1 b2 b3 : Byte) : Word := b3 ++ b2 ++ b1 ++ b0

/-- A 16-bit number from its bytes, least significant first. -/
def natOfBytes (b0 b1 : Byte) : Nat := b0.toNat + 256 * b1.toNat

/-- The 3-bit slice of a word from bit `lo` up. -/
def sub3At (w : Word) (lo : Nat) : Sub3 := w.extractLsb' lo 3

/-- One bit of a word. -/
def bitAt (w : Word) (lo : Nat) : Bit := w.extractLsb' lo 1

/-- A field's number in a request: its place in the table of R60, from 0. -/
def fieldByte : Field → Byte
  | .OP => 0 | .RL => 1 | .RLOE => 2 | .RR => 3 | .RROE => 4 | .RI => 5 | .RIWE => 6 | .IMM => 7
  | .RRBUSOE => 8 | .ALUOE => 9 | .FLAGSOE => 10 | .FLAGSWE => 11 | .IADDRSEL => 12 | .CNZ => 13
  | .MOE => 14 | .MWE => 15 | .W16 => 16 | .CRST => 17 | .IWE => 18 | .SELE => 19 | .SELIFLAGSSEL => 20

/-- The field with a number. -/
def fieldOfByte (b : Byte) : Option Field := Field.all[b.toNat]?

/-- A variant's number in a request. -/
def variantByte : Variant → Byte
  | .full => 0
  | .mini => 1

/-- The variant with a number. -/
def variantOfByte (b : Byte) : Option Variant :=
  if b = 0 then some .full else if b = 1 then some .mini else none

/-- A flag as a byte. -/
def boolByte (f : Bool) : Byte := if f then 1 else 0

/-- The flag a byte stands for. -/
def boolOfByte (b : Byte) : Option Bool :=
  if b = 0 then some false else if b = 1 then some true else none

/-- The bytes of a field map: field number, then the value in two bytes. -/
def fieldMapBytes : FieldMap → List Byte
  | [] => []
  | (f, v) :: m => fieldByte f :: BitVec.ofNat 8 v :: BitVec.ofNat 8 (v / 256) :: fieldMapBytes m

/-- The field map of such bytes. -/
def fieldMapOfBytes : List Byte → Option FieldMap
  | [] => some []
  | f :: lo :: hi :: rest =>
    match fieldOfByte f, fieldMapOfBytes rest with
    | some f, some m => some ((f, natOfBytes lo hi) :: m)
    | _, _ => none
  | _ => none

/-- The bytes of a schema: field number, width, offset. -/
def schemaBytes : Schema → List Byte
  | [] => []
  | e :: S => fieldByte e.field :: BitVec.ofNat 8 e.width :: BitVec.ofNat 8 e.offset :: schemaBytes S

/-- The schema of such bytes. -/
def schemaOfBytes : List Byte → Option Schema
  | [] => some []
  | f :: w :: o :: rest =>
    match fieldOfByte f, schemaOfBytes rest with
    | some f, some S => some (⟨f, w.toNat, o.toNat⟩ :: S)
    | _, _ => none
  | _ => none

/-! ### The opcode table -/

/-- One row of the opcode table: an address or word `x` belongs to it when `x` has no bit above `width` and
`x & mask = pattern` (INDEX.md, "How to read opcode_table.json"). -/
structure Row where
  mnemonic : String
  width    : Nat
  mask     : Nat
  pattern  : Nat
  deriving DecidableEq, Repr

/-- The 29 rows of `spec/opcode_table.json`, in its order. -/
def rows : List Row :=
  [⟨"PACK", 32, 0x0, 0x0⟩, ⟨"EXTRACT", 32, 0x0, 0x0⟩, ⟨"SCHEMA_VALID", 32, 0x0, 0x0⟩,
   ⟨"INDEXA", 12, 0x400, 0x000⟩, ⟨"INDEXB", 12, 0x400, 0x400⟩, ⟨"SPLIT", 12, 0x0, 0x0⟩,
   ⟨"INDEX_MINI", 9, 0x0, 0x0⟩, ⟨"PAIR_PACK", 6, 0x0, 0x0⟩, ⟨"PAIR_UNPACK", 6, 0x0, 0x0⟩,
   ⟨"ALLOC", 12, 0x0, 0x0⟩, ⟨"FILL", 12, 0x0, 0x0⟩, ⟨"WRITE1", 12, 0x800, 0x000⟩,
   ⟨"WRITE2", 12, 0x800, 0x000⟩, ⟨"DECODE_PASS", 12, 0x800, 0x000⟩, ⟨"GENERATE", 12, 0x0, 0x0⟩,
   ⟨"LOOKUP", 12, 0x0, 0x0⟩, ⟨"LOOKUP_MINI", 9, 0x0, 0x0⟩, ⟨"SERIALIZE", 12, 0x0, 0x0⟩,
   ⟨"TRAP", 12, 0x0, 0x0⟩, ⟨"TRAP_MINI", 9, 0x0, 0x0⟩, ⟨"LD_G0", 12, 0xFFF, 0x000⟩,
   ⟨"LD_G0_REF", 12, 0xF80, 0x000⟩, ⟨"ONE_WORD", 12, 0x800, 0x000⟩, ⟨"TWO_WORD_FIRST", 12, 0x800, 0x000⟩,
   ⟨"TWO_WORD_SECOND", 12, 0x800, 0x800⟩, ⟨"ESC_REGB", 12, 0x80C, 0x00C⟩, ⟨"ESC_REGA_A", 12, 0xC60, 0x060⟩,
   ⟨"ESC_REGA_B", 12, 0xF00, 0x700⟩, ⟨"A_GROUP7", 12, 0x780, 0x380⟩]

/-- A word belongs to a row. -/
def Row.holds (r : Row) (w : Word) : Bool :=
  decide (w.toNat < 2 ^ r.width) && decide (w.toNat &&& r.mask = r.pattern)

/-- The place of an instruction's row in the table, from 1: the selector of its request. -/
def selector : Instr → Nat
  | .pack _ => 1 | .extract _ _ => 2 | .schemaValid _ => 3
  | .indexA _ _ _ _ _ => 4 | .indexB _ _ _ _ _ => 5 | .split _ => 6 | .indexMini _ _ => 7
  | .pairPack _ _ => 8 | .pairUnpack _ => 9
  | .alloc _ => 10 | .fill => 11 | .write1 _ _ _ => 12 | .write2 _ _ _ _ => 13
  | .decodePass => 14 | .generate _ => 15 | .lookup _ _ => 16 | .lookupMini _ _ => 17 | .serialize _ => 18
  | .trap _ _ => 19 | .trapMini _ _ => 20 | .ldG0 => 21 | .ldG0Ref _ _ _ => 22
  | .oneWord _ => 23 | .twoWordFirst _ => 24 | .twoWordSecond _ => 25
  | .escRegB _ _ _ _ _ => 26 | .escRegAA _ _ _ _ => 27 | .escRegAB _ _ _ _ => 28 | .aGroup7 _ _ _ _ => 29

/-! ### The row's word -/

/-- The control word that shows a field map in the layout of the row PACK: the low bits of each value at the
field's place. -/
def fieldMapWord : FieldMap → Schema → Word
  | _, [] => 0
  | m, e :: S =>
    let v := ((m.find? fun x => x.1 = e.field).map (·.2)).getD 0
    (BitVec.ofNat 32 (v % 2 ^ e.width) <<< e.offset) ||| fieldMapWord m S

/-- The twelve bits of a format-A address (R85). -/
def addrA (p : Bit) (g a b : Sub3) (q : Bit) : BitVec 12 := p ++ 0#1 ++ g ++ a ++ b ++ q

/-- The twelve bits of a format-B address (R86). -/
def addrB (p : Bit) (a sub b : Sub3) (q : Bit) : BitVec 12 := p ++ 1#1 ++ a ++ sub ++ b ++ q

/-- The word of an instruction's row: each operand at the bits the row gives it, every other bit 0. -/
def rowWord : Instr → Word
  | .pack m => fieldMapWord m defaultSchema
  | .extract w _ => w
  | .schemaValid _ => 0
  | .indexA p g a b q => (addrA p g a b q).setWidth 32
  | .indexB p a sub b q => (addrB p a sub b q).setWidth 32
  | .split x => x.setWidth 32
  | .indexMini p i => (p ++ i).setWidth 32
  | .pairPack base operand => (base ++ operand).setWidth 32
  | .pairUnpack n => BitVec.ofNat 32 (n % 64)
  | .alloc _ => 0
  | .fill => 0
  | .write1 x _ _ => x.setWidth 32
  | .write2 x _ _ _ => (x.setWidth 11).setWidth 32
  | .decodePass => 0
  | .generate _ => 0
  | .lookup p i => (p ++ i).setWidth 32
  | .lookupMini p i => (p ++ i).setWidth 32
  | .serialize _ => 0
  | .trap p i => (p ++ i).setWidth 32
  | .trapMini p i => (p ++ i).setWidth 32
  | .ldG0 => 0
  | .ldG0Ref a b q => (0#5 ++ a ++ b ++ q).setWidth 32
  | .oneWord i => (0#1 ++ i).setWidth 32
  | .twoWordFirst i => (0#1 ++ i).setWidth 32
  | .twoWordSecond i => (1#1 ++ i).setWidth 32
  | .escRegB f u v e q => (0#1 ++ f ++ u ++ v ++ 3#2 ++ e ++ q).setWidth 32
  | .escRegAA g e b q => (0#2 ++ g ++ 3#2 ++ e ++ b ++ q).setWidth 32
  | .escRegAB e sub b q => (7#4 ++ e ++ sub ++ b ++ q).setWidth 32
  | .aGroup7 p a b q => (p ++ 7#4 ++ a ++ b ++ q).setWidth 32

/-- The operands a row's word has no bits for. -/
def operandBytes : Instr → List Byte
  | .pack m => fieldMapBytes m
  | .extract _ f => [fieldByte f]
  | .schemaValid S => schemaBytes S
  | .pairUnpack n => leBytes 4 (n / 64)
  | .alloc v => [variantByte v]
  | .write1 _ w id => leBytes 4 w.toNat ++ leBytes 2 id
  | .write2 x w0 w1 id =>
    boolByte (x.getLsbD 11) :: (leBytes 4 w0.toNat ++ leBytes 4 w1.toNat ++ leBytes 2 id)
  | .generate v => [variantByte v]
  | .serialize big => [boolByte big]
  | .indexA _ _ _ _ _ => []
  | .indexB _ _ _ _ _ => []
  | .split _ => []
  | .indexMini _ _ => []
  | .pairPack _ _ => []
  | .fill => []
  | .decodePass => []
  | .lookup _ _ => []
  | .lookupMini _ _ => []
  | .trap _ _ => []
  | .trapMini _ _ => []
  | .ldG0 => []
  | .ldG0Ref _ _ _ => []
  | .oneWord _ => []
  | .twoWordFirst _ => []
  | .twoWordSecond _ => []
  | .escRegB _ _ _ _ _ => []
  | .escRegAA _ _ _ _ => []
  | .escRegAB _ _ _ _ => []
  | .aGroup7 _ _ _ _ => []

/-! ### Decoding -/

/-- The domain of PAIR_PACK: two distinct ordinary registers (R126). -/
def pairDomain (base operand : Nat) : Bool :=
  decide (base ≤ 5) && decide (operand ≤ 5) && decide (operand ≠ base)

/-- An instruction whose row's word carries every operand. -/
def alone (mnemonic : String) (i : Instr) : List Byte → Except DecodeError Instr
  | [] => .ok i
  | _ => .error (.badOperand mnemonic)

/-- An instruction with operands, or the row's name if there are none. -/
def orBad (mnemonic : String) : Option Instr → Except DecodeError Instr
  | some i => .ok i
  | none => .error (.badOperand mnemonic)

/-- The instruction of the row with selector `sel`, whose word is `w` and whose further operands are `x`. The word
is known to belong to the row. -/
def operandsOf (sel : Nat) (w : Word) (x : List Byte) : Except DecodeError Instr :=
  match sel with
  | 1 =>
    match fieldMapOfBytes x with
    | some m => if fieldMapWord m defaultSchema = w then .ok (.pack m) else .error (.badOperand "PACK")
    | none => .error (.badOperand "PACK")
  | 2 =>
    match x with
    | [f] => orBad "EXTRACT" ((fieldOfByte f).map (.extract w ·))
    | _ => .error (.badOperand "EXTRACT")
  | 3 => if w = 0 then orBad "SCHEMA_VALID" ((schemaOfBytes x).map .schemaValid) else .error (.badOperand "SCHEMA_VALID")
  | 4 => alone "INDEXA" (.indexA (bitAt w 11) (sub3At w 7) (sub3At w 4) (sub3At w 1) (bitAt w 0)) x
  | 5 => alone "INDEXB" (.indexB (bitAt w 11) (sub3At w 7) (sub3At w 4) (sub3At w 1) (bitAt w 0)) x
  | 6 => alone "SPLIT" (.split (w.setWidth 12)) x
  | 7 => alone "INDEX_MINI" (.indexMini (bitAt w 8) (w.setWidth 8)) x
  | 8 => alone "PAIR_PACK" (.pairPack (sub3At w 3) (sub3At w 0)) x
  | 9 =>
    match x with
    | [b0, b1, b2, b3] => .ok (.pairUnpack (w.toNat + 64 * (wordOfBytes b0 b1 b2 b3).toNat))
    | _ => .error (.badOperand "PAIR_UNPACK")
  | 10 =>
    match x with
    | [v] => orBad "ALLOC" ((variantOfByte v).map .alloc)
    | _ => .error (.badOperand "ALLOC")
  | 11 => alone "FILL" .fill x
  | 12 =>
    match x with
    | [b0, b1, b2, b3, i0, i1] => .ok (.write1 (w.setWidth 12) (wordOfBytes b0 b1 b2 b3) (natOfBytes i0 i1))
    | _ => .error (.badOperand "WRITE1")
  | 13 =>
    match x with
    | [p, b0, b1, b2, b3, c0, c1, c2, c3, i0, i1] =>
      orBad "WRITE2" ((boolOfByte p).map fun top =>
        .write2 (BitVec.ofBool top ++ (w.setWidth 11 : BitVec 11)) (wordOfBytes b0 b1 b2 b3)
          (wordOfBytes c0 c1 c2 c3) (natOfBytes i0 i1))
    | _ => .error (.badOperand "WRITE2")
  | 14 => alone "DECODE_PASS" .decodePass x
  | 15 =>
    match x with
    | [v] => orBad "GENERATE" ((variantOfByte v).map .generate)
    | _ => .error (.badOperand "GENERATE")
  | 16 => alone "LOOKUP" (.lookup (bitAt w 11) (w.setWidth 11)) x
  | 17 => alone "LOOKUP_MINI" (.lookupMini (bitAt w 8) (w.setWidth 8)) x
  | 18 =>
    match x with
    | [] => .ok (.serialize Config.bigEndian)
    | [big] => orBad "SERIALIZE" ((boolOfByte big).map .serialize)
    | _ => .error (.badOperand "SERIALIZE")
  | 19 => alone "TRAP" (.trap (bitAt w 11) (w.setWidth 11)) x
  | 20 => alone "TRAP_MINI" (.trapMini (bitAt w 8) (w.setWidth 8)) x
  | 21 => alone "LD_G0" .ldG0 x
  | 22 => alone "LD_G0_REF" (.ldG0Ref (sub3At w 4) (sub3At w 1) (bitAt w 0)) x
  | 23 => alone "ONE_WORD" (.oneWord (w.setWidth 11)) x
  | 24 => alone "TWO_WORD_FIRST" (.twoWordFirst (w.setWidth 11)) x
  | 25 => alone "TWO_WORD_SECOND" (.twoWordSecond (w.setWidth 11)) x
  | 26 => alone "ESC_REGB" (.escRegB (bitAt w 10) (sub3At w 7) (sub3At w 4) (bitAt w 1) (bitAt w 0)) x
  | 27 => alone "ESC_REGA_A" (.escRegAA (sub3At w 7) (bitAt w 4) (sub3At w 1) (bitAt w 0)) x
  | 28 => alone "ESC_REGA_B" (.escRegAB (bitAt w 7) (sub3At w 4) (sub3At w 1) (bitAt w 0)) x
  | 29 => alone "A_GROUP7" (.aGroup7 (bitAt w 11) (sub3At w 4) (sub3At w 1) (bitAt w 0)) x
  | n => .error (.badSelector n)

/-- A request with a selector: the word must belong to the selected row. -/
def decodeSelected (w : Word) (sel : Nat) (x : List Byte) : Except DecodeError Instr :=
  match rows[sel - 1]? with
  | none => .error (.badSelector sel)
  | some r => if r.holds w then operandsOf sel w x else .error (.notOfRow r.mnemonic)

/-- A bare 32-bit control word: PACK of the 21 slices the row shows. -/
def bareControlWord (w : Word) : Instr :=
  .pack (defaultSchema.map fun e => (e.field, (w >>> e.offset).toNat % 2 ^ e.width))

/-- A bare 12-bit word carries no operation selector: it is an address on the lookup port. It is read as the entry
row its bits single out, escape rows first (R161), and as ONE_WORD or TWO_WORD_SECOND by its phase otherwise. -/
def bareAddress (w : Word) : Instr :=
  if w.toNat = 0 then .ldG0
  else if w.toNat &&& 0xF00 = 0x700 then .escRegAB (bitAt w 7) (sub3At w 4) (sub3At w 1) (bitAt w 0)
  else if w.toNat &&& 0xC60 = 0x060 then .escRegAA (sub3At w 7) (bitAt w 4) (sub3At w 1) (bitAt w 0)
  else if w.toNat &&& 0x80C = 0x00C then
    .escRegB (bitAt w 10) (sub3At w 7) (sub3At w 4) (bitAt w 1) (bitAt w 0)
  else if w.toNat &&& 0x780 = 0x380 then .aGroup7 (bitAt w 11) (sub3At w 4) (sub3At w 1) (bitAt w 0)
  else if w.toNat &&& 0xF80 = 0x000 then .ldG0Ref (sub3At w 4) (sub3At w 1) (bitAt w 0)
  else if w.toNat &&& 0x800 = 0x800 then .twoWordSecond (w.setWidth 11)
  else .oneWord (w.setWidth 11)

/-- A bare 6-bit word: PAIR_PACK where it lies in the domain of R126, PAIR_UNPACK elsewhere. -/
def barePair (w : Word) : Instr :=
  if pairDomain (sub3At w 3).toNat (sub3At w 0).toNat then .pairPack (sub3At w 3) (sub3At w 0)
  else .pairUnpack w.toNat

/-- The instruction that bytes stand for, its operands not yet checked. -/
def parse : List Byte → Except DecodeError Instr
  | [b0] =>
    let w := wordOfBytes b0 0 0 0
    if w.toNat < 2 ^ 6 then .ok (barePair w) else .error (.notOfRow "PAIR_PACK")
  | [b0, b1] =>
    let w := wordOfBytes b0 b1 0 0
    if w.toNat < 2 ^ 12 then .ok (bareAddress w) else .error (.notOfRow "TRAP")
  | [b0, b1, b2, b3] => .ok (bareControlWord (wordOfBytes b0 b1 b2 b3))
  | b0 :: b1 :: b2 :: b3 :: sel :: x => decodeSelected (wordOfBytes b0 b1 b2 b3) sel.toNat x
  | bytes => .error (.badLength bytes.length)

/-- The decoder: total on any bytes, rejecting by name, and answering well-formed instructions only. -/
def decode (bytes : List Byte) : Except DecodeError Instr :=
  match parse bytes with
  | .ok i => if i.wellFormed then .ok i else .error .illFormed
  | .error e => .error e

/-- The instruction the decoder reads from a word of the opcode table of `nbits` bits (whole bytes), laid out with
its least significant byte first. -/
def decodeTableWord (nbits w : Nat) : Option Instr :=
  match decode (leBytes (nbits / 8) w) with
  | .ok i => some i
  | .error _ => none

/-! ### Encoding -/

/-- The request of an instruction: its row's word, its selector, its further operands. -/
def encode (i : Instr) : List Byte :=
  leBytes 4 (rowWord i).toNat ++ BitVec.ofNat 8 (selector i) :: operandBytes i

end Sys2Proof
end

