-- ==== Sys2Proof/Machine/Operands.lean ====
section
/-! DEFINITION. The pure functions of the block: the packer (R111 to R116), the address functions (R121 to R125), the
pair numbering (R126 to R128), and the values of decode rules (R98, R140). -/

namespace Sys2Proof.Machine

/-! ### The packer -/

/-- The value a field map gives a field; 0 for an absent field (R111, D9). Of a field listed twice it is the first value
(DESIGN CHOICE, log 35). -/
def fieldValue (m : FieldMap) (f : Field) : Nat :=
  ((m.find? fun x => x.1 = f).map (·.2)).getD 0

/-- PACK (R111): the OR of each field's value shifted to its offset, or the first field of the schema whose value does
not fit its width, with the value (R112; log 20). -/
def pack : Schema → FieldMap → Except (Field × Nat) Word
  | [], _ => .ok 0
  | e :: S, m =>
    if fieldValue m e.field < 2 ^ e.width then
      match pack S m with
      | .ok w => .ok ((BitVec.ofNat 32 (fieldValue m e.field) <<< e.offset) ||| w)
      | .error x => .error x
    else .error (e.field, fieldValue m e.field)

/-- EXTRACT (R113): the slice of a word at a field's offset and width. A field the schema does not list (an invalid
schema) reads 0. -/
def extract (S : Schema) (w : Word) (f : Field) : Nat :=
  match S.find? fun e => e.field = f with
  | some e => w.toNat >>> e.offset % 2 ^ e.width
  | none => 0

/-- The clause of R82 that a schema breaks (R183), with the offending field or pair (R181). -/
inductive SchemaClause where
  | missing (f : Field)
  | repeated (f : Field)
  | width (f : Field)
  | outside (f : Field)
  | overlap (f g : Field)
  deriving DecidableEq, Repr

/-- The first field that the schema does not name exactly once (R82, first clause). -/
def namesClause (S : Schema) : List Field → Option SchemaClause
  | [] => none
  | f :: fs =>
    match (S.filter fun e => e.field = f).length with
    | 0 => some (.missing f)
    | 1 => namesClause S fs
    | _ => some (.repeated f)

/-- The first entry whose width is not 1 to 4 or that ends outside the word (R82, second and fourth clause). -/
def rangeClause : Schema → Option SchemaClause
  | [] => none
  | e :: S =>
    if e.width = 0 ∨ 4 < e.width then some (.width e.field)
    else if 32 < e.offset + e.width then some (.outside e.field)
    else rangeClause S

/-- The first pair of entries that share a bit (R82, third clause). -/
def overlapClause : Schema → Option SchemaClause
  | [] => none
  | e :: S =>
    match S.find? fun d => !rangesApart e.offset e.width d.offset d.width with
    | some d => some (.overlap e.field d.field)
    | none => overlapClause S

/-- The first clause a schema breaks, in the order of the pseudocode of R115; none if it is valid. -/
def schemaClause (S : Schema) : Option SchemaClause :=
  match namesClause S Field.all with
  | some c => some c
  | none =>
    match rangeClause S with
    | some c => some c
    | none => overlapClause S

/-- SCHEMA_VALID (R115). -/
def schemaOk (S : Schema) : Bool := (schemaClause S).isNone

/-! ### The address functions -/

/-- One sub-field at its place in a 12-bit index. -/
def placed {w : Nat} (v : BitVec w) (lo : Nat) : BitVec 12 := v.setWidth 12 <<< lo

/-- The value of the format bit of a format (R84). -/
def fmtBit (L : LayoutFull) : Fmt → Bit
  | .A => L.fmtA
  | .B => ~~~L.fmtA

/-- The layout of a format's sub-fields. -/
def fmtLayout (L : LayoutFull) : Fmt → FmtLayout
  | .A => L.forA
  | .B => L.forB

/-- The index of a combination at a phase, full variant: the concatenation of R85 or R86 as an OR of shifts (R131). -/
def indexOf (L : LayoutFull) (p : Bit) (c : Combo) : BitVec 12 :=
  let l := fmtLayout L c.fmt
  placed p 11 ||| placed (fmtBit L c.fmt) 10 ||| placed c.key l.keyLo ||| placed c.a l.aLo |||
    placed c.b l.bLo ||| placed c.q l.qLo

/-- INDEXA (R121). -/
def indexA (L : LayoutFull) (p : Bit) (g a b : Sub3) (q : Bit) : BitVec 12 := indexOf L p ⟨.A, g, a, b, q⟩

/-- INDEXB (R122); the sub-opcode is the group key of format B. -/
def indexB (L : LayoutFull) (p : Bit) (a sub b : Sub3) (q : Bit) : BitVec 12 := indexOf L p ⟨.B, sub, a, b, q⟩

/-- The sub-fields SPLIT answers (R123). -/
structure Split where
  phase : Bit
  combo : Combo
  deriving DecidableEq, Repr

/-- SPLIT (R123). -/
def split (L : LayoutFull) (x : BitVec 12) : Split :=
  let f := if x.extractLsb' 10 1 = L.fmtA then Fmt.A else Fmt.B
  let l := fmtLayout L f
  ⟨x.extractLsb' 11 1,
    ⟨f, x.extractLsb' l.keyLo 3, x.extractLsb' l.aLo 3, x.extractLsb' l.bLo 3, x.extractLsb' l.qLo 1⟩⟩

/-- The index of the mini variant (R130). -/
def indexMini (p : Bit) (i : BitVec 8) : BitVec 9 := p ++ i

/-! ### The pair numbering -/

/-- PAIR_PACK (R126); no value outside the domain. -/
def pairPack (stride base operand : Nat) : Option Nat :=
  if pairDomain base operand then some (base * stride + operand - (if base ≤ operand then 1 else 0)) else none

/-- PAIR_UNPACK (R127): (base, operand), or none. -/
def pairUnpack (stride pair : Nat) : Option (Nat × Nat) :=
  let base := pair / stride
  let r := pair % stride
  if 5 < base ∨ 4 < r then none else some (base, r + (if base ≤ r then 1 else 0))

/-! ### Decode rules -/

/-- The value of a number expression on a combination (R98). -/
def evalNum (c : Combo) : NumExpr → Nat
  | .const n => n
  | .key => c.key.toNat
  | .regA => c.a.toNat
  | .regB => c.b.toNat
  | .qual => c.q.toNat
  | .add x y => evalNum c x + evalNum c y
  | .mul x y => evalNum c x * evalNum c y

/-- The truth of a predicate on a combination (R98). -/
def evalPred (c : Combo) : Pred → Bool
  | .always => true
  | .eq x y => decide (evalNum c x = evalNum c y)
  | .le x y => decide (evalNum c x ≤ evalNum c y)
  | .compl p => !evalPred c p
  | .conj p r => evalPred c p && evalPred c r
  | .disj p r => evalPred c p || evalPred c r

/-- The value of a template's field (R97, R98, R163); none for a register of a pair where none was unpacked. -/
def evalField (cfg : Params) (c : Combo) (pair : Option (Nat × Nat)) : FieldExpr → Option Nat
  | .const n => some n
  | .regA => some c.a.toNat
  | .regB => some c.b.toNat
  | .qual => some c.q.toNat
  | .base => pair.map (·.1)
  | .opd => pair.map (·.2)
  | .opAdd => some cfg.opAdd.toNat
  | .immM2 => some cfg.immM2.toNat
  | .iaddrselPc => some cfg.iaddrselPc.toNat

/-- The field map of a template on a combination. A field the template lists twice, an error by R97 for which R181 names
no fault, stands in it twice, and PACK takes the first (DESIGN CHOICE, log 35). -/
def evalTemplate (cfg : Params) (c : Combo) (pair : Option (Nat × Nat)) : Template → Option FieldMap
  | [] => some []
  | (f, x) :: t =>
    match evalField cfg c pair x, evalTemplate cfg c pair t with
    | some v, some m => some ((f, v) :: m)
    | _, _ => none

/-- What a rule emits for a combination, its templates evaluated: the field maps PACK is given (R140). -/
inductive Emission where
  | one (w : FieldMap)
  | two (w0 w1 : FieldMap)
  deriving DecidableEq, Repr

/-- The emission of a rule's templates. -/
def evalEmit (cfg : Params) (c : Combo) (pair : Option (Nat × Nat)) : Emit → Option Emission
  | .one t => (evalTemplate cfg c pair t).map .one
  | .two t0 t1 =>
    match evalTemplate cfg c pair t0, evalTemplate cfg c pair t1 with
    | some m0, some m1 => some (.two m0 m1)
    | _, _ => none

/-- The emission of a rule on a combination of its format and group whose predicate holds; none where the rule does
not match, which includes a packed number that unpacks to none (R163; log 10). -/
def ruleEmission (cfg : Params) (c : Combo) (r : Rule) : Option Emission :=
  if r.fmt = c.fmt ∧ r.key = c.key ∧ evalPred c r.pred = true then
    match r.pair with
    | none => evalEmit cfg c none r.emit
    | some e =>
      match pairUnpack cfg.pairStride (evalNum c e) with
      | some bo => evalEmit cfg c (some bo) r.emit
      | none => none
  else none

/-- The first rule of a list that matches a combination, with its emission: first match wins (R140, R141). -/
def firstMatch (cfg : Params) (c : Combo) : List Rule → Option (RuleId × Emission)
  | [] => none
  | r :: rs =>
    match ruleEmission cfg c r with
    | some e => some (r.id, e)
    | none => firstMatch cfg c rs

/-- The value of a template's field that is fixed when the rule is written: a number or a named code (R112). -/
def closedValue (cfg : Params) : FieldExpr → Option Nat
  | .const n => some n
  | .opAdd => some cfg.opAdd.toNat
  | .immM2 => some cfg.immM2.toNat
  | .iaddrselPc => some cfg.iaddrselPc.toNat
  | .regA => none
  | .regB => none
  | .qual => none
  | .base => none
  | .opd => none

/-- The width of a field in a schema; 0 for a field it does not list. -/
def widthIn (S : Schema) (f : Field) : Nat :=
  match S.find? fun e => e.field = f with
  | some e => e.width
  | none => 0

/-- The first fixed value of a template that does not fit its field (R112). -/
def templateRange (cfg : Params) : Template → Option (Field × Nat)
  | [] => none
  | (f, x) :: t =>
    match closedValue cfg x with
    | some v => if v < 2 ^ widthIn cfg.schema f then templateRange cfg t else some (f, v)
    | none => templateRange cfg t

/-- The first fixed value of a rule's templates that does not fit its field. -/
def emitRange (cfg : Params) : Emit → Option (Field × Nat)
  | .one t => templateRange cfg t
  | .two t0 t1 => templateRange cfg (t0 ++ t1)

/-- The assertion of rule construction (R112): the first fixed value of any rule that does not fit its field. -/
def contentRange (cfg : Params) : List Rule → Option (Field × Nat)
  | [] => none
  | r :: rs =>
    match emitRange cfg r.emit with
    | some x => some x
    | none => contentRange cfg rs

/-- The forms of the rules that match a combination, in priority order. -/
def matchingForms (cfg : Params) (c : Combo) (rs : List Rule) : List RuleForm :=
  (rs.filter fun r => (ruleEmission cfg c r).isSome).map (·.form)

/-- No alternate form stands after the generic form (R161). -/
def alternatesFirst : List RuleForm → Bool
  | [] => true
  | .generic :: fs => fs.all fun f => f ≠ .alternate
  | .alternate :: fs => alternatesFirst fs
  | .plain :: fs => alternatesFirst fs

/-- Escape precedence at one combination (R161). -/
def escapeFirst (cfg : Params) (rs : List Rule) (c : Combo) : Bool := alternatesFirst (matchingForms cfg c rs)

/-- Every combination of a format, in the order of the loops of R140. -/
def combosOf (f : Fmt) : List Combo :=
  allSub3.flatMap fun k => allSub3.flatMap fun a => allSub3.flatMap fun b => allBit.map fun q => ⟨f, k, a, b, q⟩

/-- Every combination, format A first. -/
def allCombos : List Combo := combosOf .A ++ combosOf .B

/-- The combinations the pass enumerates with the phase-0 index of each: all of both formats in the full variant
(R140), the slots of `LayoutMini` in the mini variant (R87). -/
def slots (cfg : Params) : Variant → List (Combo × Nat)
  | .full => allCombos.map fun c => (c, (indexOf cfg.layoutFull 0 c).toNat)
  | .mini => cfg.layoutMini.map fun x => (x.1, x.2.toNat)

end Sys2Proof.Machine
end

