-- ==== Sys2Proof/Machine/Flags.lean ====
section
/-! DEFINITION. The flags lines of a control word. The block has no flags register (R30); what the spec gives of the
CPU's is two enables in the control word. -/

namespace Sys2Proof.Machine

/-- An enable of a word is on: its field holds 1. A valid schema may give an enable up to 4 bits (R82), and the spec gives
a meaning to the values 1 and 0 only: that every other value counts as off is a DESIGN CHOICE (log 34). -/
def lineOn (S : Schema) (w : Word) (f : Field) : Bool := decide (extract S w f = 1)

/-- FLAGSOE (R71): the flags register drives its output. -/
def flagsRead (S : Schema) (w : Word) : Bool := lineOn S w .FLAGSOE

/-- FLAGSWE (R72): the flags register is written this phase. -/
def flagsWritten (S : Schema) (w : Word) : Bool := lineOn S w .FLAGSWE

/-- A word that preserves the flags: FLAGSWE is 0 (R72, R164). It is a property of the word alone, never derived
from OP. -/
def flagsPreserved (S : Schema) (w : Word) : Bool := !flagsWritten S w

end Sys2Proof.Machine
end

