-- ==== Sys2Proof/Machine/ControlLines.lean ====
section
/-! DEFINITION. What a control word says to the CPU, as far as the spec says it (R61 to R81; log 33): a function of the
word. The CPU itself is outside the block (R4, R29 to R33), so no state changes here. -/

namespace Sys2Proof.Machine

/-- What feeds the ALU's second input (R68). Only two codes are known. -/
inductive SecondOperand where
  | offset7
  | minus2
  | other (code : Nat)
  deriving DecidableEq, Repr

/-- Where the next fetch address comes from (R73; a wider field: log 39). -/
inductive FetchSource where
  | pc
  | delayRegister
  deriving DecidableEq, Repr

/-- The control lines of one word. A register source or destination is absent when its enable is 0. -/
structure ControlLines where
  aluOp        : Nat
  left         : Option Nat
  right        : Option Nat
  destination  : Option Nat
  second       : SecondOperand
  storeData    : Option Nat
  aluOut       : Bool
  flagsRead    : Bool
  flagsWritten : Bool
  fetch        : FetchSource
  cnz          : Nat
  memRead      : Bool
  memWrite     : Bool
  wide         : Bool
  ends         : Bool
  intWrite     : Bool
  selEnable    : Bool
  selSource    : Nat
  deriving DecidableEq, Repr

/-- A register index that an enable line gates (R63, R65, R67, R69). -/
def gated (S : Schema) (w : Word) (enable index : Field) : Option Nat :=
  if lineOn S w enable then some (extract S w index) else none

/-- The second ALU input a word selects (R68). R6 states `IMM_OFF7` = 2 for the full variant and nothing for the mini one:
that the code 2 is the 7-bit offset in a word of either variant is a DESIGN CHOICE (log 38). -/
def secondOperand (cfg : Params) (w : Word) : SecondOperand :=
  let code := extract cfg.schema w .IMM
  if code = immOff7 then .offset7 else if code = cfg.immM2.toNat then .minus2 else .other code

/-- The lines of a control word (R61 to R81). A valid schema may give IADDRSEL and W16 up to 4 bits (R82), and R73 and R77
give each two values: that every value of IADDRSEL but `IADDRSEL_PC` is the delay register, and every value of W16 but
`W16_WORD` the 8-bit access, is a DESIGN CHOICE (log 39). -/
def controlLines (cfg : Params) (w : Word) : ControlLines where
  aluOp        := extract cfg.schema w .OP
  left         := gated cfg.schema w .RLOE .RL
  right        := gated cfg.schema w .RROE .RR
  destination  := gated cfg.schema w .RIWE .RI
  second       := secondOperand cfg w
  storeData    := gated cfg.schema w .RRBUSOE .RR
  aluOut       := lineOn cfg.schema w .ALUOE
  flagsRead    := Sys2Proof.Machine.flagsRead cfg.schema w
  flagsWritten := Sys2Proof.Machine.flagsWritten cfg.schema w
  fetch        := if extract cfg.schema w .IADDRSEL = cfg.iaddrselPc.toNat then .pc else .delayRegister
  cnz          := extract cfg.schema w .CNZ
  memRead      := lineOn cfg.schema w .MOE
  memWrite     := lineOn cfg.schema w .MWE
  wide         := decide (extract cfg.schema w .W16 = cfg.w16Word.toNat)
  ends         := lineOn cfg.schema w .CRST
  intWrite     := lineOn cfg.schema w .IWE
  selEnable    := lineOn cfg.schema w .SELE
  selSource    := extract cfg.schema w .SELIFLAGSSEL

/-- The register code of the program counter (R29). -/
def pcCode : Nat := 7

/-- What a word adds to the CPU's program counter, where the spec says it: of the trap word, R156 says that it is
`PC = PC - 2`, which its fields spell out as ALU add of the program counter and -2, driven out and written back, with no
memory access and as the end of the instruction (R155). Of every other word, one with conflicting drivers among them, the
spec gives no such effect and none is invented (R95, U8; log 16). -/
def pcDisplacement (cfg : Params) (w : Word) : Option Int :=
  let l := controlLines cfg w
  if w = cfg.trapWord ∧ l.aluOp = cfg.opAdd.toNat ∧ l.left = some pcCode ∧ l.second = .minus2 ∧
      l.aluOut = true ∧ l.destination = some pcCode ∧ l.memRead = false ∧ l.memWrite = false ∧ l.ends = true
  then some (-2) else none

end Sys2Proof.Machine
end

