-- ==== Sys2Proof/Machine/Parameters.lean ====
section
/-! DEFINITION. The constraints of R7 and R170 on the parameters, and the parameters of the machine after reset. -/

namespace Sys2Proof.Machine

/-! ### The constraints on the parameters (R7) -/

/-- The constraints of R7 on the layouts. -/
def layoutsOk (cfg : Params) : Bool := cfg.layoutFull.valid && miniValid cfg.layoutMini

/-- The eight fields the source states of the trap word (R155). -/
def trapWordOk (cfg : Params) : Bool :=
  decide (extract cfg.schema cfg.trapWord .CRST = 1) && decide (extract cfg.schema cfg.trapWord .MOE = 0) &&
  decide (extract cfg.schema cfg.trapWord .MWE = 0) && decide (extract cfg.schema cfg.trapWord .RI = 7) &&
  decide (extract cfg.schema cfg.trapWord .RL = 7) &&
  decide (extract cfg.schema cfg.trapWord .IMM = cfg.immM2.toNat) &&
  decide (extract cfg.schema cfg.trapWord .OP = cfg.opAdd.toNat) &&
  decide (extract cfg.schema cfg.trapWord .ALUOE = 1)

/-- The constraints of R7 on the codes: they fit their fields, and the code of -2 is not that of the offset (R68). -/
def codesOk (cfg : Params) : Bool :=
  decide (cfg.opAdd.toNat < 2 ^ widthIn cfg.schema .OP) && decide (cfg.immM2.toNat < 2 ^ widthIn cfg.schema .IMM) &&
  decide (cfg.immM2.toNat ≠ immOff7)

/-- The constraint of R7 on `Schema` that is no clause of R82: a register index has 3 bits. -/
def registerWidthsOk (cfg : Params) : Bool :=
  decide (widthIn cfg.schema .RL = 3) && decide (widthIn cfg.schema .RR = 3) && decide (widthIn cfg.schema .RI = 3)

/-- The constraints of R7 on every parameter but `Content`. -/
def paramsOk (cfg : Params) : Bool :=
  schemaOk cfg.schema && registerWidthsOk cfg && layoutsOk cfg && codesOk cfg && trapWordOk cfg && decide (5 ≤ cfg.pairStride)

/-! ### The constraints on the content (R170) -/

/-- A field map packs to a word whose field CRST holds a value. -/
def packsCrst (cfg : Params) (m : FieldMap) (n : Nat) : Bool :=
  match pack cfg.schema m with
  | .ok w => decide (extract cfg.schema w .CRST = n)
  | .error _ => false

/-- A packed word is the trap word. -/
def packsTrap (cfg : Params) (m : FieldMap) : Bool :=
  match pack cfg.schema m with
  | .ok w => decide (w = cfg.trapWord)
  | .error _ => false

/-- The forms of R158 and R159: a single word has `CRST` = 1; of two words the first has `CRST` = 0 and the second 1,
and neither is the trap word. -/
def emissionForm (cfg : Params) : Emission → Bool
  | .one m => packsCrst cfg m 1
  | .two m0 m1 => packsCrst cfg m0 0 && packsCrst cfg m1 1 && !packsTrap cfg m0 && !packsTrap cfg m1

/-- Every emission of a variant's rules on a combination the pass enumerates has the form of R158 or R159. -/
def contentForms (cfg : Params) (v : Variant) : Bool :=
  (slots cfg v).all fun c =>
    match firstMatch cfg c.1 (cfg.rules v) with
    | some (_, e) => emissionForm cfg e
    | none => true

/-- The phase-0 field map of an emission. -/
def firstMap : Emission → FieldMap
  | .one m => m
  | .two m0 _ => m0

/-- The word at index 0 is a load (R157): the combination with every sub-field 0 is claimed, with MOE = 1, RIWE = 1
and IMM = 2. -/
def loadOk (cfg : Params) (rs : List Rule) : Bool :=
  match firstMatch cfg ⟨.A, 0, 0, 0, 0⟩ rs with
  | some (_, e) =>
    decide (fieldValue (firstMap e) .MOE = 1) && decide (fieldValue (firstMap e) .RIWE = 1) &&
      decide (fieldValue (firstMap e) .IMM = immOff7)
  | none => false

/-- A combination with an escape code: regA or regB is 6 or 7 (R89, R161). -/
def hasEscape (c : Combo) : Bool := decide (6 ≤ c.a.toNat) || decide (6 ≤ c.b.toNat)

/-- What R170 lets a model assume of `Content`: the forms of R158 and R159, the precedence of R161 at the combinations
with an escape code, and for the full variant the load of R157. -/
def contentOk (cfg : Params) (v : Variant) : Bool :=
  contentForms cfg v && ((slots cfg v).all fun c => !hasEscape c.1 || escapeFirst cfg (cfg.rules v) c.1) &&
    (decide (v = .mini) || loadOk cfg (cfg.rules v))

end Sys2Proof.Machine

namespace Sys2Proof

/-! ### The parameters after reset -/

/-- The parameters with no rules: the spec's defaults where R7 gives one, a free value where R7 says OPEN. -/
def Config.noContent : Params where
  schema     := defaultSchema
  layoutFull := defaultLayout
  layoutMini := Config.layoutMini
  opAdd      := Config.opAdd
  immM2      := Config.immM2.setWidth 4
  iaddrselPc := Config.iaddrselPc
  w16Word    := Config.w16Word
  trapWord   := defaultTrapWord Config.opAdd Config.immM2 Config.iaddrselPc
  pairStride := 6
  contentFull := []
  contentMini := []

/-- A content that meets the constraints of R170, taken only where the free one does not: the load of R157 at every
address of group 0 with an ordinary regB, in one word. It shows that the constraints can be met and is no claim about
the hardware (log 10). -/
def someContent : Content :=
  [⟨0, .A, 0, .plain, .le .regB (.const 5), none,
    .one [(.MOE, .const 1), (.RIWE, .const 1), (.IMM, .const 2), (.CRST, .const 1)]⟩]

/-- `Content` of the full variant: any that meets the constraints of R170 (log 10). -/
def Config.contentFull : Content :=
  if Machine.contentOk { Config.noContent with contentFull := Config.contentFullRaw } .full = true
  then Config.contentFullRaw else someContent

/-- `Content` of the mini variant: any that meets the constraints of R169 and R170 (log 10). -/
def Config.contentMini : Content :=
  if Machine.contentOk { Config.noContent with contentMini := Config.contentMiniRaw } .mini = true
  then Config.contentMiniRaw else []

/-- The parameters of the machine after reset (R7). -/
def Config.hardware : Params :=
  { Config.noContent with contentFull := Config.contentFull, contentMini := Config.contentMini }

end Sys2Proof
end

