-- ==== Sys2Proof/Machine/State.lean ====
section
/-! DEFINITION. The state of the control store as plain data, the faults and refusals of a step, and the state at the
start of generation. -/

namespace Sys2Proof.Machine

/-! ### The lifecycle (R22) -/

/-- The lifecycle stage (R22). -/
inductive Stage where
  | unallocated
  | allocated
  | filled
  | frozen
  deriving DecidableEq, Repr

/-- The operations that a stage can forbid with a fault (R181, R185). -/
inductive Operation where
  | alloc
  | fill
  | write1
  | write2
  | decodePass
  deriving DecidableEq, Repr

/-! ### Outcomes other than a next state -/

/-- The faults of R181, and the stuck state of U6. Each stops the machine with nothing written further (R10). -/
inductive Fault where
  /-- `SchemaInvalid` (R183): raised by SCHEMA_VALID of a schema that breaks a clause, and by PACK, DECODE_PASS and
  GENERATE under one. Safe (log 18, log 19). -/
  | schemaInvalid (clause : SchemaClause)
  /-- `PackRange` (R182): raised when a field value does not fit its width. Safe (D9). -/
  | packRange (f : Field) (v : Nat)
  /-- `DoubleClaim` (R184): raised by an override write to a claimed address. Safe (D15). -/
  | doubleClaim (a : Nat) (holder id : RuleId)
  /-- `StageViolation` (R185): raised by an operation outside its stage, and by WRITE2 with the phase bit set. Safe. -/
  | stageViolation (op : Operation) (stage : Stage)
  /-- The sequencer meets `CRST` = 0 at phase 1 and has no step (R28, U6). Safe (D14; log 25). -/
  | sequencerStuck (i : InstrBits)
  deriving DecidableEq, Repr

/-- Requests to which the spec gives no step. -/
inductive Refusal where
  /-- An instruction whose meaning is not written. No arm of the dispatch uses it. Safe. -/
  | notModelled (mnemonic : String)
  /-- A lookup or a serialisation before the table is frozen (R146, U5, D11). Safe. -/
  | notFrozen
  /-- A row of one variant on a table of the other: its address has another width (R41, D12). Safe (log 23). -/
  | wrongVariant
  /-- An operand that is no index of the table (D12), or for WRITE1 none with phase bit 0 (R138). Safe (log 22, log 23). -/
  | noSuchIndex
  /-- An address presented that is not the sequencer's next: R28 and R207 fix its phase, and while the sequencer is busy
  its instruction bits. The environment of the spec presents no other. Safe (log 37). -/
  | outOfSequence
  /-- PAIR_PACK outside its domain (R126, D18, U15). Safe. -/
  | pairDomain
  /-- An image of the wrong length for the variant (U22, U23, R210). Safe (log 26). -/
  | imageLength
  /-- An image load when the control store already has a table (R197). Safe. -/
  | controlStoreInUse
  /-- Bytes that are no request. Safe. -/
  | undecodable (e : DecodeError)
  deriving DecidableEq, Repr

/-! ### Parts of the state -/

/-- A sparse map from indices to values: strictly rising indices. -/
abbrev Cells (α : Type) := List (Nat × α)

/-- The phase sequencer of the environment (R28): the phase bit, the instruction bits last presented, and whether the
next lookup's address is already fixed (phase 1 of the same bits, or the same bits again after the trap word). -/
structure Sequencer where
  phase : Bit
  instr : InstrBits
  busy  : Bool
  deriving DecidableEq, Repr

/-- What the host may present between steps (R197): a request, an image to load into the control store (R210), a
reset of the CPU (R206, R207; log 27). -/
inductive Input where
  | request (bytes : List Byte)
  | loadImage (v : Variant) (big : Bool) (bytes : List Byte)
  | cpuReset
  deriving DecidableEq, Repr

/-- The value the last operation answered (log 24). -/
inductive Result where
  | none
  | done
  | word (w : Word)
  | value (v : Nat)
  | schema (valid : Bool)
  | index (x : BitVec 12)
  | indexMini (x : BitVec 9)
  | split (x : Split)
  | number (n : Nat)
  | pair (p : Option (Nat × Nat))
  | entry (w : Word) (formHolds : Bool)
  deriving DecidableEq, Repr

/-- The state of the block, of the environment's sequencer and of the host's side, with the parameters of R7.
`rom` lists the entries that differ from the trap word, by rising index (log 1, log 2). -/
structure State where
  cfg     : Params
  variant : Variant
  stage   : Stage
  rom     : Cells Word
  owner   : Option (Cells RuleId)
  cw      : Option Word
  seq     : Sequencer
  result  : Result
  image   : Option (List Byte)
  inputs  : List Input
  deriving DecidableEq, Repr

/-- The start of generation (R205, R34 first column) under given parameters. The variant, the instruction bits and the
result are DESIGN CHOICES nothing reads before they are set (log 14, log 24). -/
def State.resetWith (cfg : Params) : State where
  cfg     := cfg
  variant := .full
  stage   := .unallocated
  rom     := []
  owner   := none
  cw      := none
  seq     := { phase := 0, instr := 0, busy := false }
  result  := .none
  image   := none
  inputs  := []

/-- The machine after reset: the start of generation, with the parameters the spec decides or leaves free. -/
def State.reset : State := State.resetWith Config.hardware

/-! ### Updates -/

/-- Sets the answer of the last operation. -/
def State.setResult (s : State) (r : Result) : State := { s with result := r }

/-- Drives the port CW. -/
def State.setCw (s : State) (w : Word) : State := { s with cw := some w }

/-- Sets the sequencer. -/
def State.setSeq (s : State) (q : Sequencer) : State := { s with seq := q }

/-- Sets the lifecycle stage. -/
def State.setStage (s : State) (g : Stage) : State := { s with stage := g }

/-- Sets the table and its owner map. -/
def State.setTable (s : State) (rom : Cells Word) (owner : Option (Cells RuleId)) : State :=
  { s with rom := rom, owner := owner }

/-- Sets the variant of the table. -/
def State.setVariant (s : State) (v : Variant) : State := { s with variant := v }

/-- Sets the emitted image. -/
def State.setImage (s : State) (bytes : List Byte) : State := { s with image := some bytes }

/-- Sets the queue of inputs. -/
def State.setInputs (s : State) (q : List Input) : State := { s with inputs := q }

end Sys2Proof.Machine
end

