-- ==== Sys2Proof/Machine/Ops.lean ====
section
/-! DEFINITION. The named operations over the table, the sequencer and the image, which the meanings call. -/

namespace Sys2Proof.Machine

/-- The outcome of one step of this machine. -/
abbrev Outcome := Host.Outcome State Fault Refusal

/-- Goes on from a next state; a fault or a refusal ends the operation (R10). -/
def andThen (o : Outcome) (f : State → Outcome) : Outcome :=
  match o with
  | .next s => f s
  | .fault r => .fault r
  | .refused r => .refused r

/-! ### Sparse maps -/

/-- The value a sparse map lists at an index. -/
def cellAt {α : Type} : Cells α → Nat → Option α
  | [], _ => none
  | (b, v) :: m, a => if a = b then some v else cellAt m a

/-- Lists a value at an index, replacing the one it had. -/
def putCell {α : Type} : Cells α → Nat → α → Cells α
  | [], a, v => [(a, v)]
  | (b, u) :: m, a, v =>
    if a < b then (a, v) :: (b, u) :: m
    else if a = b then (a, v) :: m
    else (b, u) :: putCell m a v

/-- Unlists an index. -/
def dropCell {α : Type} : Cells α → Nat → Cells α
  | [], _ => []
  | (b, u) :: m, a => if a = b then m else (b, u) :: dropCell m a

/-- Every listed index is at least `lo`, and they rise strictly. -/
def risingFrom {α : Type} : Nat → Cells α → Bool
  | _, [] => true
  | lo, (b, _) :: m => decide (lo ≤ b) && risingFrom (b + 1) m

/-! ### The table (R21, R41) -/

/-- The word of an entry of a filled table: the listed one, the trap word at an unlisted index (log 2). -/
def readWord (trap : Word) (m : Cells Word) (a : Nat) : Word := (cellAt m a).getD trap

/-- Writes one whole word (R48), keeping the canonical form: the trap word is not listed. -/
def writeWord (trap : Word) (m : Cells Word) (a : Nat) (w : Word) : Cells Word :=
  if w = trap then dropCell m a else putCell m a w

/-- The canonical form of a table of `n` entries: rising indices below `n`, no listed trap word. -/
def tableWf (trap : Word) (n : Nat) (m : Cells Word) : Bool :=
  risingFrom 0 m && m.all fun c => decide (c.1 < n) && decide (c.2 ≠ trap)

/-- The canonical form of an owner map. -/
def ownersWf (n : Nat) (m : Cells RuleId) : Bool :=
  risingFrom 0 m && m.all fun c => decide (c.1 < n)

/-- The table's canonical form in a state (R41, log 1). -/
def Memory.wf (s : State) : Bool := tableWf s.cfg.trapWord s.variant.size s.rom

/-- Entry `a` of a state's filled or frozen table. -/
def romWord (s : State) (a : Nat) : Word := readWord s.cfg.trapWord s.rom a

/-- `rom[a]` at any stage: none where no such entry exists, a free value between ALLOC and FILL (R34, R136). -/
def entry (s : State) (a : Nat) : Option Word :=
  if a < s.variant.size then
    match s.stage with
    | .unallocated => none
    | .allocated => some (Config.unfilled a)
    | .filled => some (romWord s a)
    | .frozen => some (romWord s a)
  else none

/-- `owner[a]` (R23): none where no rule claimed the entry or no owner map exists. -/
def ownerOf (s : State) (a : Nat) : Option RuleId := cellAt (s.owner.getD []) a

/-- Writes an entry and marks it claimed by a rule (R138, R139). -/
def claim (s : State) (a : Nat) (w : Word) (id : RuleId) : State :=
  s.setTable (writeWord s.cfg.trapWord s.rom a w) (some (putCell (s.owner.getD []) a id))

/-! ### Construction (R136 to R143) -/

/-- ALLOC (R136): the table exists, its content unspecified. -/
def allocTable (v : Variant) (s : State) : Outcome :=
  if s.stage = .unallocated then .next (((s.setVariant v).setTable [] none).setStage .allocated)
  else .fault (.stageViolation .alloc s.stage)

/-- FILL (R137): the trap word in every entry, every owner none. -/
def fillTable (s : State) : Outcome :=
  if s.stage = .allocated then .next ((s.setTable [] (some [])).setStage .filled)
  else .fault (.stageViolation .fill s.stage)

/-- WRITE1 (R138), its index known to be one of phase 0. Any 32-bit word is stored, one that PACK cannot build too
(DESIGN CHOICE, log 36). -/
def writeOne (index : Nat) (w : Word) (id : RuleId) (s : State) : Outcome :=
  if s.stage = .filled then
    match ownerOf s index with
    | none => .next (claim s index w id)
    | some holder => .fault (.doubleClaim index holder id)
  else .fault (.stageViolation .write1 s.stage)

/-- WRITE2 (R139): the two micro-steps at `index` and `index + HALF`. Any 32-bit words are stored (DESIGN CHOICE,
log 36). -/
def writeTwo (index : Nat) (w0 w1 : Word) (id : RuleId) (s : State) : Outcome :=
  if s.stage = .filled ∧ index < s.variant.half then
    match ownerOf s index with
    | some holder => .fault (.doubleClaim index holder id)
    | none =>
      match ownerOf s (index + s.variant.half) with
      | some holder => .fault (.doubleClaim (index + s.variant.half) holder id)
      | none => .next (claim (claim s index w0 id) (index + s.variant.half) w1 id)
  else .fault (.stageViolation .write2 s.stage)

/-- One visit of the pass (R140): the first matching rule's words are packed and written; a combination no rule
matches keeps the trap word. Of two words out of range the first is named: R140 says no order of packing them (DESIGN
CHOICE, log 40). -/
def visit (s : State) (c : Combo × Nat) : Outcome :=
  match firstMatch s.cfg c.1 (s.cfg.rules s.variant) with
  | none => .next s
  | some (id, .one m) =>
    match pack s.cfg.schema m with
    | .ok w => writeOne c.2 w id s
    | .error (f, v) => .fault (.packRange f v)
  | some (id, .two m0 m1) =>
    match pack s.cfg.schema m0 with
    | .error (f, v) => .fault (.packRange f v)
    | .ok w0 =>
      match pack s.cfg.schema m1 with
      | .error (f, v) => .fault (.packRange f v)
      | .ok w1 => writeTwo c.2 w0 w1 id s

/-- The visits of the pass, one after another, up to the first fault. -/
def visitAll : List (Combo × Nat) → State → Outcome
  | [], s => .next s
  | c :: cs, s => andThen (visit s c) (visitAll cs)

/-- DECODE_PASS (R140) with its faults in the order of R190: the schema, the assertion of rule construction (R112), and
for each combination `PackRange`, then the `StageViolation` or `DoubleClaim` of its write. Outside the stage Filled the
first write raises `StageViolation`, and the pass itself raises it where it writes nothing or no table, hence no variant,
is there (log 19, log 21, log 32). It ends by freezing the table. -/
def decodeTable (s : State) : Outcome :=
  match schemaClause s.cfg.schema with
  | some c => .fault (.schemaInvalid c)
  | none =>
    if s.stage = .unallocated then .fault (.stageViolation .decodePass s.stage)
    else
      match contentRange s.cfg (s.cfg.rules s.variant) with
      | some (f, v) => .fault (.packRange f v)
      | none =>
        andThen (visitAll (slots s.cfg s.variant) s) fun t =>
          if t.stage = .filled then .next (t.setStage .frozen) else .fault (.stageViolation .decodePass t.stage)

/-- GENERATE (R143): the schema check, ALLOC, FILL, DECODE_PASS (log 19). -/
def generateTable (v : Variant) (s : State) : Outcome :=
  match schemaClause s.cfg.schema with
  | some c => .fault (.schemaInvalid c)
  | none => andThen (allocTable v s) fun s1 => andThen (fillTable s1) decodeTable

/-! ### Lookups (R146) -/

/-- The index of a lookup: the phase bit above the instruction bits (R83). -/
def portIndex (v : Variant) (p : Bit) (i : Nat) : Nat := p.toNat * v.half + i

/-- LOOKUP (R146): drives CW with the addressed entry and changes nothing else of the block. -/
def lookupAt (v : Variant) (p : Bit) (i : Nat) (s : State) : Outcome :=
  if s.stage = .frozen then
    if s.variant = v then
      let w := romWord s (portIndex v p i)
      .next ((s.setCw w).setResult (.word w))
    else .refused .wrongVariant
  else .refused .notFrozen

/-! ### The sequencer and the trap (R28, R156, R187 to R189) -/

/-- The trap entry, exactly (R188): nothing is saved, no table or mode changes; the word ends the instruction, and the
next fetch is of the same instruction at phase 0, forever (R156, R189, D27; log 16). -/
def takeTrap (i : InstrBits) (formHolds : Bool) (s : State) : State :=
  ((s.setCw s.cfg.trapWord).setSeq ⟨0, i, true⟩).setResult (.entry s.cfg.trapWord formHolds)

/-- The sequencer's step on a word that is not the trap word (R28): `CRST` = 1 ends the instruction and leaves the next
address to the environment; `CRST` = 0 at phase 0 fixes phase 1 of the same instruction; at phase 1 there is no step.
Under a schema that gives CRST more than one bit, every value but 1 is taken as 0 (DESIGN CHOICE, log 34). -/
def sequence (p : Bit) (i : InstrBits) (w : Word) (formHolds : Bool) (s : State) : Outcome :=
  if lineOn s.cfg.schema w .CRST then
    .next (((s.setCw w).setSeq ⟨0, i, false⟩).setResult (.entry w formHolds))
  else if p = 0 then
    .next (((s.setCw w).setSeq ⟨1, i, true⟩).setResult (.entry w formHolds))
  else .fault (.sequencerStuck i)

/-- An address is the sequencer's next (R28, R168, R207): phase 0 of any instruction bits when an instruction starts
fresh, and the fixed phase and bits while the sequencer is busy. -/
def isNextAddress (s : State) (p : Bit) (i : InstrBits) : Bool :=
  if s.seq.busy then decide (p = s.seq.phase) && decide (i = s.seq.instr) else decide (p = 0)

/-- The environment presents an address, which must be the sequencer's next, looks the entry up and takes the
sequencer's step (R28, R168; log 37). -/
def present (p : Bit) (i : InstrBits) (formHolds : Bool) (s : State) : Outcome :=
  if s.stage = .frozen then
    if i.toNat < s.variant.half then
      if isNextAddress s p i then
        match cellAt s.rom (portIndex s.variant p i.toNat) with
        | none => .next (takeTrap i formHolds s)
        | some w => if w = s.cfg.trapWord then .next (takeTrap i formHolds s) else sequence p i w formHolds s
      else .refused .outOfSequence
    else .refused .noSuchIndex
  else .refused .notFrozen

/-- `present` for a row of one variant. -/
def presentIn (v : Variant) (p : Bit) (i : InstrBits) (formHolds : Bool) (s : State) : Outcome :=
  if s.stage = .frozen then
    if s.variant = v then present p i formHolds s else .refused .wrongVariant
  else .refused .notFrozen

/-- The phase bit of a 12-bit address. -/
def phaseOf (x : BitVec 12) : Bit := x.extractLsb' 11 1

/-- The instruction bits of a 12-bit address. -/
def instrOf (x : BitVec 12) : InstrBits := x.setWidth 11

/-- The lookup the busy sequencer makes next, as an instruction: the second word of a two-phase instruction, or the
trap word's entry again (R28, R156). -/
def pendingLookup (s : State) : Instr :=
  if s.seq.phase = 1 then .twoWordSecond s.seq.instr
  else
    match s.variant with
    | .full => .trap 0 s.seq.instr
    | .mini => .trapMini 0 (s.seq.instr.setWidth 8)

/-! ### The image (R43 to R45, R148) -/

/-- The four bytes of a word in the image (R44). -/
def wordBytes (big : Bool) (w : Word) : List Byte :=
  let le := [w.extractLsb' 0 8, w.extractLsb' 8 8, w.extractLsb' 16 8, w.extractLsb' 24 8]
  if big then le.reverse else le

/-- The image of a table (R43, R148): the words in address order. -/
def imageOf (big : Bool) (s : State) : List Byte :=
  (List.range s.variant.size).flatMap fun a => wordBytes big (romWord s a)

/-- SERIALIZE (R148). -/
def serializeTable (big : Bool) (s : State) : Outcome :=
  if s.stage = .frozen then .next ((s.setImage (imageOf big s)).setResult .done) else .refused .notFrozen

/-- The words of an image, four bytes each (R210). -/
def imageWords (big : Bool) : List Byte → List Word
  | b0 :: b1 :: b2 :: b3 :: rest =>
    (if big then wordOfBytes b3 b2 b1 b0 else wordOfBytes b0 b1 b2 b3) :: imageWords big rest
  | _ => []

/-- The table of a list of words, the first at index `a`. -/
def tableOfWords (trap : Word) : Nat → List Word → Cells Word
  | _, [] => []
  | a, w :: ws => if w = trap then tableOfWords trap (a + 1) ws else (a, w) :: tableOfWords trap (a + 1) ws

/-! ### Moves of the host (R197) -/

/-- Loading an image into a control store that has no table (R197, R210): the finished table, without owner map
(R34). The bytes must be exactly those of the variant (R43, U22, U23). -/
def loadImage (v : Variant) (big : Bool) (bytes : List Byte) (s : State) : Outcome :=
  if s.stage = .unallocated then
    if bytes.length = 4 * v.size then
      .next (((s.setVariant v).setTable (tableOfWords s.cfg.trapWord 0 (imageWords big bytes)) none).setStage .frozen)
    else .refused .imageLength
  else .refused .controlStoreInUse

/-- A reset of the CPU (R206, R207, second column of R34): the finished table keeps its content and has no owner map; the
next lookup is the first of an instruction, at phase 0, with instruction bits from the environment (log 27). -/
def cpuReset (s : State) : State :=
  let s1 := s.setSeq ⟨0, s.seq.instr, false⟩
  if s.stage = .frozen then s1.setTable s1.rom none else s1

/-- The sequencer for which a request's bytes are the next lookup: bytes that are an address at phase 1 need one that
waits there, every other request an idle one. -/
def seqFor (bytes : List Byte) (i : InstrBits) : Sequencer :=
  match bytes with
  | [b0, b1] =>
    let x : BitVec 12 := (wordOfBytes b0 b1 0 0).setWidth 12
    if phaseOf x = 1 then ⟨1, instrOf x, true⟩ else ⟨0, i, false⟩
  | _ => ⟨0, i, false⟩

/-- Puts the bytes of a request at the head of the inputs. Bytes that are an address on the lookup port need a finished
full table: where there is none, one is loaded from outside, its entries the trap word (log 13). -/
def offer (bytes : List Byte) (s : State) : State :=
  let s1 := (s.setSeq (seqFor bytes s.seq.instr)).setInputs (.request bytes :: s.inputs)
  if bytes.length = 2 ∧ ¬(s.stage = .frozen ∧ s.variant = .full) then
    ((s1.setVariant .full).setTable [] none).setStage .frozen
  else s1

end Sys2Proof.Machine
end

