-- ==== Sys2Proof/Machine/Address.lean ====
section
/-! DEFINITION. The address and pair rows: INDEXA, INDEXB, SPLIT, INDEX_MINI, PAIR_PACK, PAIR_UNPACK (R120 to R131).
Pure functions of their operands and of the parameters; their answer is the model's field `result`. -/

namespace Sys2Proof.Machine

/-- INDEXA (R121). -/
def execIndexA (p : Bit) (g a b : Sub3) (q : Bit) (s : State) : Host.Outcome State Fault Refusal :=
  .next (s.setResult (.index (indexA s.cfg.layoutFull p g a b q)))

/-- INDEXB (R122). -/
def execIndexB (p : Bit) (a sub b : Sub3) (q : Bit) (s : State) : Host.Outcome State Fault Refusal :=
  .next (s.setResult (.index (indexB s.cfg.layoutFull p a sub b q)))

/-- SPLIT (R123). -/
def execSplit (x : BitVec 12) (s : State) : Host.Outcome State Fault Refusal :=
  .next (s.setResult (.split (split s.cfg.layoutFull x)))

/-- INDEX_MINI (R130). -/
def execIndexMini (p : Bit) (i : BitVec 8) (s : State) : Host.Outcome State Fault Refusal :=
  .next (s.setResult (.indexMini (indexMini p i)))

/-- PAIR_PACK (R126): refused outside its domain (D18). -/
def execPairPack (base operand : Sub3) (s : State) : Host.Outcome State Fault Refusal :=
  match pairPack s.cfg.pairStride base.toNat operand.toNat with
  | some n => .next (s.setResult (.number n))
  | none => .refused .pairDomain

/-- PAIR_UNPACK (R127): `none` is an answer, not a fault. -/
def execPairUnpack (pair : Nat) (s : State) : Host.Outcome State Fault Refusal :=
  .next (s.setResult (.pair (pairUnpack s.cfg.pairStride pair)))

end Sys2Proof.Machine
end

