-- ==== Sys2Proof/Machine/Packer.lean ====
section
/-! DEFINITION. The packer's rows: PACK, EXTRACT, SCHEMA_VALID (R111 to R116). They read no state but the parameter
`Schema` and write none (R110); their answer is the model's field `result`. -/

namespace Sys2Proof.Machine

/-- PACK (R111): the packed word, or `PackRange` (R112); under a schema that fails the check, `SchemaInvalid` (R183). -/
def execPack (fields : FieldMap) (s : State) : Host.Outcome State Fault Refusal :=
  match schemaClause s.cfg.schema with
  | some c => .fault (.schemaInvalid c)
  | none =>
    match pack s.cfg.schema fields with
    | .ok w => .next (s.setResult (.word w))
    | .error (f, v) => .fault (.packRange f v)

/-- EXTRACT (R113): total on every word and field. -/
def execExtract (w : Word) (f : Field) (s : State) : Host.Outcome State Fault Refusal :=
  .next (s.setResult (.value (extract s.cfg.schema w f)))

/-- SCHEMA_VALID (R115): true exactly when the four clauses of R82 hold. A schema that breaks one is rejected with
`SchemaInvalid` and the first broken clause (R181, R183; log 18). -/
def execSchemaValid (S : Schema) (s : State) : Host.Outcome State Fault Refusal :=
  match schemaClause S with
  | none => .next (s.setResult (.schema true))
  | some c => .fault (.schemaInvalid c)

end Sys2Proof.Machine
end

