-- ==== Sys2Proof/Machine/RomArray.lean ====
section
/-! DEFINITION. The ROM array's rows: ALLOC, FILL, WRITE1, WRITE2, DECODE_PASS, GENERATE, LOOKUP, LOOKUP_MINI, SERIALIZE
(R135 to R150). -/

namespace Sys2Proof.Machine

/-- Answers that a construction step is done. -/
def done (o : Host.Outcome State Fault Refusal) : Host.Outcome State Fault Refusal :=
  andThen o fun s => .next (s.setResult .done)

/-- ALLOC (R136). -/
def execAlloc (v : Variant) (s : State) : Host.Outcome State Fault Refusal := done (allocTable v s)

/-- FILL (R137). -/
def execFill (s : State) : Host.Outcome State Fault Refusal := done (fillTable s)

/-- WRITE1 (R138): its index has phase bit 0, so it is below HALF; any other operand is none of the row's (log 22). The
word is not checked to be one that PACK can build (log 36). -/
def execWrite1 (index : BitVec 12) (w : Word) (id : RuleId) (s : State) : Host.Outcome State Fault Refusal :=
  if s.stage = .filled ∧ ¬ index.toNat < s.variant.half then .refused .noSuchIndex
  else done (writeOne index.toNat w id s)

/-- WRITE2 (R139). The words are not checked to be ones that PACK can build (log 36). -/
def execWrite2 (index : BitVec 12) (w0 w1 : Word) (id : RuleId) (s : State) : Host.Outcome State Fault Refusal :=
  done (writeTwo index.toNat w0 w1 id s)

/-- DECODE_PASS (R140). -/
def execDecodePass (s : State) : Host.Outcome State Fault Refusal := done (decodeTable s)

/-- GENERATE (R143). -/
def execGenerate (v : Variant) (s : State) : Host.Outcome State Fault Refusal := done (generateTable v s)

/-- LOOKUP (R146), full variant. -/
def execLookup (p : Bit) (i : InstrBits) (s : State) : Host.Outcome State Fault Refusal :=
  lookupAt .full p i.toNat s

/-- LOOKUP_MINI (R146), mini variant. -/
def execLookupMini (p : Bit) (i : BitVec 8) (s : State) : Host.Outcome State Fault Refusal :=
  lookupAt .mini p i.toNat s

/-- SERIALIZE (R148). -/
def execSerialize (big : Bool) (s : State) : Host.Outcome State Fault Refusal := serializeTable big s

end Sys2Proof.Machine
end

