-- ==== Sys2Proof/Machine/RomContent.lean ====
section
/-! DEFINITION. The rows that are ROM entries and entry forms (R94, R154 to R170). The meaning of such a row: the
environment presents an address of the row, the entry there is looked up and the sequencer takes its step (R28,
R168). The answer carries the word and whether the entry has the form the row states; the block checks no form
(R158), so a table that breaks one runs all the same (log 17). -/

namespace Sys2Proof.Machine

/-- The entry is the trap word (R155). -/
def holdsTrap (s : State) (a : Nat) : Bool := decide (romWord s a = s.cfg.trapWord)

/-- The three fields the source states of the load (R157). -/
def holdsLoad (s : State) (a : Nat) : Bool :=
  lineOn s.cfg.schema (romWord s a) .MOE && lineOn s.cfg.schema (romWord s a) .RIWE &&
    decide (extract s.cfg.schema (romWord s a) .IMM = immOff7)

/-- A single-phase instruction's word: `CRST` = 1, nothing at `index + HALF` (R158). -/
def holdsOne (s : State) (a : Nat) : Bool :=
  lineOn s.cfg.schema (romWord s a) .CRST && holdsTrap s (a + s.variant.half)

/-- The first word of a two-phase instruction: `CRST` = 0 and not the trap word (R159). -/
def holdsFirst (s : State) (a : Nat) : Bool :=
  decide (extract s.cfg.schema (romWord s a) .CRST = 0) && !holdsTrap s a

/-- The second word of a two-phase instruction: `CRST` = 1 and not the trap word (R159). -/
def holdsSecond (s : State) (a : Nat) : Bool :=
  lineOn s.cfg.schema (romWord s a) .CRST && !holdsTrap s a

/-- Escape precedence for the combination of an address (R161; log 30). -/
def holdsEscape (s : State) (x : BitVec 12) : Bool :=
  escapeFirst s.cfg (s.cfg.rules .full) (split s.cfg.layoutFull x).combo

/-- Presents a 12-bit address of the full variant. -/
def presentAddr (x : BitVec 12) (formHolds : Bool) (s : State) : Host.Outcome State Fault Refusal :=
  presentIn .full (phaseOf x) (instrOf x) formHolds s

/-- TRAP (R155), full variant. -/
def execTrap (p : Bit) (i : InstrBits) (s : State) : Host.Outcome State Fault Refusal :=
  presentIn .full p i (holdsTrap s (portIndex .full p i.toNat)) s

/-- TRAP_MINI (R155), mini variant. -/
def execTrapMini (p : Bit) (i : BitVec 8) (s : State) : Host.Outcome State Fault Refusal :=
  presentIn .mini p (i.setWidth 11) (holdsTrap s (portIndex .mini p i.toNat)) s

/-- LD_G0 (R157): the address with every sub-field 0. -/
def execLdG0 (s : State) : Host.Outcome State Fault Refusal := presentAddr 0 (holdsLoad s 0) s

/-- LD_G0_REF (R157, D24). -/
def execLdG0Ref (a b : Sub3) (q : Bit) (s : State) : Host.Outcome State Fault Refusal :=
  presentAddr (addrA 0 0 a b q) (holdsLoad s (addrA 0 0 a b q).toNat) s

/-- ONE_WORD (R158), either variant. -/
def execOneWord (i : InstrBits) (s : State) : Host.Outcome State Fault Refusal :=
  present 0 i (holdsOne s i.toNat) s

/-- TWO_WORD_FIRST (R159), either variant. -/
def execTwoWordFirst (i : InstrBits) (s : State) : Host.Outcome State Fault Refusal :=
  present 0 i (holdsFirst s i.toNat) s

/-- TWO_WORD_SECOND (R159), either variant. -/
def execTwoWordSecond (i : InstrBits) (s : State) : Host.Outcome State Fault Refusal :=
  present 1 i (holdsSecond s (portIndex s.variant 1 i.toNat)) s

/-- The address of the row ESC_REGB: `0fuuuvvv11eq`. -/
def escRegBAddr (f : Bit) (u v : Sub3) (e : Bit) (q : Bit) : BitVec 12 := 0#1 ++ f ++ u ++ v ++ 3#2 ++ e ++ q

/-- The address of the row ESC_REGA_A: `00ggg11ebbbq`. -/
def escRegAAAddr (g : Sub3) (e : Bit) (b : Sub3) (q : Bit) : BitVec 12 := 0#2 ++ g ++ 3#2 ++ e ++ b ++ q

/-- The address of the row ESC_REGA_B: `0111esssbbbq`. -/
def escRegABAddr (e : Bit) (sub b : Sub3) (q : Bit) : BitVec 12 := 7#4 ++ e ++ sub ++ b ++ q

/-- ESC_REGB (R161). -/
def execEscRegB (f : Bit) (u v : Sub3) (e : Bit) (q : Bit) (s : State) : Host.Outcome State Fault Refusal :=
  presentAddr (escRegBAddr f u v e q) (holdsEscape s (escRegBAddr f u v e q)) s

/-- ESC_REGA_A (R161). -/
def execEscRegAA (g : Sub3) (e : Bit) (b : Sub3) (q : Bit) (s : State) : Host.Outcome State Fault Refusal :=
  presentAddr (escRegAAAddr g e b q) (holdsEscape s (escRegAAAddr g e b q)) s

/-- ESC_REGA_B (R161). -/
def execEscRegAB (e : Bit) (sub b : Sub3) (q : Bit) (s : State) : Host.Outcome State Fault Refusal :=
  presentAddr (escRegABAddr e sub b q) (holdsEscape s (escRegABAddr e sub b q)) s

/-- A_GROUP7 (R94): whether a rule claims the entry is `Content`'s; the answer says whether it holds the trap word. -/
def execAGroup7 (p : Bit) (a b : Sub3) (q : Bit) (s : State) : Host.Outcome State Fault Refusal :=
  presentAddr (addrA p 7 a b q) (holdsTrap s (addrA p 7 a b q).toNat) s

/-- The entry rows whose address has the 12 bits of the full variant. -/
def isEntryRow12 : Instr → Bool
  | .trap _ _ => true
  | .ldG0 => true
  | .ldG0Ref _ _ _ => true
  | .oneWord _ => true
  | .twoWordFirst _ => true
  | .twoWordSecond _ => true
  | .escRegB _ _ _ _ _ => true
  | .escRegAA _ _ _ _ => true
  | .escRegAB _ _ _ _ => true
  | .aGroup7 _ _ _ _ => true
  | _ => false

/-- The phase and the instruction bits an entry row presents on a table of a variant: those of its word; none for a row
that presents no address of that variant. -/
def presents (v : Variant) : Instr → Option (Bit × InstrBits)
  | .oneWord i => some (0, i)
  | .twoWordFirst i => some (0, i)
  | .twoWordSecond i => some (1, i)
  | .trapMini p i => if v = .mini then some (p, i.setWidth 11) else none
  | i =>
    if v = .full ∧ isEntryRow12 i = true then
      some (phaseOf ((rowWord i).setWidth 12), instrOf ((rowWord i).setWidth 12))
    else none

end Sys2Proof.Machine
end

