-- ==== Sys2Proof/Machine/Dispatch.lean ====
section
/-! DEFINITION. One arm per row of the opcode table. -/

namespace Sys2Proof.Machine

def exec (i : Instr) (s : State) : Host.Outcome State Fault Refusal :=
  match i with
  | .pack fields => Sys2Proof.Machine.execPack fields s
  | .extract w f => Sys2Proof.Machine.execExtract w f s
  | .schemaValid S => Sys2Proof.Machine.execSchemaValid S s
  | .indexA p g a b q => Sys2Proof.Machine.execIndexA p g a b q s
  | .indexB p a sub b q => Sys2Proof.Machine.execIndexB p a sub b q s
  | .split x => Sys2Proof.Machine.execSplit x s
  | .indexMini p j => Sys2Proof.Machine.execIndexMini p j s
  | .pairPack base operand => Sys2Proof.Machine.execPairPack base operand s
  | .pairUnpack pair => Sys2Proof.Machine.execPairUnpack pair s
  | .alloc v => Sys2Proof.Machine.execAlloc v s
  | .fill => Sys2Proof.Machine.execFill s
  | .write1 index w id => Sys2Proof.Machine.execWrite1 index w id s
  | .write2 index w0 w1 id => Sys2Proof.Machine.execWrite2 index w0 w1 id s
  | .decodePass => Sys2Proof.Machine.execDecodePass s
  | .generate v => Sys2Proof.Machine.execGenerate v s
  | .lookup p j => Sys2Proof.Machine.execLookup p j s
  | .lookupMini p j => Sys2Proof.Machine.execLookupMini p j s
  | .serialize big => Sys2Proof.Machine.execSerialize big s
  | .trap p j => Sys2Proof.Machine.execTrap p j s
  | .trapMini p j => Sys2Proof.Machine.execTrapMini p j s
  | .ldG0 => Sys2Proof.Machine.execLdG0 s
  | .ldG0Ref a b q => Sys2Proof.Machine.execLdG0Ref a b q s
  | .oneWord j => Sys2Proof.Machine.execOneWord j s
  | .twoWordFirst j => Sys2Proof.Machine.execTwoWordFirst j s
  | .twoWordSecond j => Sys2Proof.Machine.execTwoWordSecond j s
  | .escRegB f u v e q => Sys2Proof.Machine.execEscRegB f u v e q s
  | .escRegAA g e b q => Sys2Proof.Machine.execEscRegAA g e b q s
  | .escRegAB e sub b q => Sys2Proof.Machine.execEscRegAB e sub b q s
  | .aGroup7 p a b q => Sys2Proof.Machine.execAGroup7 p a b q s

end Sys2Proof.Machine
end

