-- ==== Sys2Proof/Machine/Fetch.lean ====
section
/-! DEFINITION. What the machine does next: run an instruction, or make a move of the host that is none. -/

namespace Sys2Proof.Machine

/-- What comes next: an instruction with the state it runs in, or an outcome already known. -/
inductive Next where
  | run (i : Instr) (s : State)
  | move (o : Host.Outcome State Fault Refusal)

/-- The instruction of a request, where it is a row that presents the very address the busy sequencer looks up next. -/
def namedLookup (s : State) (bytes : List Byte) : Option Instr :=
  match decode bytes with
  | .ok i => if presents s.variant i = some (s.seq.phase, s.seq.instr) then some i else none
  | .error _ => none

/-- The next move. A CPU reset is taken at once (R207). A busy sequencer makes its lookup (R28: the transition is always
taken), as the row the oldest request names it by if that request presents the same address; otherwise the oldest input
is taken; with none, nothing happens (log 15, log 28). -/
def fetch (s : State) : Next :=
  match s.inputs with
  | .cpuReset :: rest => .move (.next (cpuReset (s.setInputs rest)))
  | [] => if s.seq.busy then .run (pendingLookup s) s else .move (.next s)
  | .loadImage v big bytes :: rest =>
    if s.seq.busy then .run (pendingLookup s) s else .move (loadImage v big bytes (s.setInputs rest))
  | .request bytes :: rest =>
    if s.seq.busy then
      match namedLookup s bytes with
      | some i => .run i (s.setInputs rest)
      | none => .run (pendingLookup s) s
    else
      match decode bytes with
      | .ok i => .run i (s.setInputs rest)
      | .error e => .move (.refused (.undecodable e))

end Sys2Proof.Machine
end

