-- ==== Sys2Proof/Machine/Step.lean ====
section
/-! DEFINITION. One step of the machine. -/

namespace Sys2Proof.Machine

/-- One operation of one agent, one lookup of the sequencer, or one move of the host. -/
def step (s : State) : Host.Outcome State Fault Refusal :=
  match fetch s with
  | .run i t => exec i t
  | .move o => o

/-- The state whose very next step runs the instruction of a word of the opcode table (log 13). -/
def State.withFetchWord (s : State) (nbits w : Nat) : State := offer (leBytes (nbits / 8) w) s

end Sys2Proof.Machine
end

