-- ==== Sys2Proof/Safety.lean ====
section
/-! DEFINITION. What counts as a safe machine, in the terms the statements use: the constraints on the parameters (R7),
the invariant of the lifecycle, the well-formed table (R167), and the entry a rule claims (R145). -/

namespace Sys2Proof.Machine

/-! ### The content -/

/-- Every field map of an emission packs (R112). -/
def emissionPacks (cfg : Params) : Emission → Bool
  | .one m => (pack cfg.schema m).isOk
  | .two m0 m1 => (pack cfg.schema m0).isOk && (pack cfg.schema m1).isOk

/-- No word of the content is out of range (R112): the values fixed when a rule is written, and those of every
combination it is taken for. -/
def contentPacks (cfg : Params) (v : Variant) : Bool :=
  (contentRange cfg (cfg.rules v)).isNone &&
    (slots cfg v).all fun c =>
      match firstMatch cfg c.1 (cfg.rules v) with
      | some (_, e) => emissionPacks cfg e
      | none => true

/-! ### The table -/

/-- The templates of an emission. -/
def templatesOf : Emit → List Template
  | .one t => [t]
  | .two t0 t1 => [t0, t1]

/-- A rule of a list fixes a value of a field that does not fit it (R112): a template lists the field with a number, or
with a named code, of at least 2 to the field's width. -/
def fixedOutOfRange (cfg : Params) (rs : List Rule) (f : Field) (n : Nat) : Prop :=
  ∃ r ∈ rs, ∃ t ∈ templatesOf r.emit, ∃ x, (f, x) ∈ t ∧ (∃ e ∈ cfg.schema, e.field = f ∧ 2 ^ e.width ≤ n) ∧
    (x = .const n ∨ (x = .opAdd ∧ n = cfg.opAdd.toNat) ∨ (x = .immM2 ∧ n = cfg.immM2.toNat) ∨
      (x = .iaddrselPc ∧ n = cfg.iaddrselPc.toNat))

/-- Each of the 21 fields is named exactly once (R82, first clause). -/
def namedOnce (S : Schema) : Prop := ∀ f, (S.filter fun e => e.field = f).length = 1

/-- Each entry has a width of 1 to 4 and ends inside the word (R82, second and fourth clause). -/
def insideWord (S : Schema) : Prop := ∀ e ∈ S, 1 ≤ e.width ∧ e.width ≤ 4 ∧ e.offset + e.width ≤ 32

/-- What a recorded clause says of a schema (R82, R181): the field it names is missing or repeated, has a width outside 1
to 4, or ends outside the word, or the two fields it names share a bit. The clauses stand in the order of R115: names,
then widths and ends, then overlaps (log 18). -/
def clauseBroken (S : Schema) : SchemaClause → Prop
  | .missing f => (S.filter fun e => e.field = f).length = 0
  | .repeated f => 1 < (S.filter fun e => e.field = f).length
  | .width f => namedOnce S ∧ ∃ e ∈ S, e.field = f ∧ (e.width = 0 ∨ 4 < e.width)
  | .outside f => namedOnce S ∧ ∃ e ∈ S, e.field = f ∧ 32 < e.offset + e.width
  | .overlap f g => namedOnce S ∧ insideWord S ∧
      ∃ before e mid d after, S = before ++ e :: mid ++ d :: after ∧ e.field = f ∧ d.field = g ∧
        rangesApart e.offset e.width d.offset d.width = false

/-- The rule that claims an address of the full variant and the field map of its word there (R145): the first rule
that matches the combination SPLIT names, its first or only word at phase 0, its second at phase 1. -/
def claimAt (cfg : Params) (x : BitVec 12) : Option (RuleId × FieldMap) :=
  match firstMatch cfg (split cfg.layoutFull x).combo (cfg.rules .full) with
  | none => none
  | some (id, .one m) => if phaseOf x = 0 then some (id, m) else none
  | some (id, .two m0 m1) => if phaseOf x = 0 then some (id, m0) else some (id, m1)

/-- A slot of the table holds what the pass puts there (R140, R145): the words and the identity of the first matching
rule, and the unclaimed trap word elsewhere in its two phase slots. -/
def slotHolds (s : State) (c : Combo × Nat) : Prop :=
  match firstMatch s.cfg c.1 (s.cfg.rules s.variant) with
  | none =>
    ownerOf s c.2 = none ∧ romWord s c.2 = s.cfg.trapWord ∧
    ownerOf s (c.2 + s.variant.half) = none ∧ romWord s (c.2 + s.variant.half) = s.cfg.trapWord
  | some (id, .one m) =>
    ownerOf s c.2 = some id ∧ pack s.cfg.schema m = .ok (romWord s c.2) ∧
    ownerOf s (c.2 + s.variant.half) = none ∧ romWord s (c.2 + s.variant.half) = s.cfg.trapWord
  | some (id, .two m0 m1) =>
    ownerOf s c.2 = some id ∧ pack s.cfg.schema m0 = .ok (romWord s c.2) ∧
    ownerOf s (c.2 + s.variant.half) = some id ∧ pack s.cfg.schema m1 = .ok (romWord s (c.2 + s.variant.half))

/-- `CRST` of an entry. -/
def crstOf (s : State) (a : Nat) : Nat := extract s.cfg.schema (romWord s a) .CRST

/-- The well-formed table (R167): (a) every phase-1 entry has `CRST` = 1; (b) a phase-0 entry with `CRST` = 0 has a
claimed partner; (c) a claimed phase-0 entry whose partner is unclaimed, that is one a `One` rule wrote, has
`CRST` = 1. -/
def tableWellFormed (s : State) : Prop :=
  ∀ a, a < s.variant.half →
    crstOf s (a + s.variant.half) = 1 ∧
    (crstOf s a = 0 → (ownerOf s (a + s.variant.half)).isSome = true) ∧
    ((ownerOf s a).isSome = true → ownerOf s (a + s.variant.half) = none → crstOf s a = 1)

/-! ### The invariant of the lifecycle -/

/-- What the table and the owner map are in each stage (R34, R136, R137): nothing is listed before the fill, an owner
map exists while the table is filled. -/
def stageShape (s : State) : Bool :=
  match s.stage with
  | .unallocated => s.rom.isEmpty && s.owner.isNone
  | .allocated => s.rom.isEmpty && s.owner.isNone
  | .filled => s.owner.isSome
  | .frozen => true

/-- An entry that differs from the trap word is claimed, where an owner map exists (R150). -/
def claimedOrTrap (s : State) : Bool :=
  match s.owner with
  | none => true
  | some m => ownersWf s.variant.size m && s.rom.all fun c => (cellAt m c.1).isSome

/-- The sequencer (R28): it is busy only on a finished table and at an address of it, and at phase 1 it is busy. -/
def seqShape (s : State) : Bool :=
  (decide (s.seq.phase = 0) || s.seq.busy) &&
  (!s.seq.busy || (decide (s.stage = .frozen) && decide (s.seq.instr.toNat < s.variant.half)))

/-- CW is driven (log 31) and an image is emitted only from a finished table (R34, R146, R148). -/
def outputShape (s : State) : Bool := decide (s.stage = .frozen) || (s.cw.isNone && s.image.isNone)

/-- The invariant every step keeps. -/
def LifecycleInv (s : State) : Prop :=
  Memory.wf s = true ∧ stageShape s = true ∧ claimedOrTrap s = true ∧ seqShape s = true ∧ outputShape s = true

/-- The order of the stages (R22). -/
def stageRank : Stage → Nat
  | .unallocated => 0
  | .allocated => 1
  | .filled => 2
  | .frozen => 3

/-! ### Rows -/

/-- The rows that are functions of their operands and of the parameters: they read and write no table (R110, R120). -/
def isPureRow : Instr → Bool
  | .pack _ => true
  | .extract _ _ => true
  | .schemaValid _ => true
  | .indexA _ _ _ _ _ => true
  | .indexB _ _ _ _ _ => true
  | .split _ => true
  | .indexMini _ _ => true
  | .pairPack _ _ => true
  | .pairUnpack _ => true
  | _ => false

/-- No CPU reset is among the inputs. -/
def noReset (s : State) : Bool := s.inputs.all fun x => x ≠ .cpuReset

/-- The oldest input is a request for a row that presents the address the busy sequencer looks up next. -/
def namesNext (s : State) : Bool :=
  match s.inputs with
  | .request bytes :: _ => (namedLookup s bytes).isSome
  | _ => false

/-- A CPU reset is not the next input. -/
def noResetNext (s : State) : Bool :=
  match s.inputs with
  | .cpuReset :: _ => false
  | _ => true

end Sys2Proof.Machine
end

