-- ==== Sys2Proof/Certificates/Slice0/Obligations.lean ====
section
/-! DEFINITION. The statements for the provers. A statement about every state is about every value of the parameters
of R7, which a state carries; `State.reset` has free values where R7 says OPEN. -/

open Sys2Proof Sys2Proof.Machine

/-! ### The packer -/

/-- R114: packing in-range values and extracting each field gives the value back (0 for an absent field), under every
valid schema; where the fields cover every bit, packing the extracted fields gives the word back; the default schema
is such a schema. -/
def Obligations.PackThenExtractReturnsEachField : Prop :=
  (∀ (s : State) (m : FieldMap), schemaOk s.cfg.schema = true →
    (∀ f, fieldValue m f < 2 ^ widthIn s.cfg.schema f) →
    ∃ w, exec (.pack m) s = .next (s.setResult (.word w)) ∧
      ∀ f, exec (.extract w f) s = .next (s.setResult (.value (fieldValue m f)))) ∧
  (∀ (s : State) (w : Word), schemaOk s.cfg.schema = true →
    (∀ k, k < 32 → ∃ e ∈ s.cfg.schema, e.offset ≤ k ∧ k < e.offset + e.width) →
    exec (.pack (Field.all.map fun f => (f, extract s.cfg.schema w f))) s = .next (s.setResult (.word w))) ∧
  (∀ (s : State) (w : Word), s.cfg.schema = defaultSchema →
    exec (.pack (Field.all.map fun f => (f, extract s.cfg.schema w f))) s = .next (s.setResult (.word w)))

/-- R111: each field's value stands at the field's bits and every bit no field covers is 0; nothing but the answer
changes. -/
def Obligations.PackPlacesValuesAndClearsTheRest : Prop :=
  ∀ (s : State) (m : FieldMap), schemaOk s.cfg.schema = true →
    (∀ e ∈ s.cfg.schema, fieldValue m e.field < 2 ^ e.width) →
    ∃ w, exec (.pack m) s = .next (s.setResult (.word w)) ∧
      (∀ e ∈ s.cfg.schema, ∀ j, j < e.width → w.getLsbD (e.offset + j) = (fieldValue m e.field).testBit j) ∧
      (∀ k, (∀ e ∈ s.cfg.schema, ¬(e.offset ≤ k ∧ k < e.offset + e.width)) → w.getLsbD k = false)

/-- R182 (order: log 20): a value that does not fit its field raises `PackRange` with the field and the value, those
of the first such field of the schema; no word is produced. -/
def Obligations.PackRangeNamesFieldAndValue : Prop :=
  ∀ (s : State) (m : FieldMap) (before after : Schema) (e : FieldSpec),
    schemaOk s.cfg.schema = true → s.cfg.schema = before ++ e :: after →
    (∀ d ∈ before, fieldValue m d.field < 2 ^ d.width) → 2 ^ e.width ≤ fieldValue m e.field →
    exec (.pack m) s = .fault (.packRange e.field (fieldValue m e.field))

/-- R113: EXTRACT answers the bits of the word at the field's offset and width, on every word and field. -/
def Obligations.ExtractReadsTheFieldsBits : Prop :=
  ∀ (s : State) (w : Word) (e : FieldSpec), schemaOk s.cfg.schema = true → e ∈ s.cfg.schema →
    exec (.extract w e.field) s = .next (s.setResult (.value (w.extractLsb' e.offset e.width).toNat))

/-- R82, R115, R181, R183: SCHEMA_VALID answers true when the four clauses hold. Otherwise it raises `SchemaInvalid` with
a clause that the schema breaks, the first one in the order of names, then widths and ends, then overlaps (log 18); under
such a schema PACK, DECODE_PASS and GENERATE raise the same fault before anything else (log 19). -/
def Obligations.SchemaCheckIsTheFourClauses : Prop :=
  ∀ (S : Schema) (s : State),
    let apart := S.Pairwise fun e d => e.offset + e.width ≤ d.offset ∨ d.offset + d.width ≤ e.offset
    (namedOnce S → insideWord S → apart → exec (.schemaValid S) s = .next (s.setResult (.schema true))) ∧
    (¬(namedOnce S ∧ insideWord S ∧ apart) → ∃ c, clauseBroken S c ∧
      exec (.schemaValid S) s = .fault (.schemaInvalid c) ∧
      (s.cfg.schema = S → (∀ m, exec (.pack m) s = .fault (.schemaInvalid c)) ∧
        exec .decodePass s = .fault (.schemaInvalid c) ∧ ∀ v, exec (.generate v) s = .fault (.schemaInvalid c)))

/-- R110, R120: the packer's, address and pair rows change nothing but the answer; every entry and owner is as
before. -/
def Obligations.PureRowsChangeOnlyTheAnswer : Prop :=
  ∀ (i : Instr) (s t : State), isPureRow i = true → exec i s = .next t →
    t = s.setResult t.result ∧ ∀ a, entry t a = entry s a ∧ ownerOf t a = ownerOf s a

/-! ### Addresses and pairs -/

/-- R121, R122 (under the default layout, the spec's decision D4 and D6; log 6): INDEXA and INDEXB answer the weighted
sums. -/
def Obligations.IndexFunctionsAreWeightedSums : Prop :=
  ∀ (s : State) (p q : Bit) (k a b : Sub3), s.cfg.layoutFull = defaultLayout →
    (∃ x : BitVec 12, exec (.indexA p k a b q) s = .next (s.setResult (.index x)) ∧
      x.toNat = 2048 * p.toNat + 128 * k.toNat + 16 * a.toNat + 2 * b.toNat + q.toNat) ∧
    (∃ x : BitVec 12, exec (.indexB p a k b q) s = .next (s.setResult (.index x)) ∧
      x.toNat = 2048 * p.toNat + 1024 + 128 * a.toNat + 16 * k.toNat + 2 * b.toNat + q.toNat)

/-- R123: SPLIT inverts both index functions, and re-applying the index function of the split gives the index back;
for every layout that is a concatenation. -/
def Obligations.SplitInvertsTheIndexFunctions : Prop :=
  ∀ (s : State), s.cfg.layoutFull.valid = true →
    (∀ (p q : Bit) (k a b : Sub3),
      exec (.split (indexA s.cfg.layoutFull p k a b q)) s =
        .next (s.setResult (.split ⟨p, ⟨.A, k, a, b, q⟩⟩)) ∧
      exec (.split (indexB s.cfg.layoutFull p a k b q)) s =
        .next (s.setResult (.split ⟨p, ⟨.B, k, a, b, q⟩⟩))) ∧
    (∀ x : BitVec 12, ∃ y : Split, exec (.split x) s = .next (s.setResult (.split y)) ∧
      indexOf s.cfg.layoutFull y.phase y.combo = x)

/-- R124: the two formats together take every address of the full variant exactly once. -/
def Obligations.FormatsPartitionTheAddressSpace : Prop :=
  ∀ L : LayoutFull, L.valid = true →
    (∀ x : BitVec 12,
      (∃ p g a b q, indexA L p g a b q = x) ∨ (∃ p a sub b q, indexB L p a sub b q = x)) ∧
    (∀ p g a b q p' a' sub b' q', indexA L p g a b q ≠ indexB L p' a' sub b' q') ∧
    (∀ p g a b q p' g' a' b' q', indexA L p g a b q = indexA L p' g' a' b' q' →
      p = p' ∧ g = g' ∧ a = a' ∧ b = b' ∧ q = q') ∧
    (∀ p a sub b q p' a' sub' b' q', indexB L p a sub b q = indexB L p' a' sub' b' q' →
      p = p' ∧ a = a' ∧ sub = sub' ∧ b = b' ∧ q = q')

/-- R125, R130: the phase-1 index is the phase-0 index, which is below HALF, plus HALF, in either variant; INDEX_MINI
answers the phase bit above the 8 instruction bits. -/
def Obligations.PhaseSlotsAreHalfApart : Prop :=
  (∀ (L : LayoutFull) (c : Combo), L.valid = true →
    (indexOf L 0 c).toNat < Variant.full.half ∧
    (indexOf L 1 c).toNat = (indexOf L 0 c).toNat + Variant.full.half) ∧
  (∀ (s : State) (p : Bit) (i : BitVec 8), ∃ x : BitVec 9,
    exec (.indexMini p i) s = .next (s.setResult (.indexMini x)) ∧
    x.toNat = p.toNat * Variant.mini.half + i.toNat)

/-- R126, R127, R128: for every stride of at least 5, PAIR_PACK answers the quoted formula on the thirty pairs of
distinct ordinary registers, PAIR_UNPACK gives the pair back, and a number that unpacks to a pair is the one that pair
packs to. -/
def Obligations.PairNumberingIsABijection : Prop :=
  ∀ (s : State), 5 ≤ s.cfg.pairStride →
    (∀ base operand : Sub3, base.toNat ≤ 5 → operand.toNat ≤ 5 → operand ≠ base →
      ∃ n, exec (.pairPack base operand) s = .next (s.setResult (.number n)) ∧
        n + (if base.toNat ≤ operand.toNat then 1 else 0) = base.toNat * s.cfg.pairStride + operand.toNat ∧
        exec (.pairUnpack n) s = .next (s.setResult (.pair (some (base.toNat, operand.toNat))))) ∧
    (∀ n b o, exec (.pairUnpack n) s = .next (s.setResult (.pair (some (b, o)))) →
      b ≤ 5 ∧ o ≤ 5 ∧ o ≠ b ∧ pairPack s.cfg.pairStride b o = some n)

/-- R127: PAIR_UNPACK answers on every number; none where the quotient is above 5 or the remainder above 4. -/
def Obligations.PairUnpackAnswersEveryNumber : Prop :=
  ∀ (s : State) (n : Nat), 5 ≤ s.cfg.pairStride → ∃ r,
    exec (.pairUnpack n) s = .next (s.setResult (.pair r)) ∧
    (r = none ↔ 5 < n / s.cfg.pairStride ∨ 4 < n % s.cfg.pairStride)

/-- R126 (the domain is decision D18): PAIR_PACK outside its domain is refused. -/
def Obligations.PairPackRefusesOutsideItsDomain : Prop :=
  ∀ (s : State) (base operand : Sub3),
    (5 < base.toNat ∨ 5 < operand.toNat ∨ operand = base) → exec (.pairPack base operand) s = .refused .pairDomain

/-! ### Construction of the table -/

/-- R136: ALLOC makes a table of N entries, each of unspecified content (a free value), and changes nothing else; a
second ALLOC raises `StageViolation`. -/
def Obligations.AllocCreatesTheTable : Prop :=
  ∀ (v : Variant) (s : State),
    (s.stage = .unallocated → ∃ t, exec (.alloc v) s = .next t ∧ t.stage = .allocated ∧ t.variant = v ∧
      t.owner = none ∧
      (∀ a, a < v.size → entry t a = some (Config.unfilled a)) ∧ (∀ a, v.size ≤ a → entry t a = none) ∧
      t.cfg = s.cfg ∧ t.cw = s.cw ∧ t.seq = s.seq ∧ t.image = s.image ∧ t.inputs = s.inputs) ∧
    (s.stage ≠ .unallocated → exec (.alloc v) s = .fault (.stageViolation .alloc s.stage))

/-- R137: FILL writes the trap word to every address and clears every owner, and changes nothing else; outside the
stage Allocated it raises `StageViolation`, and before it the override writes do. -/
def Obligations.FillWritesTheTrapWordEverywhere : Prop :=
  ∀ (s : State),
    (s.stage = .allocated → ∃ t, exec .fill s = .next t ∧ t.stage = .filled ∧ t.variant = s.variant ∧
      (∀ a, a < s.variant.size → entry t a = some s.cfg.trapWord ∧ ownerOf t a = none) ∧
      t.cfg = s.cfg ∧ t.cw = s.cw ∧ t.seq = s.seq ∧ t.image = s.image ∧ t.inputs = s.inputs) ∧
    (s.stage ≠ .allocated → exec .fill s = .fault (.stageViolation .fill s.stage)) ∧
    (s.stage = .allocated → ∀ x w0 w1 id, exec (.write1 x w0 id) s = .fault (.stageViolation .write1 .allocated) ∧
      exec (.write2 x w0 w1 id) s = .fault (.stageViolation .write2 .allocated))

/-- R138: WRITE1 at an unclaimed phase-0 index of a filled table writes the word and marks the owner; every other
entry and owner, the phase-1 slot among them, is as before. That this holds of any 32-bit word, also of one that PACK
cannot build, is the model's choice (log 36). -/
def Obligations.Write1ClaimsOneEntry : Prop :=
  ∀ (s : State) (x : BitVec 12) (w : Word) (id : RuleId),
    s.stage = .filled → Memory.wf s = true → x.toNat < s.variant.half → ownerOf s x.toNat = none →
    ∃ t, exec (.write1 x w id) s = .next t ∧ entry t x.toNat = some w ∧ ownerOf t x.toNat = some id ∧
      (∀ a, a ≠ x.toNat → entry t a = entry s a ∧ ownerOf t a = ownerOf s a) ∧
      t.cfg = s.cfg ∧ t.variant = s.variant ∧ t.stage = s.stage ∧ t.cw = s.cw ∧ t.seq = s.seq ∧
      t.image = s.image ∧ t.inputs = s.inputs

/-- R139: WRITE2 at an unclaimed pair of phase slots of a filled table writes both words and owners; every other entry
and owner is as before. That this holds of any 32-bit words, also of ones that PACK cannot build, is the model's choice
(log 36). -/
def Obligations.Write2ClaimsBothPhaseSlots : Prop :=
  ∀ (s : State) (x : BitVec 12) (w0 w1 : Word) (id : RuleId),
    s.stage = .filled → Memory.wf s = true → x.toNat < s.variant.half →
    ownerOf s x.toNat = none → ownerOf s (x.toNat + s.variant.half) = none →
    ∃ t, exec (.write2 x w0 w1 id) s = .next t ∧
      entry t x.toNat = some w0 ∧ ownerOf t x.toNat = some id ∧
      entry t (x.toNat + s.variant.half) = some w1 ∧ ownerOf t (x.toNat + s.variant.half) = some id ∧
      (∀ a, a ≠ x.toNat → a ≠ x.toNat + s.variant.half → entry t a = entry s a ∧ ownerOf t a = ownerOf s a) ∧
      t.cfg = s.cfg ∧ t.variant = s.variant ∧ t.stage = s.stage ∧ t.cw = s.cw ∧ t.seq = s.seq ∧
      t.image = s.image ∧ t.inputs = s.inputs

/-- R184, R185, R190: an override write outside the stage Filled, or WRITE2 with the phase bit set, raises
`StageViolation`; one to a claimed address raises `DoubleClaim` with the address, its holder and the claimant. Of a
WRITE2 whose two slots are both claimed it names the phase-0 address, which the spec leaves open (log 22). -/
def Obligations.OverrideWriteFaults : Prop :=
  ∀ (s : State) (x : BitVec 12) (w0 w1 : Word) (id holder : RuleId),
    (s.stage ≠ .filled → exec (.write1 x w0 id) s = .fault (.stageViolation .write1 s.stage)) ∧
    (s.stage ≠ .filled ∨ s.variant.half ≤ x.toNat →
      exec (.write2 x w0 w1 id) s = .fault (.stageViolation .write2 s.stage)) ∧
    (s.stage = .filled → x.toNat < s.variant.half → ownerOf s x.toNat = some holder →
      exec (.write1 x w0 id) s = .fault (.doubleClaim x.toNat holder id) ∧
      exec (.write2 x w0 w1 id) s = .fault (.doubleClaim x.toNat holder id)) ∧
    (s.stage = .filled → x.toNat < s.variant.half → ownerOf s x.toNat = none →
      ownerOf s (x.toNat + s.variant.half) = some holder →
      exec (.write2 x w0 w1 id) s = .fault (.doubleClaim (x.toNat + s.variant.half) holder id))

/-- R112, R190 (which of several: log 20): where a rule's template fixes a value that does not fit its field, GENERATE
from the start, and DECODE_PASS on a table in whatever stage, raise `PackRange` with such a field and value before any
table write. -/
def Obligations.OutOfRangeTemplateStopsGeneration : Prop :=
  ∀ (s : State) (v : Variant), schemaOk s.cfg.schema = true →
    (∃ f n, fixedOutOfRange s.cfg (s.cfg.rules v) f n) →
    ∃ f n, fixedOutOfRange s.cfg (s.cfg.rules v) f n ∧
      (s.stage = .unallocated → exec (.generate v) s = .fault (.packRange f n)) ∧
      (s.stage ≠ .unallocated → s.variant = v → exec .decodePass s = .fault (.packRange f n))

/-- R140: from a filled table without claims DECODE_PASS completes when every word packs, and then every slot holds
what the first matching rule emits, or the unclaimed trap word; the table is frozen and nothing else changes. -/
def Obligations.DecodePassBuildsTheTable : Prop :=
  ∀ (s : State), s.stage = .filled → s.rom = [] → s.owner = some [] →
    schemaOk s.cfg.schema = true → layoutsOk s.cfg = true → contentPacks s.cfg s.variant = true →
    ∃ t, exec .decodePass s = .next t ∧ t.stage = .frozen ∧ t.variant = s.variant ∧
      (∀ c ∈ slots s.cfg s.variant, slotHolds t c) ∧
      t.cfg = s.cfg ∧ t.cw = s.cw ∧ t.seq = s.seq ∧ t.image = s.image ∧ t.inputs = s.inputs

/-- R143: GENERATE completes from the start under the same conditions, in either variant, with the same table. -/
def Obligations.GenerateBuildsTheTable : Prop :=
  ∀ (v : Variant) (s : State), s.stage = .unallocated →
    schemaOk s.cfg.schema = true → layoutsOk s.cfg = true → contentPacks s.cfg v = true →
    ∃ t, exec (.generate v) s = .next t ∧ t.stage = .frozen ∧ t.variant = v ∧
      (∀ c ∈ slots s.cfg v, slotHolds t c) ∧
      t.cfg = s.cfg ∧ t.cw = s.cw ∧ t.seq = s.seq ∧ t.image = s.image ∧ t.inputs = s.inputs

/-- R145 (the reading of decision D15), full variant: after GENERATE every address of the full variant is unclaimed and holds the
trap word, or is owned by the rule that claims it and holds the word that rule's templates pack to for the combination
SPLIT names. -/
def Obligations.EveryEntryIsTrapOrItsRulesWord : Prop :=
  ∀ (s t : State), s.cfg.layoutFull.valid = true → exec (.generate .full) s = .next t →
    ∀ x : BitVec 12,
      match claimAt s.cfg x with
      | none => ownerOf t x.toNat = none ∧ entry t x.toNat = some s.cfg.trapWord
      | some (id, m) =>
        ownerOf t x.toNat = some id ∧ ∃ w, pack s.cfg.schema m = .ok w ∧ entry t x.toNat = some w

/-- R141: the rules of a group are a list and exactly the first match is taken; with no match, none is. -/
def Obligations.FirstMatchingRuleIsTaken : Prop :=
  ∀ (cfg : Params) (c : Combo) (rs : List Rule),
    (∀ id e, firstMatch cfg c rs = some (id, e) ↔
      ∃ before r after, rs = before ++ r :: after ∧ r.id = id ∧ ruleEmission cfg c r = some e ∧
        ∀ x ∈ before, ruleEmission cfg c x = none) ∧
    (firstMatch cfg c rs = none ↔ ∀ x ∈ rs, ruleEmission cfg c x = none)

/-- R161 as the constraint on `Content` (log 10, log 30): where the alternate forms stand first and one of them
matches, the rule taken is not the generic form. -/
def Obligations.EscapeFormsPrecedeTheGenericForm : Prop :=
  ∀ (cfg : Params) (c : Combo) (rs : List Rule) (alt : Rule), escapeFirst cfg rs c = true →
    alt ∈ rs → alt.form = .alternate → (ruleEmission cfg c alt).isSome = true →
    ∃ r ∈ rs, ∃ e, r.form ≠ .generic ∧ ruleEmission cfg c r = some e ∧ firstMatch cfg c rs = some (r.id, e)

/-- R142: the order in which the pass visits the combinations of the full variant cannot be observed. -/
def Obligations.EnumerationOrderIsUnobservable : Prop :=
  ∀ (s t : State) (order : List (Combo × Nat)), s.cfg.layoutFull.valid = true → s.variant = .full →
    s.stage = .filled → s.rom = [] → s.owner = some [] → order.Perm (slots s.cfg .full) →
    visitAll (slots s.cfg .full) s = .next t → visitAll order s = .next t

/-- R147, R158, R159, R167: when every emission has the form of R158 or R159, the generated table is well-formed, and
both words of every two-phase instruction are there, non-trap, the first with `CRST` = 0 and the second with 1. -/
def Obligations.WellFormedContentGivesAWellFormedTable : Prop :=
  ∀ (v : Variant) (s t : State), paramsOk s.cfg = true → contentForms s.cfg v = true →
    exec (.generate v) s = .next t →
    tableWellFormed t ∧
    ∀ c ∈ slots s.cfg v, ∀ id m0 m1, firstMatch s.cfg c.1 (s.cfg.rules v) = some (id, .two m0 m1) →
      crstOf t c.2 = 0 ∧ crstOf t (c.2 + v.half) = 1 ∧
      romWord t c.2 ≠ s.cfg.trapWord ∧ romWord t (c.2 + v.half) ≠ s.cfg.trapWord ∧
      ownerOf t c.2 = some id ∧ ownerOf t (c.2 + v.half) = some id

/-- R157: when the content claims the load of group 0, the full table's entry at `INDEXA(0, 0, 0, 0, 0)` has MOE = 1,
RIWE = 1 and IMM = 2, and is not the trap word. -/
def Obligations.GroupZeroEntryIsTheLoad : Prop :=
  ∀ (s t : State), paramsOk s.cfg = true → loadOk s.cfg (s.cfg.rules .full) = true →
    exec (.generate .full) s = .next t →
    extract s.cfg.schema (romWord t (indexA s.cfg.layoutFull 0 0 0 0 0).toNat) .MOE = 1 ∧
    extract s.cfg.schema (romWord t (indexA s.cfg.layoutFull 0 0 0 0 0).toNat) .RIWE = 1 ∧
    extract s.cfg.schema (romWord t (indexA s.cfg.layoutFull 0 0 0 0 0).toNat) .IMM = 2 ∧
    romWord t (indexA s.cfg.layoutFull 0 0 0 0 0).toNat ≠ s.cfg.trapWord

/-! ### Lookup and image -/

/-- R146, R49: on a frozen table LOOKUP drives CW with the addressed entry and changes nothing else but the answer;
the same lookup again answers the same. -/
def Obligations.LookupDrivesTheAddressedEntry : Prop :=
  ∀ (s : State) (p : Bit), s.stage = .frozen →
    (∀ i : InstrBits, s.variant = .full → ∃ w t,
      entry s (2048 * p.toNat + i.toNat) = some w ∧ exec (.lookup p i) s = .next t ∧
      t = (s.setCw w).setResult (.word w) ∧ exec (.lookup p i) t = .next t) ∧
    (∀ i : BitVec 8, s.variant = .mini → ∃ w t,
      entry s (256 * p.toNat + i.toNat) = some w ∧ exec (.lookupMini p i) s = .next t ∧
      t = (s.setCw w).setResult (.word w) ∧ exec (.lookupMini p i) t = .next t)

/-- R146, R185 (decision D11): before the freeze a lookup, a serialisation and a presented address are refused: no
step, no fault. -/
def Obligations.ReadsBeforeTheFreezeAreRefused : Prop :=
  ∀ (s : State), s.stage ≠ .frozen →
    (∀ p i, exec (.lookup p i) s = .refused .notFrozen) ∧ (∀ p i, exec (.lookupMini p i) s = .refused .notFrozen) ∧
    (∀ big, exec (.serialize big) s = .refused .notFrozen) ∧
    ∀ i, (isEntryRow12 i = true ∨ ∃ p j, i = .trapMini p j) → exec i s = .refused .notFrozen

/-- R43, R44, R148: SERIALIZE of a frozen table emits 4N bytes, word `a` at bytes `4a` to `4a+3`, least significant
byte first without the flag and most significant first with it; nothing but the image and the answer changes. -/
def Obligations.SerializedImageIsTheWordsInOrder : Prop :=
  ∀ (s : State) (big : Bool),
    s.stage = .frozen → ∃ img, exec (.serialize big) s = .next ((s.setImage img).setResult .done) ∧
      img.length = 4 * s.variant.size ∧
      ∀ a w k, entry s a = some w → k < 4 →
        img[4 * a + k]? = some (if big then w.extractLsb' (24 - 8 * k) 8 else w.extractLsb' (8 * k) 8)

/-- R149: the two images of one table are each other's reversal in every group of four bytes. -/
def Obligations.EndiannessFlagReversesEachWord : Prop :=
  ∀ (s tb tl : State) (ib il : List Byte),
    exec (.serialize true) s = .next tb → exec (.serialize false) s = .next tl →
    tb.image = some ib → tl.image = some il →
    ∀ a k, a < s.variant.size → k < 4 → ib[4 * a + k]? = il[4 * a + (3 - k)]?

/-- R45, R210 (log 27): an image loaded with the byte order it was written with gives the table it was written
from. -/
def Obligations.LoadedImageReturnsTheTable : Prop :=
  ∀ (s u : State) (big : Bool) (rest : List Input), s.stage = .frozen → Memory.wf s = true →
    u.stage = .unallocated → u.seq.busy = false → u.cfg.trapWord = s.cfg.trapWord →
    u.inputs = .loadImage s.variant big (imageOf big s) :: rest →
    ∃ t, step u = .next t ∧ t.stage = .frozen ∧ t.variant = s.variant ∧ t.rom = s.rom ∧ t.owner = none ∧
      t.cfg = u.cfg ∧ t.seq = u.seq ∧ t.cw = u.cw ∧ t.result = u.result ∧ t.image = u.image ∧ t.inputs = rest

/-- R43, R210 (log 26, log 27; U22, U23 and the host's contract of R197): an image of the wrong length, or one offered
to a control store that has a table, is refused. -/
def Obligations.UnfitImagesAreRefused : Prop :=
  ∀ (s : State) (v : Variant) (big : Bool) (img : List Byte) (rest : List Input),
    s.seq.busy = false → s.inputs = .loadImage v big img :: rest →
    (s.stage = .unallocated → img.length ≠ 4 * v.size → step s = .refused .imageLength) ∧
    (s.stage ≠ .unallocated → step s = .refused .controlStoreInUse)

/-! ### Entries, the sequencer and the trap -/

/-- R28, R168, R207 (decision D14; log 17): an entry row with a 12-bit address completes on a frozen full table where the
address is the sequencer's next: phase 0 of any instruction bits when an instruction starts fresh, or the phase and bits
a busy sequencer has fixed. At phase 1 the word is the trap word or has `CRST` = 1. CW takes the word of the address; the
trap word leads to phase 0 of the same instruction bits again, another word with `CRST` = 1 ends the instruction, one
with another `CRST` (0 under the default schema; log 34) leads to phase 1 of the same bits. -/
def Obligations.EntryRowsComplete : Prop :=
  ∀ (i : Instr) (x : BitVec 12) (w : Word) (s : State), isEntryRow12 i = true → x.setWidth 32 = rowWord i →
    s.stage = .frozen → s.variant = .full → entry s x.toNat = some w →
    ((s.seq.busy = false ∧ phaseOf x = 0) ∨
      (s.seq.busy = true ∧ phaseOf x = s.seq.phase ∧ instrOf x = s.seq.instr)) →
    (phaseOf x = 0 ∨ w = s.cfg.trapWord ∨ extract s.cfg.schema w .CRST = 1) →
    ∃ ok, exec i s = .next (((s.setCw w).setSeq
      (if w = s.cfg.trapWord then ⟨0, instrOf x, true⟩
        else if extract s.cfg.schema w .CRST = 1 then ⟨0, instrOf x, false⟩
        else ⟨1, instrOf x, true⟩)).setResult (.entry w ok))

/-- R28, R168, R169, R207 in the mini variant (decision D14; log 17): TRAP_MINI, ONE_WORD, TWO_WORD_FIRST and
TWO_WORD_SECOND complete at their 9-bit address under the same conditions, with the same effect (`CRST`: log 34). -/
def Obligations.MiniEntryRowsComplete : Prop :=
  ∀ (s : State) (p : Bit) (j : BitVec 8) (i : Instr) (w : Word), s.stage = .frozen → s.variant = .mini →
    (i = .trapMini p j ∨ (p = 0 ∧ i = .oneWord (j.setWidth 11)) ∨ (p = 0 ∧ i = .twoWordFirst (j.setWidth 11)) ∨
      (p = 1 ∧ i = .twoWordSecond (j.setWidth 11))) →
    entry s (256 * p.toNat + j.toNat) = some w →
    ((s.seq.busy = false ∧ p = 0) ∨
      (s.seq.busy = true ∧ p = s.seq.phase ∧ j.setWidth 11 = s.seq.instr)) →
    (p = 0 ∨ w = s.cfg.trapWord ∨ extract s.cfg.schema w .CRST = 1) →
    ∃ ok, exec i s = .next (((s.setCw w).setSeq
      (if w = s.cfg.trapWord then ⟨0, j.setWidth 11, true⟩
        else if extract s.cfg.schema w .CRST = 1 then ⟨0, j.setWidth 11, false⟩
        else ⟨1, j.setWidth 11, true⟩)).setResult (.entry w ok))

/-- R28, R168, R207 (that it is a refusal: log 37): an address that is not the sequencer's next is refused: one at phase 1
when an instruction starts fresh, after a reset or an ending word, and any but the fixed phase and bits while the
sequencer is busy. -/
def Obligations.OutOfSequenceAddressesAreRefused : Prop :=
  (∀ (i : Instr) (x : BitVec 12) (s : State), isEntryRow12 i = true → x.setWidth 32 = rowWord i →
    s.stage = .frozen → s.variant = .full →
    ((s.seq.busy = false ∧ phaseOf x = 1) ∨
      (s.seq.busy = true ∧ ¬(phaseOf x = s.seq.phase ∧ instrOf x = s.seq.instr))) →
    exec i s = .refused .outOfSequence) ∧
  (∀ (s : State) (p : Bit) (j : BitVec 8) (i : Instr), s.stage = .frozen → s.variant = .mini →
    (i = .trapMini p j ∨ (p = 0 ∧ i = .oneWord (j.setWidth 11)) ∨ (p = 0 ∧ i = .twoWordFirst (j.setWidth 11)) ∨
      (p = 1 ∧ i = .twoWordSecond (j.setWidth 11))) →
    ((s.seq.busy = false ∧ p = 1) ∨
      (s.seq.busy = true ∧ ¬(p = s.seq.phase ∧ j.setWidth 11 = s.seq.instr))) →
    exec i s = .refused .outOfSequence)

/-- R28 (decision D14; log 25): a sequencer that waits at phase 1 has no step from a word with `CRST` = 0 (or any value
but 1; log 34) that is not the trap word, in either variant. -/
def Obligations.PhaseOneWithoutEndIsStuck : Prop :=
  (∀ (i : Instr) (x : BitVec 12) (w : Word) (s : State), isEntryRow12 i = true → x.setWidth 32 = rowWord i →
    s.stage = .frozen → s.variant = .full → s.seq = ⟨1, instrOf x, true⟩ → entry s x.toNat = some w → phaseOf x = 1 →
    w ≠ s.cfg.trapWord → extract s.cfg.schema w .CRST ≠ 1 → exec i s = .fault (.sequencerStuck (instrOf x))) ∧
  (∀ (s : State) (j : BitVec 8) (w : Word), s.stage = .frozen → s.variant = .mini →
    s.seq = ⟨1, j.setWidth 11, true⟩ →
    entry s (256 + j.toNat) = some w → w ≠ s.cfg.trapWord → extract s.cfg.schema w .CRST ≠ 1 →
    exec (.trapMini 1 j) s = .fault (.sequencerStuck (j.setWidth 11)) ∧
    exec (.twoWordSecond (j.setWidth 11)) s = .fault (.sequencerStuck (j.setWidth 11)))

/-- R49, R53: presenting an address changes the port CW, the sequencer and the answer; every entry and owner, the
stage, the image and the inputs are as before. -/
def Obligations.PresentingAnAddressLeavesTheTable : Prop :=
  ∀ (i : Instr) (s t : State), (isEntryRow12 i = true ∨ ∃ p j, i = .trapMini p j) → exec i s = .next t →
    (∀ a, entry t a = entry s a ∧ ownerOf t a = ownerOf s a) ∧
    t.cfg = s.cfg ∧ t.variant = s.variant ∧ t.stage = s.stage ∧ t.image = s.image ∧ t.inputs = s.inputs

/-- R94, R155, R157, R158, R159 (log 17): the answer of an entry row says whether the entry has the fields the row
states. -/
def Obligations.EntryRowAnswersTellTheForm : Prop :=
  ∀ (s t : State) (w : Word) (ok : Bool), t.result = .entry w ok →
    (∀ p i, exec (.trap p i) s = .next t → (ok = true ↔ w = s.cfg.trapWord)) ∧
    (∀ p i, exec (.trapMini p i) s = .next t → (ok = true ↔ w = s.cfg.trapWord)) ∧
    (∀ p a b q, exec (.aGroup7 p a b q) s = .next t → (ok = true ↔ w = s.cfg.trapWord)) ∧
    (exec .ldG0 s = .next t → (ok = true ↔ extract s.cfg.schema w .MOE = 1 ∧
      extract s.cfg.schema w .RIWE = 1 ∧ extract s.cfg.schema w .IMM = 2)) ∧
    (∀ a b q, exec (.ldG0Ref a b q) s = .next t → (ok = true ↔ extract s.cfg.schema w .MOE = 1 ∧
      extract s.cfg.schema w .RIWE = 1 ∧ extract s.cfg.schema w .IMM = 2)) ∧
    (∀ i, exec (.oneWord i) s = .next t → (ok = true ↔ extract s.cfg.schema w .CRST = 1 ∧
      entry s (i.toNat + s.variant.half) = some s.cfg.trapWord)) ∧
    (∀ i, exec (.twoWordFirst i) s = .next t →
      (ok = true ↔ extract s.cfg.schema w .CRST = 0 ∧ w ≠ s.cfg.trapWord)) ∧
    (∀ i, exec (.twoWordSecond i) s = .next t →
      (ok = true ↔ extract s.cfg.schema w .CRST = 1 ∧ w ≠ s.cfg.trapWord))

/-- R161 (log 17, log 30): the answer of an escape row says whether, among the rules of the content that match the
combination of its address, no alternate form stands after a generic one. -/
def Obligations.EscapeRowAnswersTellThePrecedence : Prop :=
  ∀ (s t : State) (w : Word) (ok : Bool) (x : BitVec 12) (i : Instr), t.result = .entry w ok →
    x.setWidth 32 = rowWord i →
    ((∃ f u v e q, i = .escRegB f u v e q) ∨ (∃ g e b q, i = .escRegAA g e b q) ∨
      (∃ e sub b q, i = .escRegAB e sub b q)) →
    exec i s = .next t →
    (ok = true ↔ ∀ before mid after g alt,
      (s.cfg.rules .full).filter (fun r => (ruleEmission s.cfg (split s.cfg.layoutFull x).combo r).isSome) =
        before ++ g :: mid ++ alt :: after →
      g.form = .generic → alt.form ≠ .alternate)

/-- R156, R188, R189 (decision D27; log 15, log 16): once the trap word has been taken, and with no CPU reset among the
inputs, the machine looks the same entry up forever: a hang, in which nothing but the port CW and the answer changes and
no input is taken but requests for that very lookup. -/
def Obligations.UnassignedInstructionHangs : Prop :=
  ∀ (n : Nat) (s : State), s.stage = .frozen → s.seq.busy = true → s.seq.phase = 0 →
    s.seq.instr.toNat < s.variant.half → entry s s.seq.instr.toNat = some s.cfg.trapWord → noReset s = true →
    ∃ t, Host.Core.run Sys2Proof.core (n + 1) s = .next t ∧ t.seq = s.seq ∧ t.cw = some s.cfg.trapWord ∧
      t.rom = s.rom ∧ t.owner = s.owner ∧ t.stage = s.stage ∧ t.variant = s.variant ∧ t.cfg = s.cfg ∧
      t.image = s.image ∧ ∃ taken, s.inputs = taken ++ t.inputs ∧
        ∀ x ∈ taken, ∃ bytes, x = .request bytes ∧ (namedLookup s bytes).isSome = true

/-- R155, R156 (with RLOE = RIWE = 1, the defaults of decision D8; log 8): the trap word makes the CPU subtract 2 from
its program counter, reads and writes no memory, and ends the instruction. Of every other word, one with
conflicting drivers among them (R95, U8), no effect on the program counter is derived (log 16). -/
def Obligations.TrapWordMovesThePcBackByTwo : Prop :=
  ∀ cfg : Params, paramsOk cfg = true → extract cfg.schema cfg.trapWord .RLOE = 1 →
    extract cfg.schema cfg.trapWord .RIWE = 1 →
    pcDisplacement cfg cfg.trapWord = some (-2) ∧ (controlLines cfg cfg.trapWord).memRead = false ∧
    (controlLines cfg cfg.trapWord).memWrite = false ∧ (controlLines cfg cfg.trapWord).ends = true ∧
    ∀ w, w ≠ cfg.trapWord → pcDisplacement cfg w = none

/-- R167, R168 (log 15, log 17): on a finished table, generated or loaded, whose phase-1 entries all have `CRST` = 1
(clause (a) of the well-formed table), every instruction, assigned or not, that starts fresh ends within two lookups; the
second follows before any other input and neither meets a fault. -/
def Obligations.EveryInstructionEndsWithinTwoLookups : Prop :=
  ∀ (s : State) (i : InstrBits), s.stage = .frozen → s.seq.busy = false → i.toNat < s.variant.half →
    (∀ a, a < s.variant.half → crstOf s (a + s.variant.half) = 1) → noResetNext s = true →
    ∃ t, exec (.oneWord i) s = .next t ∧ t.inputs = s.inputs ∧ t.seq.instr = i ∧
      (t.seq.phase = 0 ∨ ∃ u, step t = .next u ∧ u.seq.phase = 0 ∧ u.seq.instr = i ∧
        (u.inputs = s.inputs ∨ (namesNext t = true ∧ u.inputs = s.inputs.tail)))

/-- R61 to R81, R164 (log 33): the eighteen control lines of a packed word are its field values. An enable, read or write
line is on exactly when its field is 1 (a wider field: log 34), a register index counts only when its enable is, the
second ALU input is the 7-bit offset at IMM = 2 (mini variant: log 38) and the constant -2 at `IMM_M2`, the fetch source
and the access width follow the codes `IADDRSEL_PC` and `W16_WORD` (a wider field: log 39), and the flags are preserved
exactly when FLAGSWE is not 1, whatever OP is. -/
def Obligations.ControlLinesFollowThePackedFields : Prop :=
  ∀ (cfg : Params) (m : FieldMap) (w : Word), schemaOk cfg.schema = true → pack cfg.schema m = .ok w →
    controlLines cfg w =
      { aluOp        := fieldValue m .OP
        left         := if fieldValue m .RLOE = 1 then some (fieldValue m .RL) else none
        right        := if fieldValue m .RROE = 1 then some (fieldValue m .RR) else none
        destination  := if fieldValue m .RIWE = 1 then some (fieldValue m .RI) else none
        second       := if fieldValue m .IMM = 2 then .offset7
                        else if fieldValue m .IMM = cfg.immM2.toNat then .minus2 else .other (fieldValue m .IMM)
        storeData    := if fieldValue m .RRBUSOE = 1 then some (fieldValue m .RR) else none
        aluOut       := decide (fieldValue m .ALUOE = 1)
        flagsRead    := decide (fieldValue m .FLAGSOE = 1)
        flagsWritten := decide (fieldValue m .FLAGSWE = 1)
        fetch        := if fieldValue m .IADDRSEL = cfg.iaddrselPc.toNat then .pc else .delayRegister
        cnz          := fieldValue m .CNZ
        memRead      := decide (fieldValue m .MOE = 1)
        memWrite     := decide (fieldValue m .MWE = 1)
        wide         := decide (fieldValue m .W16 = cfg.w16Word.toNat)
        ends         := decide (fieldValue m .CRST = 1)
        intWrite     := decide (fieldValue m .IWE = 1)
        selEnable    := decide (fieldValue m .SELE = 1)
        selSource    := fieldValue m .SELIFLAGSSEL } ∧
    flagsPreserved cfg.schema w = decide (fieldValue m .FLAGSWE ≠ 1)

/-! ### Lifecycle and invariant -/

/-- R144: a frozen table never changes: no step alters an entry or leaves the stage, an owner changes only by a CPU reset,
after which no owner map exists (R34), and ALLOC, FILL, the override writes and GENERATE raise `StageViolation`.
DECODE_PASS, whose stage fault the spec does not list (log 21), raises `PackRange` for an out-of-range rule, as R190 puts
it first, and otherwise `StageViolation`, of its first write or its own. -/
def Obligations.FrozenTableIsImmutable : Prop :=
  ∀ s : State, s.stage = .frozen →
    (∀ t, step s = .next t → t.stage = .frozen ∧ t.variant = s.variant ∧ (∀ a, entry t a = entry s a) ∧
      ((∀ a, ownerOf t a = ownerOf s a) ∨ (t.owner = none ∧ ∃ rest, s.inputs = .cpuReset :: rest))) ∧
    (∀ v, exec (.alloc v) s = .fault (.stageViolation .alloc .frozen)) ∧
    exec .fill s = .fault (.stageViolation .fill .frozen) ∧
    (∀ x w id, exec (.write1 x w id) s = .fault (.stageViolation .write1 .frozen)) ∧
    (∀ x w0 w1 id, exec (.write2 x w0 w1 id) s = .fault (.stageViolation .write2 .frozen)) ∧
    (schemaOk s.cfg.schema = true → (∀ v, exec (.generate v) s = .fault (.stageViolation .alloc .frozen)) ∧
      (∀ f n, contentRange s.cfg (s.cfg.rules s.variant) = some (f, n) →
        exec .decodePass s = .fault (.packRange f n)) ∧
      (contentPacks s.cfg s.variant = true → ∃ op, (op = .write1 ∨ op = .write2 ∨ op = .decodePass) ∧
        exec .decodePass s = .fault (.stageViolation op .frozen)))

/-- R150: an entry no rule claimed holds the trap word: after FILL, and after every later step while an owner map exists,
the step that runs GENERATE among them; a second FILL raises `StageViolation`. -/
def Obligations.UnclaimedEntriesHoldTheTrapWord : Prop :=
  (∀ s t : State, exec .fill s = .next t →
    t.owner.isSome = true ∧ ∀ a, ownerOf t a = none → romWord t a = t.cfg.trapWord) ∧
  (∀ s t : State, LifecycleInv s → step s = .next t → t.owner.isSome = true →
    ∀ a, ownerOf t a = none → romWord t a = t.cfg.trapWord) ∧
  (∀ (s t : State) (v : Variant), exec (.generate v) s = .next t →
    t.owner.isSome = true ∧ ∀ a, ownerOf t a = none → romWord t a = t.cfg.trapWord) ∧
  (∀ s : State, s.stage = .filled → exec .fill s = .fault (.stageViolation .fill .filled))

/-- R22, R35: no step changes a parameter, and no transition leads back to an earlier stage. -/
def Obligations.StagesOnlyAdvanceAndParametersStay : Prop :=
  ∀ s t : State, step s = .next t → t.cfg = s.cfg ∧ stageRank s.stage ≤ stageRank t.stage

/-- Every step keeps the invariant of the lifecycle: the memory's canonical form, the shape of table and owner map in
each stage (R34, R137, R150), the sequencer's (R28) and the outputs' (R34, R146). -/
def Obligations.EveryStepKeepsTheInvariant : Prop :=
  ∀ s t : State, LifecycleInv s → step s = .next t → LifecycleInv t

/-- The start of generation meets the invariant (R205), under every parameter, the reset state's among them. -/
def Obligations.ResetMeetsTheInvariant : Prop :=
  (∀ cfg, LifecycleInv (State.resetWith cfg)) ∧ LifecycleInv State.reset ∧ State.reset.stage = .unallocated ∧
    State.reset.seq.phase = 0 ∧ State.reset.cw = none ∧ State.reset.owner = none ∧ ∀ a, entry State.reset a = none

/-- R7, R170: the reset state's parameters, defaults of the spec and free values, meet every constraint, whatever the
free values are (logs 4 to 10). -/
def Obligations.ResetParametersMeetTheirConstraints : Prop :=
  paramsOk State.reset.cfg = true ∧ contentOk State.reset.cfg .full = true ∧ contentOk State.reset.cfg .mini = true

/-! ### Inputs, decoding, encoding -/

/-- The model's way to run a request (log 11, log 13, log 15): the oldest one is decoded and run when the sequencer is not
busy, and also when it is and the request presents the very address of its next lookup. -/
def Obligations.StepRunsTheDecodedRequest : Prop :=
  ∀ (s : State) (bytes : List Byte) (rest : List Input) (i : Instr),
    s.inputs = .request bytes :: rest → decode bytes = .ok i → i.wellFormed = true →
    (s.seq.busy = false ∨ presents s.variant i = some (s.seq.phase, s.seq.instr)) →
    step s = exec i (s.setInputs rest)

/-- R28: while the sequencer is busy, and the oldest input is neither a CPU reset nor a request for that very lookup, the
step is its own lookup: the second word of the instruction at phase 1, and otherwise the trap word's entry again; the
inputs wait (log 15). -/
def Obligations.BusySequencerLooksUpNext : Prop :=
  ∀ s : State, s.seq.busy = true → noResetNext s = true → namesNext s = false →
    (s.seq.phase = 1 → step s = exec (.twoWordSecond s.seq.instr) s) ∧
    (s.seq.phase = 0 → s.variant = .full → step s = exec (.trap 0 s.seq.instr) s) ∧
    (s.seq.phase = 0 → s.variant = .mini → step s = exec (.trapMini 0 (s.seq.instr.setWidth 8)) s)

/-- R34, R206, R207 (decision D19; log 27): a CPU reset keeps every entry, the stage and the outputs, and starts an
instruction at phase 0; the finished table has no owner map afterwards, and a table under construction keeps its own. -/
def Obligations.CpuResetKeepsTheTable : Prop :=
  ∀ (s : State) (rest : List Input), s.inputs = .cpuReset :: rest →
    ∃ t, step s = .next t ∧ t.seq.phase = 0 ∧ t.seq.busy = false ∧ (∀ a, entry t a = entry s a) ∧
      t.owner = (if s.stage = .frozen then none else s.owner) ∧ t.stage = s.stage ∧ t.variant = s.variant ∧
      t.cfg = s.cfg ∧ t.cw = s.cw ∧ t.result = s.result ∧ t.image = s.image ∧ t.inputs = rest

/-- The request of an instruction is the model's (log 11): decoding the request of a well-formed instruction gives it
back, with every operand. -/
def Obligations.DecodeReturnsTheEncodedInstruction : Prop :=
  ∀ i : Instr, i.wellFormed = true → decode (encode i) = .ok i

/-- A bare 32-bit word of the table is read as PACK of its 21 slices: packing them gives the word back (R60, R111). -/
def Obligations.BareControlWordIsItsFields : Prop :=
  ∀ w : Word, ∃ m, decodeTableWord 32 w.toNat = some (.pack m) ∧ (m.map (·.1)) = Field.all ∧
    pack defaultSchema m = .ok w

/-- Every bare 12-bit address is read as an entry row whose word it is: no bit is dropped (log 11). -/
def Obligations.BareAddressKeepsEveryBit : Prop :=
  ∀ x : BitVec 12, ∃ i, decodeTableWord 16 x.toNat = some i ∧ isEntryRow12 i = true ∧ rowWord i = x.setWidth 32

/-- Words written out from the table's encodings, as bare words (log 11), decode to the rows they stand for: `0x060` =
`00 000 11 0 000 0`, `0x380` = `0 0111 000 000 0`, `0x812` = `1 00000010010`, `0x71D` = `0111 0 001 110 1`,
`0x02028000` = the load's three fields (R157), `15` = `001 111`, which is no pair and so a pair number. -/
def Obligations.TableWordsDecodeToTheirRows : Prop :=
  decodeTableWord 16 0x060 = some (.escRegAA 0 0 0 0) ∧
  decodeTableWord 16 0x380 = some (.aGroup7 0 0 0 0) ∧
  decodeTableWord 16 0x812 = some (.twoWordSecond 0x012) ∧
  decodeTableWord 16 0x71D = some (.escRegAB 0 1 6 1) ∧
  decodeTableWord 8 15 = some (.pairUnpack 15) ∧
  (decodeTableWord 32 0x02028000).map rowWord = some 0x02028000
end

