-- ==== Sys2Proof/Laws/State.lean ====
section
/-! SUPPORT. One lemma per field per update of the state, true by rfl. -/

namespace Sys2Proof.Machine

/-! ### setResult -/

@[simp] theorem setResult_cfg (s : State) (r : Result) : (s.setResult r).cfg = s.cfg := rfl
@[simp] theorem setResult_variant (s : State) (r : Result) : (s.setResult r).variant = s.variant := rfl
@[simp] theorem setResult_stage (s : State) (r : Result) : (s.setResult r).stage = s.stage := rfl
@[simp] theorem setResult_rom (s : State) (r : Result) : (s.setResult r).rom = s.rom := rfl
@[simp] theorem setResult_owner (s : State) (r : Result) : (s.setResult r).owner = s.owner := rfl
@[simp] theorem setResult_cw (s : State) (r : Result) : (s.setResult r).cw = s.cw := rfl
@[simp] theorem setResult_seq (s : State) (r : Result) : (s.setResult r).seq = s.seq := rfl
@[simp] theorem setResult_result (s : State) (r : Result) : (s.setResult r).result = r := rfl
@[simp] theorem setResult_image (s : State) (r : Result) : (s.setResult r).image = s.image := rfl
@[simp] theorem setResult_inputs (s : State) (r : Result) : (s.setResult r).inputs = s.inputs := rfl

/-! ### setCw -/

@[simp] theorem setCw_cfg (s : State) (w : Word) : (s.setCw w).cfg = s.cfg := rfl
@[simp] theorem setCw_variant (s : State) (w : Word) : (s.setCw w).variant = s.variant := rfl
@[simp] theorem setCw_stage (s : State) (w : Word) : (s.setCw w).stage = s.stage := rfl
@[simp] theorem setCw_rom (s : State) (w : Word) : (s.setCw w).rom = s.rom := rfl
@[simp] theorem setCw_owner (s : State) (w : Word) : (s.setCw w).owner = s.owner := rfl
@[simp] theorem setCw_cw (s : State) (w : Word) : (s.setCw w).cw = some w := rfl
@[simp] theorem setCw_seq (s : State) (w : Word) : (s.setCw w).seq = s.seq := rfl
@[simp] theorem setCw_result (s : State) (w : Word) : (s.setCw w).result = s.result := rfl
@[simp] theorem setCw_image (s : State) (w : Word) : (s.setCw w).image = s.image := rfl
@[simp] theorem setCw_inputs (s : State) (w : Word) : (s.setCw w).inputs = s.inputs := rfl

/-! ### setSeq -/

@[simp] theorem setSeq_cfg (s : State) (q : Sequencer) : (s.setSeq q).cfg = s.cfg := rfl
@[simp] theorem setSeq_variant (s : State) (q : Sequencer) : (s.setSeq q).variant = s.variant := rfl
@[simp] theorem setSeq_stage (s : State) (q : Sequencer) : (s.setSeq q).stage = s.stage := rfl
@[simp] theorem setSeq_rom (s : State) (q : Sequencer) : (s.setSeq q).rom = s.rom := rfl
@[simp] theorem setSeq_owner (s : State) (q : Sequencer) : (s.setSeq q).owner = s.owner := rfl
@[simp] theorem setSeq_cw (s : State) (q : Sequencer) : (s.setSeq q).cw = s.cw := rfl
@[simp] theorem setSeq_seq (s : State) (q : Sequencer) : (s.setSeq q).seq = q := rfl
@[simp] theorem setSeq_result (s : State) (q : Sequencer) : (s.setSeq q).result = s.result := rfl
@[simp] theorem setSeq_image (s : State) (q : Sequencer) : (s.setSeq q).image = s.image := rfl
@[simp] theorem setSeq_inputs (s : State) (q : Sequencer) : (s.setSeq q).inputs = s.inputs := rfl

/-! ### setStage -/

@[simp] theorem setStage_cfg (s : State) (g : Stage) : (s.setStage g).cfg = s.cfg := rfl
@[simp] theorem setStage_variant (s : State) (g : Stage) : (s.setStage g).variant = s.variant := rfl
@[simp] theorem setStage_stage (s : State) (g : Stage) : (s.setStage g).stage = g := rfl
@[simp] theorem setStage_rom (s : State) (g : Stage) : (s.setStage g).rom = s.rom := rfl
@[simp] theorem setStage_owner (s : State) (g : Stage) : (s.setStage g).owner = s.owner := rfl
@[simp] theorem setStage_cw (s : State) (g : Stage) : (s.setStage g).cw = s.cw := rfl
@[simp] theorem setStage_seq (s : State) (g : Stage) : (s.setStage g).seq = s.seq := rfl
@[simp] theorem setStage_result (s : State) (g : Stage) : (s.setStage g).result = s.result := rfl
@[simp] theorem setStage_image (s : State) (g : Stage) : (s.setStage g).image = s.image := rfl
@[simp] theorem setStage_inputs (s : State) (g : Stage) : (s.setStage g).inputs = s.inputs := rfl

/-! ### setTable -/

@[simp] theorem setTable_cfg (s : State) (m : Cells Word) (o : Option (Cells RuleId)) : (s.setTable m o).cfg = s.cfg := rfl
@[simp] theorem setTable_variant (s : State) (m : Cells Word) (o : Option (Cells RuleId)) : (s.setTable m o).variant = s.variant := rfl
@[simp] theorem setTable_stage (s : State) (m : Cells Word) (o : Option (Cells RuleId)) : (s.setTable m o).stage = s.stage := rfl
@[simp] theorem setTable_rom (s : State) (m : Cells Word) (o : Option (Cells RuleId)) : (s.setTable m o).rom = m := rfl
@[simp] theorem setTable_owner (s : State) (m : Cells Word) (o : Option (Cells RuleId)) : (s.setTable m o).owner = o := rfl
@[simp] theorem setTable_cw (s : State) (m : Cells Word) (o : Option (Cells RuleId)) : (s.setTable m o).cw = s.cw := rfl
@[simp] theorem setTable_seq (s : State) (m : Cells Word) (o : Option (Cells RuleId)) : (s.setTable m o).seq = s.seq := rfl
@[simp] theorem setTable_result (s : State) (m : Cells Word) (o : Option (Cells RuleId)) : (s.setTable m o).result = s.result := rfl
@[simp] theorem setTable_image (s : State) (m : Cells Word) (o : Option (Cells RuleId)) : (s.setTable m o).image = s.image := rfl
@[simp] theorem setTable_inputs (s : State) (m : Cells Word) (o : Option (Cells RuleId)) : (s.setTable m o).inputs = s.inputs := rfl

/-! ### setVariant -/

@[simp] theorem setVariant_cfg (s : State) (v : Variant) : (s.setVariant v).cfg = s.cfg := rfl
@[simp] theorem setVariant_variant (s : State) (v : Variant) : (s.setVariant v).variant = v := rfl
@[simp] theorem setVariant_stage (s : State) (v : Variant) : (s.setVariant v).stage = s.stage := rfl
@[simp] theorem setVariant_rom (s : State) (v : Variant) : (s.setVariant v).rom = s.rom := rfl
@[simp] theorem setVariant_owner (s : State) (v : Variant) : (s.setVariant v).owner = s.owner := rfl
@[simp] theorem setVariant_cw (s : State) (v : Variant) : (s.setVariant v).cw = s.cw := rfl
@[simp] theorem setVariant_seq (s : State) (v : Variant) : (s.setVariant v).seq = s.seq := rfl
@[simp] theorem setVariant_result (s : State) (v : Variant) : (s.setVariant v).result = s.result := rfl
@[simp] theorem setVariant_image (s : State) (v : Variant) : (s.setVariant v).image = s.image := rfl
@[simp] theorem setVariant_inputs (s : State) (v : Variant) : (s.setVariant v).inputs = s.inputs := rfl

/-! ### setImage -/

@[simp] theorem setImage_cfg (s : State) (b : List Byte) : (s.setImage b).cfg = s.cfg := rfl
@[simp] theorem setImage_variant (s : State) (b : List Byte) : (s.setImage b).variant = s.variant := rfl
@[simp] theorem setImage_stage (s : State) (b : List Byte) : (s.setImage b).stage = s.stage := rfl
@[simp] theorem setImage_rom (s : State) (b : List Byte) : (s.setImage b).rom = s.rom := rfl
@[simp] theorem setImage_owner (s : State) (b : List Byte) : (s.setImage b).owner = s.owner := rfl
@[simp] theorem setImage_cw (s : State) (b : List Byte) : (s.setImage b).cw = s.cw := rfl
@[simp] theorem setImage_seq (s : State) (b : List Byte) : (s.setImage b).seq = s.seq := rfl
@[simp] theorem setImage_result (s : State) (b : List Byte) : (s.setImage b).result = s.result := rfl
@[simp] theorem setImage_image (s : State) (b : List Byte) : (s.setImage b).image = some b := rfl
@[simp] theorem setImage_inputs (s : State) (b : List Byte) : (s.setImage b).inputs = s.inputs := rfl

/-! ### setInputs -/

@[simp] theorem setInputs_cfg (s : State) (l : List Input) : (s.setInputs l).cfg = s.cfg := rfl
@[simp] theorem setInputs_variant (s : State) (l : List Input) : (s.setInputs l).variant = s.variant := rfl
@[simp] theorem setInputs_stage (s : State) (l : List Input) : (s.setInputs l).stage = s.stage := rfl
@[simp] theorem setInputs_rom (s : State) (l : List Input) : (s.setInputs l).rom = s.rom := rfl
@[simp] theorem setInputs_owner (s : State) (l : List Input) : (s.setInputs l).owner = s.owner := rfl
@[simp] theorem setInputs_cw (s : State) (l : List Input) : (s.setInputs l).cw = s.cw := rfl
@[simp] theorem setInputs_seq (s : State) (l : List Input) : (s.setInputs l).seq = s.seq := rfl
@[simp] theorem setInputs_result (s : State) (l : List Input) : (s.setInputs l).result = s.result := rfl
@[simp] theorem setInputs_image (s : State) (l : List Input) : (s.setInputs l).image = s.image := rfl
@[simp] theorem setInputs_inputs (s : State) (l : List Input) : (s.setInputs l).inputs = l := rfl

/-! ### The start of generation -/

@[simp] theorem resetWith_cfg (cfg : Params) : (State.resetWith cfg).cfg = cfg := rfl
@[simp] theorem resetWith_stage (cfg : Params) : (State.resetWith cfg).stage = .unallocated := rfl
@[simp] theorem resetWith_rom (cfg : Params) : (State.resetWith cfg).rom = [] := rfl
@[simp] theorem resetWith_owner (cfg : Params) : (State.resetWith cfg).owner = none := rfl

end Sys2Proof.Machine
end

