-- ==== Sys2Proof/Laws/Memory.lean ====
section
/-! SUPPORT. The laws of the sparse maps: a read after a write, and the canonical form, which every operation on the
table keeps. -/

namespace Sys2Proof.Machine

variable {α : Type}

/-! ### Reads after writes -/

/-- The value just listed is the one read. -/
@[simp] theorem cellAt_putCell_self (m : Cells α) (a : Nat) (v : α) : cellAt (putCell m a v) a = some v := by
  induction m with
  | nil => simp [putCell, cellAt]
  | cons c m ih =>
    obtain ⟨b, u⟩ := c
    simp only [putCell]
    split
    · simp [cellAt]
    · split
      · simp [cellAt]
      · simp [cellAt, *]

/-- Every other index reads as before. -/
theorem cellAt_putCell_of_ne (m : Cells α) {a x : Nat} (v : α) (h : x ≠ a) :
    cellAt (putCell m a v) x = cellAt m x := by
  induction m with
  | nil => simp [putCell, cellAt, h]
  | cons c m ih =>
    obtain ⟨b, u⟩ := c
    simp only [putCell]
    split
    · simp [cellAt, h]
    · split
      · next hab => simp [cellAt, h, ← hab]
      · simp only [cellAt, ih]

/-- Unlisting an index leaves every other one. -/
theorem cellAt_dropCell_of_ne (m : Cells α) {a x : Nat} (h : x ≠ a) : cellAt (dropCell m a) x = cellAt m x := by
  induction m with
  | nil => simp [dropCell, cellAt]
  | cons c m ih =>
    obtain ⟨b, u⟩ := c
    simp only [dropCell]
    split
    · next hab => simp [cellAt, ← hab, h]
    · simp only [cellAt, ih]

/-- Nothing is listed below the bound from which a map rises. -/
theorem cellAt_of_risingFrom {m : Cells α} {lo a : Nat} (hm : risingFrom lo m = true) (ha : a < lo) :
    cellAt m a = none := by
  induction m generalizing lo with
  | nil => simp [cellAt]
  | cons c m ih =>
    obtain ⟨b, u⟩ := c
    simp only [risingFrom, Bool.and_eq_true, decide_eq_true_eq] at hm
    have hne : a ≠ b := by omega
    simp only [cellAt, hne, if_false]
    exact ih hm.2 (by omega)

/-- In a rising map an unlisted index reads as nothing. -/
theorem cellAt_dropCell_self {m : Cells α} {lo : Nat} (a : Nat) (hm : risingFrom lo m = true) :
    cellAt (dropCell m a) a = none := by
  induction m generalizing lo with
  | nil => simp [dropCell, cellAt]
  | cons c m ih =>
    obtain ⟨b, u⟩ := c
    simp only [risingFrom, Bool.and_eq_true, decide_eq_true_eq] at hm
    simp only [dropCell]
    split
    · next hab => exact cellAt_of_risingFrom hm.2 (by omega)
    · next hab => simp only [cellAt, hab, if_false]; exact ih hm.2

/-! ### The canonical form -/

/-- A map that rises from a bound rises from every lower one. -/
theorem risingFrom_mono {m : Cells α} {lo lo' : Nat} (h : lo' ≤ lo) (hm : risingFrom lo m = true) :
    risingFrom lo' m = true := by
  cases m with
  | nil => rfl
  | cons c m =>
    obtain ⟨b, u⟩ := c
    simp only [risingFrom, Bool.and_eq_true, decide_eq_true_eq] at hm ⊢
    exact ⟨by omega, hm.2⟩

theorem risingFrom_putCell {m : Cells α} {lo a : Nat} (v : α) (ha : lo ≤ a) (hm : risingFrom lo m = true) :
    risingFrom lo (putCell m a v) = true := by
  induction m generalizing lo with
  | nil => simp [putCell, risingFrom, ha]
  | cons c m ih =>
    obtain ⟨b, u⟩ := c
    simp only [risingFrom, Bool.and_eq_true, decide_eq_true_eq] at hm
    simp only [putCell]
    split
    · next hab => simp only [risingFrom, Bool.and_eq_true, decide_eq_true_eq]; exact ⟨ha, by omega, hm.2⟩
    · split
      · next hab => subst hab; simp only [risingFrom, Bool.and_eq_true, decide_eq_true_eq]; exact ⟨ha, hm.2⟩
      · simp only [risingFrom, Bool.and_eq_true, decide_eq_true_eq]
        exact ⟨hm.1, ih (by omega) hm.2⟩

theorem risingFrom_dropCell {m : Cells α} {lo : Nat} (a : Nat) (hm : risingFrom lo m = true) :
    risingFrom lo (dropCell m a) = true := by
  induction m generalizing lo with
  | nil => rfl
  | cons c m ih =>
    obtain ⟨b, u⟩ := c
    simp only [risingFrom, Bool.and_eq_true, decide_eq_true_eq] at hm
    simp only [dropCell]
    split
    · exact risingFrom_mono (by omega) hm.2
    · simp only [risingFrom, Bool.and_eq_true, decide_eq_true_eq]; exact ⟨hm.1, ih hm.2⟩

/-- A cell of the map after a write is the written one or was there before. -/
theorem mem_putCell {m : Cells α} {a : Nat} {v : α} {c : Nat × α} (h : c ∈ putCell m a v) : c = (a, v) ∨ c ∈ m := by
  induction m with
  | nil => simpa [putCell] using h
  | cons d m ih =>
    obtain ⟨b, u⟩ := d
    simp only [putCell] at h
    split at h
    · simpa using h
    · split at h
      · rcases List.mem_cons.mp h with h | h
        · exact .inl h
        · exact .inr (List.mem_cons_of_mem _ h)
      · rcases List.mem_cons.mp h with h | h
        · exact .inr (by simp [h])
        · exact (ih h).imp id (List.mem_cons_of_mem _)

/-- Unlisting adds no cell. -/
theorem mem_of_mem_dropCell {m : Cells α} {a : Nat} {c : Nat × α} (h : c ∈ dropCell m a) : c ∈ m := by
  induction m with
  | nil => simp [dropCell] at h
  | cons d m ih =>
    obtain ⟨b, u⟩ := d
    simp only [dropCell] at h
    split at h
    · exact List.mem_cons_of_mem _ h
    · rcases List.mem_cons.mp h with h | h
      · simp [h]
      · exact List.mem_cons_of_mem _ (ih h)

/-- The canonical form, spelled out. -/
theorem tableWf_iff {trap : Word} {n : Nat} {m : Cells Word} :
    tableWf trap n m = true ↔ risingFrom 0 m = true ∧ ∀ c ∈ m, c.1 < n ∧ c.2 ≠ trap := by
  simp [tableWf, Bool.and_eq_true, List.all_eq_true]

/-- The owner map's form, spelled out. -/
theorem ownersWf_iff {n : Nat} {m : Cells RuleId} :
    ownersWf n m = true ↔ risingFrom 0 m = true ∧ ∀ c ∈ m, c.1 < n := by
  simp [ownersWf, Bool.and_eq_true, List.all_eq_true]

@[simp] theorem tableWf_nil (trap : Word) (n : Nat) : tableWf trap n [] = true := rfl

@[simp] theorem ownersWf_nil (n : Nat) : ownersWf n [] = true := rfl

/-- A write keeps the table's canonical form. -/
theorem tableWf_writeWord {trap : Word} {n : Nat} {m : Cells Word} {a : Nat} (w : Word) (ha : a < n)
    (hm : tableWf trap n m = true) : tableWf trap n (writeWord trap m a w) = true := by
  rw [tableWf_iff] at hm ⊢
  unfold writeWord
  split
  · exact ⟨risingFrom_dropCell a hm.1, fun c hc => hm.2 c (mem_of_mem_dropCell hc)⟩
  · next hw =>
    refine ⟨risingFrom_putCell w (Nat.zero_le _) hm.1, fun c hc => ?_⟩
    rcases mem_putCell hc with rfl | hc
    · exact ⟨ha, hw⟩
    · exact hm.2 c hc

/-- A claim keeps the owner map's form. -/
theorem ownersWf_putCell {n : Nat} {m : Cells RuleId} {a : Nat} (id : RuleId) (ha : a < n)
    (hm : ownersWf n m = true) : ownersWf n (putCell m a id) = true := by
  rw [ownersWf_iff] at hm ⊢
  refine ⟨risingFrom_putCell id (Nat.zero_le _) hm.1, fun c hc => ?_⟩
  rcases mem_putCell hc with rfl | hc
  · exact ha
  · exact hm.2 c hc

/-- The word just written is the one read. -/
theorem readWord_writeWord_self {trap : Word} {n : Nat} {m : Cells Word} (a : Nat) (w : Word)
    (hm : tableWf trap n m = true) : readWord trap (writeWord trap m a w) a = w := by
  unfold readWord writeWord
  split
  · next hw => rw [cellAt_dropCell_self a (tableWf_iff.mp hm).1, hw]; rfl
  · rw [cellAt_putCell_self]; rfl

/-- Every other entry reads as before. -/
theorem readWord_writeWord_of_ne {trap : Word} (m : Cells Word) {a x : Nat} (w : Word) (h : x ≠ a) :
    readWord trap (writeWord trap m a w) x = readWord trap m x := by
  unfold readWord writeWord
  split
  · rw [cellAt_dropCell_of_ne m h]
  · rw [cellAt_putCell_of_ne m w h]

/-! ### Tables made from words -/

theorem risingFrom_tableOfWords (trap : Word) (a : Nat) (ws : List Word) :
    risingFrom a (tableOfWords trap a ws) = true := by
  induction ws generalizing a with
  | nil => rfl
  | cons w ws ih =>
    simp only [tableOfWords]
    split
    · exact risingFrom_mono (Nat.le_succ a) (ih (a + 1))
    · simp [risingFrom, ih (a + 1)]

theorem mem_tableOfWords {trap : Word} {a : Nat} {ws : List Word} {c : Nat × Word}
    (h : c ∈ tableOfWords trap a ws) : c.1 < a + ws.length ∧ c.2 ≠ trap := by
  induction ws generalizing a with
  | nil => simp [tableOfWords] at h
  | cons w ws ih =>
    simp only [tableOfWords] at h
    split at h
    · have := ih h; simp only [List.length_cons]; exact ⟨by omega, this.2⟩
    · next hw =>
      rcases List.mem_cons.mp h with rfl | h
      · simp [hw]
      · have := ih h; simp only [List.length_cons]; exact ⟨by omega, this.2⟩

theorem length_imageWords (big : Bool) (l : List Byte) : 4 * (imageWords big l).length ≤ l.length := by
  match l with
  | [] => simp [imageWords]
  | [_] => simp [imageWords]
  | [_, _] => simp [imageWords]
  | [_, _, _] => simp [imageWords]
  | b0 :: b1 :: b2 :: b3 :: rest =>
    have := length_imageWords big rest
    simp only [imageWords, List.length_cons]
    omega

/-- The table of an image of a variant's length is in canonical form. -/
theorem tableWf_image (trap : Word) {n : Nat} (big : Bool) {l : List Byte} (h : l.length = 4 * n) :
    tableWf trap n (tableOfWords trap 0 (imageWords big l)) = true := by
  rw [tableWf_iff]
  refine ⟨risingFrom_tableOfWords trap 0 _, fun c hc => ?_⟩
  have hl := length_imageWords big l
  have := mem_tableOfWords hc
  exact ⟨by omega, this.2⟩

/-! ### The state's table -/

/-- A claim inside the table keeps the state's canonical form. -/
theorem Memory.wf_claim {s : State} {a : Nat} (w : Word) (id : RuleId) (ha : a < s.variant.size)
    (hs : Memory.wf s = true) : Memory.wf (claim s a w id) = true := by
  simp only [Memory.wf, claim, setTable_cfg, setTable_variant, setTable_rom]
  exact tableWf_writeWord w ha hs

/-- The claimed entry reads the word written. -/
theorem romWord_claim_self {s : State} (a : Nat) (w : Word) (id : RuleId) (hs : Memory.wf s = true) :
    romWord (claim s a w id) a = w :=
  readWord_writeWord_self a w hs

/-- Every other entry reads as before. -/
theorem romWord_claim_of_ne (s : State) {a x : Nat} (w : Word) (id : RuleId) (h : x ≠ a) :
    romWord (claim s a w id) x = romWord s x :=
  readWord_writeWord_of_ne s.rom w h

/-- The claimed entry is owned by the claiming rule. -/
@[simp] theorem ownerOf_claim_self (s : State) (a : Nat) (w : Word) (id : RuleId) :
    ownerOf (claim s a w id) a = some id := by
  simp [ownerOf, claim]

/-- Every other entry keeps its owner. -/
theorem ownerOf_claim_of_ne (s : State) {a x : Nat} (w : Word) (id : RuleId) (h : x ≠ a) :
    ownerOf (claim s a w id) x = ownerOf s x := by
  simp [ownerOf, claim, cellAt_putCell_of_ne _ _ h]

/-- The memory of the start of generation is in canonical form. -/
theorem Memory.wf_resetWith (cfg : Params) : Memory.wf (State.resetWith cfg) = true := rfl

end Sys2Proof.Machine
end

