-- ==== Sys2Proof/Laws/Operands.lean ====
section
/-! SUPPORT. What PACK and first match can do, once each. -/

namespace Sys2Proof.Machine

/-- PACK answers a word when every value fits its field. -/
theorem pack_eq_ok {S : Schema} {m : FieldMap} (h : ∀ e ∈ S, fieldValue m e.field < 2 ^ e.width) :
    ∃ w, pack S m = .ok w := by
  induction S with
  | nil => exact ⟨_, rfl⟩
  | cons e S ih =>
    obtain ⟨w, hw⟩ := ih fun d hd => h d (List.mem_cons_of_mem _ hd)
    have he := h e (List.mem_cons_self ..)
    exact ⟨_, by simp only [pack, he, if_true, hw]; rfl⟩

/-- A word is packed from values that fit their fields. -/
theorem fits_of_pack {S : Schema} {m : FieldMap} {w : Word} (h : pack S m = .ok w) :
    ∀ e ∈ S, fieldValue m e.field < 2 ^ e.width := by
  induction S generalizing w with
  | nil => simp
  | cons e S ih =>
    simp only [pack] at h
    split at h
    · next hlt =>
      split at h
      · next w' hw' =>
        intro d hd
        rcases List.mem_cons.mp hd with rfl | hd
        · exact hlt
        · exact ih hw' d hd
      · cases h
    · cases h

/-- A bit of a packed word is 1 exactly when some field's value, shifted to its offset, has it. -/
theorem getLsbD_of_pack {S : Schema} {m : FieldMap} {w : Word} (h : pack S m = .ok w) {k : Nat} (hk : k < 32) :
    w.getLsbD k = true ↔ ∃ e ∈ S, e.offset ≤ k ∧ (fieldValue m e.field).testBit (k - e.offset) = true := by
  induction S generalizing w with
  | nil => simp only [pack, Except.ok.injEq] at h; subst h; simp
  | cons e S ih =>
    simp only [pack] at h
    split at h
    · split at h
      · next w' hw' =>
        simp only [Except.ok.injEq] at h
        subst h
        simp only [BitVec.getLsbD_or, BitVec.getLsbD_shiftLeft, BitVec.getLsbD_ofNat, Bool.or_eq_true, ih hw',
          List.exists_mem_cons_iff]
        simp only [hk, decide_true, Bool.true_and, Bool.and_eq_true, Bool.not_eq_true', decide_eq_false_iff_not,
          decide_eq_true_eq, not_lt]
        constructor
        · rintro (h | h)
          · exact .inl ⟨by omega, h.2.2⟩
          · exact .inr h
        · rintro (h | h)
          · exact .inl ⟨by omega, by omega, h.2⟩
          · exact .inr h
      · cases h
    · cases h

/-- First match looks at the head of the list, then at the rest (R141). -/
theorem firstMatch_cons (cfg : Params) (c : Combo) (r : Rule) (rs : List Rule) :
    firstMatch cfg c (r :: rs) =
      match ruleEmission cfg c r with
      | some e => some (r.id, e)
      | none => firstMatch cfg c rs := rfl

end Sys2Proof.Machine
end

