-- ==== Sys2Proof/Laws/Ops.lean ====
section
/-! SUPPORT. One lemma per shared operation, which says once everything the operation can do, and that it keeps the
memory's canonical form. -/

namespace Sys2Proof.Machine

/-! ### Sequencing of operations -/

@[simp] theorem andThen_next (s : State) (f : State → Outcome) : andThen (.next s) f = f s := rfl
@[simp] theorem andThen_fault (r : Fault) (f : State → Outcome) : andThen (.fault r) f = .fault r := rfl
@[simp] theorem andThen_refused (r : Refusal) (f : State → Outcome) : andThen (.refused r) f = .refused r := rfl

/-- A sequence answers a next state exactly when both parts do. -/
theorem andThen_eq_next {o : Outcome} {f : State → Outcome} {t : State} :
    andThen o f = .next t ↔ ∃ s, o = .next s ∧ f s = .next t := by
  cases o <;> simp

/-- A construction step answers its state with the answer `done`. -/
theorem done_eq_next {o : Outcome} {t : State} : done o = .next t ↔ ∃ s, o = .next s ∧ t = s.setResult .done := by
  unfold done
  rw [andThen_eq_next]
  constructor <;> rintro ⟨s, h, h'⟩
  · exact ⟨s, h, by simpa using h'.symm⟩
  · exact ⟨s, h, by rw [h']⟩

/-! ### Construction -/

theorem allocTable_eq_next {v : Variant} {s t : State} :
    allocTable v s = .next t ↔
      s.stage = .unallocated ∧ t = ((s.setVariant v).setTable [] none).setStage .allocated := by
  unfold allocTable
  split <;> simp_all [eq_comm]

theorem fillTable_eq_next {s t : State} :
    fillTable s = .next t ↔ s.stage = .allocated ∧ t = (s.setTable [] (some [])).setStage .filled := by
  unfold fillTable
  split <;> simp_all [eq_comm]

theorem writeOne_eq_next {a : Nat} {w : Word} {id : RuleId} {s t : State} :
    writeOne a w id s = .next t ↔ s.stage = .filled ∧ ownerOf s a = none ∧ t = claim s a w id := by
  unfold writeOne
  split
  · next hs =>
    split
    · next ho => simp [hs, ho, eq_comm]
    · next holder ho => simp [ho]
  · next hs => simp [hs]

theorem writeTwo_eq_next {a : Nat} {w0 w1 : Word} {id : RuleId} {s t : State} :
    writeTwo a w0 w1 id s = .next t ↔
      (s.stage = .filled ∧ a < s.variant.half) ∧ ownerOf s a = none ∧ ownerOf s (a + s.variant.half) = none ∧
        t = claim (claim s a w0 id) (a + s.variant.half) w1 id := by
  unfold writeTwo
  split
  · next hs =>
    split
    · next holder ho => simp [ho]
    · next ho =>
      split
      · next holder hp => simp [hp]
      · next hp => simp [hs, ho, hp, eq_comm]
  · next h => simp [h]

/-- One visit of the pass leaves the state, writes one word, or writes two (R140). -/
theorem visit_cases {s t : State} {c : Combo × Nat} (h : visit s c = .next t) :
    (firstMatch s.cfg c.1 (s.cfg.rules s.variant) = none ∧ t = s) ∨
    (∃ id m w, firstMatch s.cfg c.1 (s.cfg.rules s.variant) = some (id, .one m) ∧ pack s.cfg.schema m = .ok w ∧
      writeOne c.2 w id s = .next t) ∨
    (∃ id m0 m1 w0 w1, firstMatch s.cfg c.1 (s.cfg.rules s.variant) = some (id, .two m0 m1) ∧
      pack s.cfg.schema m0 = .ok w0 ∧ pack s.cfg.schema m1 = .ok w1 ∧ writeTwo c.2 w0 w1 id s = .next t) := by
  unfold visit at h
  split at h
  · next hm => exact .inl ⟨hm, by simpa using h.symm⟩
  · next id m hm =>
    split at h
    · next w hw => exact .inr (.inl ⟨id, m, w, hm, hw, h⟩)
    · cases h
  · next id m0 m1 hm =>
    split at h
    · cases h
    · next w0 hw0 =>
      split at h
      · cases h
      · next w1 hw1 => exact .inr (.inr ⟨id, m0, m1, w0, w1, hm, hw0, hw1, h⟩)

/-- A property that every visit to a slot of a list keeps holds after all of them. -/
theorem visitAll_induction {P : State → Prop} {cs : List (Combo × Nat)}
    (hP : ∀ c ∈ cs, ∀ s t, P s → visit s c = .next t → P t) {s t : State} (hs : P s)
    (h : visitAll cs s = .next t) : P t := by
  induction cs generalizing s with
  | nil => cases h; exact hs
  | cons c cs ih =>
    obtain ⟨u, hu, ht⟩ := andThen_eq_next.mp h
    exact ih (fun d hd => hP d (List.mem_cons_of_mem _ hd)) (hP c (List.mem_cons_self ..) s u hs hu) ht

/-- A visit keeps the parameters, the variant and the stage. -/
theorem visit_frame {s t : State} {c : Combo × Nat} (h : visit s c = .next t) :
    t.cfg = s.cfg ∧ t.variant = s.variant ∧ t.stage = s.stage ∧ t.cw = s.cw ∧ t.seq = s.seq ∧
      t.result = s.result ∧ t.image = s.image ∧ t.inputs = s.inputs := by
  rcases visit_cases h with ⟨-, rfl⟩ | ⟨id, m, w, -, -, hw⟩ | ⟨id, m0, m1, w0, w1, -, -, -, hw⟩
  · simp
  · obtain ⟨-, -, rfl⟩ := writeOne_eq_next.mp hw; simp [claim]
  · obtain ⟨-, -, -, rfl⟩ := writeTwo_eq_next.mp hw; simp [claim]

/-- The pass keeps what every visit keeps. -/
theorem visitAll_frame {cs : List (Combo × Nat)} {s t : State} (h : visitAll cs s = .next t) :
    t.cfg = s.cfg ∧ t.variant = s.variant ∧ t.stage = s.stage ∧ t.cw = s.cw ∧ t.seq = s.seq ∧
      t.result = s.result ∧ t.image = s.image ∧ t.inputs = s.inputs := by
  refine visitAll_induction (P := fun u => u.cfg = s.cfg ∧ u.variant = s.variant ∧ u.stage = s.stage ∧ u.cw = s.cw ∧
    u.seq = s.seq ∧ u.result = s.result ∧ u.image = s.image ∧ u.inputs = s.inputs) ?_ (by simp) h
  intro c _ a b ha hb
  have := visit_frame hb
  simp_all

/-- DECODE_PASS runs the visits from a filled table under a valid schema and freezes the result. -/
theorem decodeTable_eq_next {s t : State} :
    decodeTable s = .next t ↔
      schemaClause s.cfg.schema = none ∧ s.stage = .filled ∧ contentRange s.cfg (s.cfg.rules s.variant) = none ∧
        ∃ u, visitAll (slots s.cfg s.variant) s = .next u ∧ t = u.setStage .frozen := by
  unfold decodeTable
  constructor
  · intro h
    split at h
    · cases h
    · next hc =>
      split at h
      · cases h
      · split at h
        · cases h
        · next hr =>
          obtain ⟨u, hu, ht⟩ := andThen_eq_next.mp h
          split at ht
          · next hs => exact ⟨hc, (visitAll_frame hu).2.2.1.symm.trans hs, hr, u, hu, by simpa using ht.symm⟩
          · cases ht
  · rintro ⟨hc, hs, hr, u, hu, rfl⟩
    have hus : u.stage = .filled := (visitAll_frame hu).2.2.1.trans hs
    simp [hc, hs, hr, hu, hus]

theorem generateTable_eq_next {v : Variant} {s t : State} :
    generateTable v s = .next t ↔
      schemaClause s.cfg.schema = none ∧
        ∃ s1 s2, allocTable v s = .next s1 ∧ fillTable s1 = .next s2 ∧ decodeTable s2 = .next t := by
  unfold generateTable
  split
  · next c hc => simp [hc]
  · next hc =>
    simp only [andThen_eq_next, hc, true_and]
    constructor
    · rintro ⟨s1, h1, s2, h2, h3⟩; exact ⟨s1, s2, h1, h2, h3⟩
    · rintro ⟨s1, s2, h1, h2, h3⟩; exact ⟨s1, h1, s2, h2, h3⟩

/-! ### Lookups and the sequencer -/

theorem lookupAt_eq_next {v : Variant} {p : Bit} {i : Nat} {s t : State} :
    lookupAt v p i s = .next t ↔
      s.stage = .frozen ∧ s.variant = v ∧
        t = (s.setCw (romWord s (portIndex v p i))).setResult (.word (romWord s (portIndex v p i))) := by
  unfold lookupAt
  split
  · split <;> simp_all [eq_comm]
  · simp_all

theorem sequence_eq_next {p : Bit} {i : InstrBits} {w : Word} {f : Bool} {s t : State} :
    sequence p i w f s = .next t ↔
      (lineOn s.cfg.schema w .CRST = true ∧
        t = ((s.setCw w).setSeq ⟨0, i, false⟩).setResult (.entry w f)) ∨
      (lineOn s.cfg.schema w .CRST = false ∧ p = 0 ∧
        t = ((s.setCw w).setSeq ⟨1, i, true⟩).setResult (.entry w f)) := by
  unfold sequence
  split
  · next h =>
    simp only [h, true_and, Bool.true_eq_false, false_and, or_false, Host.Outcome.next.injEq]
    exact eq_comm
  · next h =>
    have h' : lineOn s.cfg.schema w .CRST = false := by simpa using h
    simp only [h', Bool.false_eq_true, false_and, false_or, true_and]
    split
    · next hp => simp only [hp, true_and, Host.Outcome.next.injEq]; exact eq_comm
    · next hp => exact ⟨(fun hf => by cases hf), fun hf => absurd hf.1 hp⟩

/-- What presenting an address can do: take the trap, end the instruction, or go on to phase 1 (R28, R168). -/
theorem present_cases {p : Bit} {i : InstrBits} {f : Bool} {s t : State} (h : present p i f s = .next t) :
    s.stage = .frozen ∧ i.toNat < s.variant.half ∧ isNextAddress s p i = true ∧
    (t = takeTrap i f s ∨
      ∃ w, cellAt s.rom (portIndex s.variant p i.toNat) = some w ∧ w ≠ s.cfg.trapWord ∧ sequence p i w f s = .next t) := by
  unfold present at h
  split at h
  · next hs =>
    split at h
    · next hi =>
      split at h
      · next hn =>
        refine ⟨hs, hi, hn, ?_⟩
        split at h
        · exact .inl (by simpa using h.symm)
        · next w hw =>
          split at h
          · exact .inl (by simpa using h.symm)
          · next hne => exact .inr ⟨w, hw, hne, h⟩
      · cases h
    · cases h
  · cases h

/-- The sequencer's next address, spelled out: fresh at phase 0, or the one a busy sequencer has fixed (R28). -/
theorem isNextAddress_iff {s : State} {p : Bit} {i : InstrBits} :
    isNextAddress s p i = true ↔
      (s.seq.busy = false ∧ p = 0) ∨ (s.seq.busy = true ∧ p = s.seq.phase ∧ i = s.seq.instr) := by
  unfold isNextAddress
  cases s.seq.busy <;> simp

/-- Presenting an address changes the port CW, the sequencer and the answer, and nothing else. -/
theorem present_frame {p : Bit} {i : InstrBits} {f : Bool} {s t : State} (h : present p i f s = .next t) :
    t.cfg = s.cfg ∧ t.variant = s.variant ∧ t.stage = s.stage ∧ t.rom = s.rom ∧ t.owner = s.owner ∧
      t.image = s.image ∧ t.inputs = s.inputs := by
  obtain ⟨-, -, -, rfl | ⟨w, -, -, hw⟩⟩ := present_cases h
  · simp [takeTrap]
  · rcases sequence_eq_next.mp hw with ⟨-, rfl⟩ | ⟨-, -, rfl⟩ <;> simp

/-- After an address is presented the sequencer is in one of three states: the spin, the end, or phase 1 next. -/
theorem present_seq {p : Bit} {i : InstrBits} {f : Bool} {s t : State} (h : present p i f s = .next t) :
    t.seq = ⟨0, i, true⟩ ∨ t.seq = ⟨0, i, false⟩ ∨ t.seq = ⟨1, i, true⟩ := by
  obtain ⟨-, -, -, rfl | ⟨w, -, -, hw⟩⟩ := present_cases h
  · exact .inl rfl
  · rcases sequence_eq_next.mp hw with ⟨-, rfl⟩ | ⟨-, -, rfl⟩
    · exact .inr (.inl rfl)
    · exact .inr (.inr rfl)

theorem presentIn_eq_next {v : Variant} {p : Bit} {i : InstrBits} {f : Bool} {s t : State} :
    presentIn v p i f s = .next t ↔ s.variant = v ∧ present p i f s = .next t := by
  unfold presentIn
  split
  · split <;> simp_all
  · next h => simp [present, h]

/-! ### The image and the moves of the host -/

theorem serializeTable_eq_next {big : Bool} {s t : State} :
    serializeTable big s = .next t ↔
      s.stage = .frozen ∧ t = (s.setImage (imageOf big s)).setResult .done := by
  unfold serializeTable
  split <;> simp_all [eq_comm]

theorem loadImage_eq_next {v : Variant} {big : Bool} {l : List Byte} {s t : State} :
    loadImage v big l s = .next t ↔
      s.stage = .unallocated ∧ l.length = 4 * v.size ∧
        t = ((s.setVariant v).setTable (tableOfWords s.cfg.trapWord 0 (imageWords big l)) none).setStage .frozen := by
  unfold loadImage
  split
  · split <;> simp_all [eq_comm]
  · simp_all

/-! ### Every operation keeps the memory's canonical form -/

/-- The half of a variant's table is inside it. -/
theorem half_lt_size (v : Variant) : v.half < v.size := by cases v <;> decide

/-- A phase-1 slot is inside the table. -/
theorem add_half_lt_size {v : Variant} {a : Nat} (h : a < v.half) : a + v.half < v.size := by
  cases v <;> simp only [Variant.half, Variant.size, Variant.instrBits] at h ⊢ <;> omega

/-- The slots of a variant are indices of its table. -/
theorem slot_lt_size {cfg : Params} {v : Variant} {c : Combo × Nat} (h : c ∈ slots cfg v) : c.2 < v.size := by
  cases v with
  | full =>
    simp only [slots, List.mem_map] at h
    obtain ⟨k, -, rfl⟩ := h
    exact (indexOf cfg.layoutFull 0 k).isLt
  | mini =>
    simp only [slots, List.mem_map] at h
    obtain ⟨x, -, rfl⟩ := h
    exact Nat.lt_of_lt_of_le x.2.isLt (by decide)

theorem Memory.wf_allocTable {v : Variant} {s t : State} (h : allocTable v s = .next t) : Memory.wf t = true := by
  obtain ⟨-, rfl⟩ := allocTable_eq_next.mp h
  rfl

theorem Memory.wf_fillTable {s t : State} (h : fillTable s = .next t) : Memory.wf t = true := by
  obtain ⟨-, rfl⟩ := fillTable_eq_next.mp h
  rfl

theorem Memory.wf_writeOne {a : Nat} {w : Word} {id : RuleId} {s t : State} (ha : a < s.variant.size)
    (hs : Memory.wf s = true) (h : writeOne a w id s = .next t) : Memory.wf t = true := by
  obtain ⟨-, -, rfl⟩ := writeOne_eq_next.mp h
  exact Memory.wf_claim w id ha hs

theorem Memory.wf_writeTwo {a : Nat} {w0 w1 : Word} {id : RuleId} {s t : State} (hs : Memory.wf s = true)
    (h : writeTwo a w0 w1 id s = .next t) : Memory.wf t = true := by
  obtain ⟨⟨-, ha⟩, -, -, rfl⟩ := writeTwo_eq_next.mp h
  have h2 := add_half_lt_size ha
  refine Memory.wf_claim w1 id ?_ (Memory.wf_claim w0 id ?_ hs)
  · simpa [claim] using h2
  · omega

theorem Memory.wf_visit {s t : State} {c : Combo × Nat} (hc : c.2 < s.variant.size) (hs : Memory.wf s = true)
    (h : visit s c = .next t) : Memory.wf t = true := by
  rcases visit_cases h with ⟨-, rfl⟩ | ⟨id, m, w, -, -, hw⟩ | ⟨id, m0, m1, w0, w1, -, -, -, hw⟩
  · exact hs
  · exact Memory.wf_writeOne hc hs hw
  · exact Memory.wf_writeTwo hs hw

theorem Memory.wf_visitAll {cs : List (Combo × Nat)} {s t : State} (hcs : ∀ c ∈ cs, c.2 < s.variant.size)
    (hs : Memory.wf s = true) (h : visitAll cs s = .next t) : Memory.wf t = true := by
  have := visitAll_induction (P := fun u => u.variant = s.variant ∧ Memory.wf u = true) ?_ ⟨rfl, hs⟩ h
  · exact this.2
  · rintro c hc a b ⟨hv, ha⟩ hb
    exact ⟨(visit_frame hb).2.1.trans hv, Memory.wf_visit (by rw [hv]; exact hcs c hc) ha hb⟩

theorem Memory.wf_decodeTable {s t : State} (hs : Memory.wf s = true) (h : decodeTable s = .next t) :
    Memory.wf t = true := by
  obtain ⟨-, -, -, u, hu, rfl⟩ := decodeTable_eq_next.mp h
  have hu' : Memory.wf u = true := Memory.wf_visitAll (fun c hc => slot_lt_size hc) hs hu
  exact hu'

theorem Memory.wf_generateTable {v : Variant} {s t : State} (h : generateTable v s = .next t) :
    Memory.wf t = true := by
  obtain ⟨-, s1, s2, -, h2, h3⟩ := generateTable_eq_next.mp h
  exact Memory.wf_decodeTable (Memory.wf_fillTable h2) h3

theorem Memory.wf_present {p : Bit} {i : InstrBits} {f : Bool} {s t : State} (hs : Memory.wf s = true)
    (h : present p i f s = .next t) : Memory.wf t = true := by
  obtain ⟨hc, hv, -, hr, -⟩ := present_frame h
  simpa [Memory.wf, hc, hv, hr] using hs

theorem Memory.wf_lookupAt {v : Variant} {p : Bit} {i : Nat} {s t : State} (hs : Memory.wf s = true)
    (h : lookupAt v p i s = .next t) : Memory.wf t = true := by
  obtain ⟨-, -, rfl⟩ := lookupAt_eq_next.mp h
  exact hs

theorem Memory.wf_serializeTable {big : Bool} {s t : State} (hs : Memory.wf s = true)
    (h : serializeTable big s = .next t) : Memory.wf t = true := by
  obtain ⟨-, rfl⟩ := serializeTable_eq_next.mp h
  exact hs

theorem Memory.wf_loadImage {v : Variant} {big : Bool} {l : List Byte} {s t : State}
    (h : loadImage v big l s = .next t) : Memory.wf t = true := by
  obtain ⟨-, hl, rfl⟩ := loadImage_eq_next.mp h
  exact tableWf_image s.cfg.trapWord big hl

/-- A CPU reset changes the sequencer and, on a finished table, drops the owner map; nothing else (R34, R206, R207). -/
theorem cpuReset_eq (s : State) :
    cpuReset s = (s.setSeq ⟨0, s.seq.instr, false⟩).setTable s.rom (if s.stage = .frozen then none else s.owner) := by
  unfold cpuReset
  split <;> rfl

theorem Memory.wf_cpuReset {s : State} (hs : Memory.wf s = true) : Memory.wf (cpuReset s) = true := by
  rw [cpuReset_eq]; exact hs

theorem Memory.wf_setResult {s : State} (r : Result) (hs : Memory.wf s = true) :
    Memory.wf (s.setResult r) = true := hs

end Sys2Proof.Machine
end

