-- ==== Sys2Proof/Laws/Parameters.lean ====
section
/-! SUPPORT. The mini layout taken where the free one breaks the constraint of R87 meets that constraint. -/

namespace Sys2Proof.Machine

/-- The pattern `someLayoutMini` gives a combination. -/
def somePattern (c : Combo) : BitVec 8 :=
  (if c.fmt = .A then 0#1 else 1#1) ++ c.key ++ c.a.setWidth 2 ++ c.b.setWidth 2

theorem someLayoutMini_patterns : someLayoutMini.map (·.2.toNat) = List.range 256 := by decide +kernel

theorem someLayoutMini_graph : (someLayoutMini.map (·.1)).map somePattern = someLayoutMini.map (·.2) := by decide +kernel

theorem someLayoutMini_patterns_nodup : (someLayoutMini.map (·.2)).Nodup := by
  refine List.Nodup.of_map BitVec.toNat ?_
  rw [List.map_map]
  have h : someLayoutMini.map (BitVec.toNat ∘ fun x => x.2) = List.range 256 := someLayoutMini_patterns
  rw [h]
  exact List.nodup_range

theorem someLayoutMini_combos_nodup : (someLayoutMini.map (·.1)).Nodup := by
  refine List.Nodup.of_map somePattern ?_
  rw [someLayoutMini_graph]
  exact someLayoutMini_patterns_nodup

theorem someLayoutMini_length : someLayoutMini.length = 256 := by
  rw [← List.length_map (f := fun x : MiniSlot => x.2.toNat), someLayoutMini_patterns, List.length_range]

/-- The layout is injective and takes every pattern. -/
theorem miniValid_someLayoutMini : miniValid someLayoutMini = true := by
  unfold miniValid
  rw [decide_eq_true someLayoutMini_combos_nodup, decide_eq_true someLayoutMini_patterns_nodup,
    decide_eq_true someLayoutMini_length]
  rfl

end Sys2Proof.Machine
end

