-- ==== Sys2Proof/Laws/PerInstr.lean ====
section
/-! SUPPORT. Facts about every instruction as syntax, one lemma per constructor. `RowHolds`: the word of an instruction's
request belongs to the row of the opcode table that its selector names. -/

namespace Sys2Proof.Laws.RowHolds

/-- The word of a well-formed instruction belongs to its row. -/
def Statement (i : Instr) : Prop :=
  i.wellFormed = true → ∃ r, rows[selector i - 1]? = some r ∧ r.holds (rowWord i) = true

/-- A 32-bit word belongs to a row with no fixed bit that is 32 bits wide. -/
theorem holds_wide (mnemonic : String) (w : Word) : Row.holds ⟨mnemonic, 32, 0, 0⟩ w = true := by
  simp [Row.holds, w.isLt]

/-- A narrower word belongs to a row of its width that fixes no bit. -/
theorem holds_narrow (mnemonic : String) {n : Nat} (hn : n ≤ 32) (x : BitVec n) :
    Row.holds ⟨mnemonic, n, 0, 0⟩ (x.setWidth 32) = true := by
  have h : 2 ^ n ≤ 2 ^ 32 := Nat.pow_le_pow_right (by decide) hn
  simp only [Row.holds, BitVec.toNat_setWidth, Nat.and_zero, decide_true, Bool.and_true, decide_eq_true_eq]
  exact Nat.lt_of_le_of_lt (Nat.mod_le _ _) x.isLt

/-- A phase-0 address belongs to a row that fixes the phase bit at 0 and nothing else. -/
theorem holds_phase0 (mnemonic : String) (x : BitVec 12) (hx : x.toNat < 2048) :
    Row.holds ⟨mnemonic, 12, 0x800, 0⟩ (x.setWidth 32) = true := by
  have h : x.toNat &&& 2 ^ 11 = 0 := by
    rw [Nat.and_two_pow, Nat.testBit_lt_two_pow (by simpa using hx)]; rfl
  simp only [Row.holds, BitVec.toNat_setWidth, Bool.and_eq_true, decide_eq_true_eq]
  rw [Nat.mod_eq_of_lt (by omega)]
  exact ⟨x.isLt, by simpa using h⟩

/-- Eleven instruction bits below a phase bit 0 are below HALF. -/
theorem phase0_lt (i : InstrBits) : ((0#1 ++ i : BitVec 12)).toNat < 2048 := by
  have h : (0#1 ++ i : BitVec (1 + 11)).toNat = i.toNat := by rw [BitVec.toNat_append]; simp
  exact h ▸ i.isLt

theorem pack (m : FieldMap) : Statement (.pack m) :=
  fun _ => ⟨_, rfl, holds_wide _ _⟩

theorem extract (w : Word) (f : Field) : Statement (.extract w f) :=
  fun _ => ⟨_, rfl, holds_wide _ _⟩

theorem schemaValid (S : Schema) : Statement (.schemaValid S) :=
  fun _ => ⟨_, rfl, holds_wide _ _⟩

theorem indexA (p : Bit) (g : Sub3) (a : Sub3) (b : Sub3) (q : Bit) : Statement (.indexA p g a b q) := by
  refine fun _ => ⟨_, rfl, ?_⟩
  revert p g a b q
  decide +kernel

theorem indexB (p : Bit) (a : Sub3) (sub : Sub3) (b : Sub3) (q : Bit) : Statement (.indexB p a sub b q) := by
  refine fun _ => ⟨_, rfl, ?_⟩
  revert p a sub b q
  decide +kernel

theorem split (x : BitVec 12) : Statement (.split x) :=
  fun _ => ⟨_, rfl, holds_narrow _ (by decide) _⟩

theorem indexMini (p : Bit) (i : BitVec 8) : Statement (.indexMini p i) :=
  fun _ => ⟨_, rfl, holds_narrow _ (by decide) _⟩

theorem pairPack (base : Sub3) (operand : Sub3) : Statement (.pairPack base operand) :=
  fun _ => ⟨_, rfl, holds_narrow _ (by decide) _⟩

theorem pairUnpack (n : Nat) : Statement (.pairUnpack n) := by
  refine fun _ => ⟨_, rfl, ?_⟩
  have h : n % 64 < 64 := Nat.mod_lt _ (by decide)
  simp only [Row.holds, rowWord, BitVec.toNat_ofNat, Nat.and_zero, decide_true, Bool.and_true, decide_eq_true_eq]
  omega

theorem alloc (v : Variant) : Statement (.alloc v) :=
  fun _ => ⟨_, rfl, by cases v <;> decide⟩

theorem fill : Statement .fill :=
  fun _ => ⟨_, rfl, rfl⟩

theorem write1 (x : BitVec 12) (w : Word) (id : RuleId) : Statement (.write1 x w id) := by
  intro hw
  simp only [Instr.wellFormed, Bool.and_eq_true, decide_eq_true_eq] at hw
  exact ⟨_, rfl, holds_phase0 _ _ hw.1⟩

theorem write2 (x : BitVec 12) (w0 : Word) (w1 : Word) (id : RuleId) : Statement (.write2 x w0 w1 id) := by
  refine fun _ => ⟨_, rfl, ?_⟩
  have h := holds_phase0 "WRITE2" ((x.setWidth 11).setWidth 12) (by
    have := (x.setWidth 11).isLt
    rw [BitVec.toNat_setWidth]
    exact Nat.lt_of_le_of_lt (Nat.mod_le _ _) this)
  simpa [rowWord] using h

theorem decodePass : Statement .decodePass :=
  fun _ => ⟨_, rfl, rfl⟩

theorem generate (v : Variant) : Statement (.generate v) :=
  fun _ => ⟨_, rfl, by cases v <;> decide⟩

theorem lookup (p : Bit) (i : InstrBits) : Statement (.lookup p i) :=
  fun _ => ⟨_, rfl, holds_narrow _ (by decide) _⟩

theorem lookupMini (p : Bit) (i : BitVec 8) : Statement (.lookupMini p i) :=
  fun _ => ⟨_, rfl, holds_narrow _ (by decide) _⟩

theorem serialize (big : Bool) : Statement (.serialize big) :=
  fun _ => ⟨_, rfl, by cases big <;> decide⟩

theorem trap (p : Bit) (i : InstrBits) : Statement (.trap p i) :=
  fun _ => ⟨_, rfl, holds_narrow _ (by decide) _⟩

theorem trapMini (p : Bit) (i : BitVec 8) : Statement (.trapMini p i) :=
  fun _ => ⟨_, rfl, holds_narrow _ (by decide) _⟩

theorem ldG0 : Statement .ldG0 :=
  fun _ => ⟨_, rfl, rfl⟩

theorem ldG0Ref (a : Sub3) (b : Sub3) (q : Bit) : Statement (.ldG0Ref a b q) := by
  refine fun _ => ⟨_, rfl, ?_⟩
  revert a b q
  decide +kernel

theorem oneWord (i : InstrBits) : Statement (.oneWord i) :=
  fun _ => ⟨_, rfl, holds_phase0 _ _ (phase0_lt i)⟩

theorem twoWordFirst (i : InstrBits) : Statement (.twoWordFirst i) :=
  fun _ => ⟨_, rfl, holds_phase0 _ _ (phase0_lt i)⟩

theorem twoWordSecond (i : InstrBits) : Statement (.twoWordSecond i) := by
  refine fun _ => ⟨_, rfl, ?_⟩
  revert i
  decide +kernel

theorem escRegB (f : Bit) (u : Sub3) (v : Sub3) (e : Bit) (q : Bit) : Statement (.escRegB f u v e q) := by
  refine fun _ => ⟨_, rfl, ?_⟩
  revert f u v e q
  decide +kernel

theorem escRegAA (g : Sub3) (e : Bit) (b : Sub3) (q : Bit) : Statement (.escRegAA g e b q) := by
  refine fun _ => ⟨_, rfl, ?_⟩
  revert g e b q
  decide +kernel

theorem escRegAB (e : Bit) (sub : Sub3) (b : Sub3) (q : Bit) : Statement (.escRegAB e sub b q) := by
  refine fun _ => ⟨_, rfl, ?_⟩
  revert e sub b q
  decide +kernel

theorem aGroup7 (p : Bit) (a : Sub3) (b : Sub3) (q : Bit) : Statement (.aGroup7 p a b q) := by
  refine fun _ => ⟨_, rfl, ?_⟩
  revert p a b q
  decide +kernel

end Sys2Proof.Laws.RowHolds
end

