-- ==== Sys2Proof/Tests/Slice0.lean ====
section
/-! SUPPORT. Tests. Expected values are the spec's: its encoding rows, its worked examples and 95_test_vectors.md, whose
vectors hold at `P_ref` (R8). -/

namespace Sys2Proof.Tests

open Sys2Proof Sys2Proof.Machine

set_option Elab.async false

/-! ### Helpers -/

/-- The answer of an outcome. -/
def answer : Outcome → Option Result
  | .next s => some s.result
  | .fault _ => none
  | .refused _ => none

/-- The fault of an outcome. -/
def faultOf : Outcome → Option Fault
  | .next _ => none
  | .fault r => some r
  | .refused _ => none

/-- The refusal of an outcome. -/
def refusalOf : Outcome → Option Refusal
  | .next _ => none
  | .fault _ => none
  | .refused r => some r

/-- An outcome is a next state with a property. -/
def holdsAfter (o : Outcome) (f : State → Bool) : Bool :=
  match o with
  | .next s => f s
  | .fault _ => false
  | .refused _ => false

/-- An outcome is a next state. -/
def isNext (o : Outcome) : Bool := holdsAfter o fun _ => true

/-- The instruction that bytes decode to. -/
def decoded (bytes : List Byte) : Option Instr :=
  match decode bytes with
  | .ok i => some i
  | .error _ => none

/-- Two rules of group 0 that both match regB = 6 at regA = 0, q = 0, the alternate form first, and a two-phase rule
that claims one combination of group 3. -/
def tiny : Content :=
  [⟨1, .A, 0, .alternate, .conj (.eq .regB (.const 6)) (.conj (.eq .regA (.const 0)) (.eq .qual (.const 0))), none,
      .one [(.OP, .const 2), (.CRST, .const 1)]⟩,
   ⟨2, .A, 0, .generic, .conj (.eq .regA (.const 0)) (.eq .qual (.const 0)), none,
      .one [(.MOE, .const 1), (.RIWE, .const 1), (.IMM, .const 2), (.CRST, .const 1)]⟩,
   ⟨3, .A, 3, .plain, .conj (.eq .regA (.const 2)) (.conj (.eq .regB (.const 4)) (.eq .qual (.const 0))), none,
      .two [(.OP, .opAdd), (.RL, .const 3), (.MOE, .const 1)] [(.OP, .opAdd), (.RI, .regA), (.CRST, .const 1)]⟩]

/-- The start of generation at `P_ref`, with the rules `tiny`. -/
def start : State := State.resetWith (Config.pRef tiny)

/-- A state of a stage, variant and table. -/
def at_ (g : Stage) (v : Variant) (rom : Cells Word) (owner : Option (Cells RuleId)) : State :=
  ((start.setVariant v).setTable rom owner).setStage g

/-- A filled full table without claims. -/
def filled : State := at_ .filled .full [] (some [])

/-- A filled full table with the claims of V-ROM-2 and V-ROM-3 (rules 7 and 9). -/
def claimed : State :=
  at_ .filled .full [(0x02E, 0x10400FA2), (0x1A8, 0x0A0200B1), (0x9A8, 0x1050A0A1)]
    (some [(0x02E, 7), (0x1A8, 9), (0x9A8, 9)])

/-- The frozen table of the same entries, and the load at index 0. -/
def frozen : State :=
  at_ .frozen .full [(0x000, 0x12028081), (0x02E, 0x10400FA2), (0x1A8, 0x0A0200B1), (0x9A8, 0x1050A0A1)]
    (some [(0x000, 2), (0x02E, 7), (0x1A8, 9), (0x9A8, 9)])

/-- The frozen table under other rules. -/
def frozenUnder (rules : Content) : State := { frozen with cfg := Config.pRef rules }

/-- The frozen mini table of program P4. -/
def frozenMini : State :=
  at_ .frozen .mini [(0x012, 0x0A0200B1), (0x0FF, 0x10400FA2), (0x112, 0x1050A0A1)]
    (some [(0x012, 1), (0x0FF, 2), (0x112, 1)])

/-! ### Well-formedness: each check refuses an ill-formed term -/

theorem test_wf_pack_repeated : (Instr.pack [(.RL, 1), (.RL, 2)]).wellFormed = false := by decide
theorem test_wf_pack_value : (Instr.pack [(.OP, 65536)]).wellFormed = false := by decide
theorem test_wf_schema_width : (Instr.schemaValid [⟨.OP, 256, 0⟩]).wellFormed = false := by decide
theorem test_wf_schema_offset : (Instr.schemaValid [⟨.OP, 4, 256⟩]).wellFormed = false := by decide
theorem test_wf_pairUnpack : (Instr.pairUnpack (2 ^ 38)).wellFormed = false := by decide
theorem test_wf_write1_phase : (Instr.write1 0x9A8 0 0).wellFormed = false := by decide
theorem test_wf_write1_id : (Instr.write1 0x1A8 0 65536).wellFormed = false := by decide
theorem test_wf_write2_id : (Instr.write2 0x1A8 0 0 65536).wellFormed = false := by decide
theorem test_wf_ldG0Ref : (Instr.ldG0Ref 0 6 0).wellFormed = false := by decide

/-! ### Decoding: a written-out request or bare word for each row -/

-- RL at 6:4, CRST at 28: 7 << 4 | 1 << 28
theorem test_decode_pack : decoded [0x70, 0x00, 0x00, 0x10, 1, 1, 7, 0, 17, 1, 0] = some (.pack [(.RL, 7), (.CRST, 1)]) := by
  decide +kernel
-- the trap word of P_ref, 0x1013F0F1; field 7 is IMM
theorem test_decode_extract : decoded [0xF1, 0xF0, 0x13, 0x10, 2, 7] = some (.extract 0x1013F0F1 .IMM) := by decide +kernel
theorem test_decode_schemaValid : decoded [0, 0, 0, 0, 3, 17, 1, 28] = some (.schemaValid [⟨.CRST, 1, 28⟩]) := by decide +kernel
-- 0 0 011 101 010 0 (V-ADDR-3)
theorem test_decode_indexA : decoded [0xD4, 0x01, 0, 0, 4] = some (.indexA 0 3 5 2 0) := by decide +kernel
-- 0 1 010 101 110 0 (V-ADDR-7)
theorem test_decode_indexB : decoded [0x5C, 0x05, 0, 0, 5] = some (.indexB 0 2 5 6 0) := by decide +kernel
theorem test_decode_split : decoded [0x3D, 0x00, 0, 0, 6] = some (.split 0x03D) := by decide +kernel
-- 1 00010010 (V-ADDR-11)
theorem test_decode_indexMini : decoded [0x12, 0x01, 0, 0, 7] = some (.indexMini 1 0x12) := by decide +kernel
-- 011 010
theorem test_decode_pairPack : decoded [0x1A, 0, 0, 0, 8] = some (.pairPack 3 2) := by decide +kernel
theorem test_decode_pairUnpack : decoded [0x14, 0, 0, 0, 9, 0, 0, 0, 0] = some (.pairUnpack 20) := by decide +kernel
theorem test_decode_alloc : decoded [0, 0, 0, 0, 10, 1] = some (.alloc .mini) := by decide +kernel
theorem test_decode_fill : decoded [0, 0, 0, 0, 11] = some .fill := by decide +kernel
theorem test_decode_write1 : decoded [0x2E, 0, 0, 0, 12, 0xA2, 0x0F, 0x40, 0x10, 7, 0] = some (.write1 0x02E 0x10400FA2 7) := by
  decide +kernel
theorem test_decode_write2 :
    decoded [0xA8, 0x01, 0, 0, 13, 0, 0xB1, 0x00, 0x02, 0x0A, 0xA1, 0xA0, 0x50, 0x10, 9, 0] =
      some (.write2 0x1A8 0x0A0200B1 0x1050A0A1 9) := by decide +kernel
theorem test_decode_decodePass : decoded [0, 0, 0, 0, 14] = some .decodePass := by decide +kernel
theorem test_decode_generate : decoded [0, 0, 0, 0, 15, 0] = some (.generate .full) := by decide +kernel
-- 1 00110101000
theorem test_decode_lookup : decoded [0xA8, 0x09, 0, 0, 16] = some (.lookup 1 0x1A8) := by decide +kernel
theorem test_decode_lookupMini : decoded [0x12, 0x01, 0, 0, 17] = some (.lookupMini 1 0x12) := by decide +kernel
theorem test_decode_serialize : decoded [0, 0, 0, 0, 18, 1] = some (.serialize true) := by decide +kernel
-- the flag left out: little-endian (R7)
theorem test_decode_serialize_default : decoded [0, 0, 0, 0, 18] = some (.serialize false) := by decide +kernel
theorem test_decode_trap : decoded [0x80, 0x08, 0, 0, 19] = some (.trap 1 0x080) := by decide +kernel
theorem test_decode_trapMini : decoded [0xFF, 0x01, 0, 0, 20] = some (.trapMini 1 0xFF) := by decide +kernel
theorem test_decode_ldG0 : decoded [0x00, 0x00] = some .ldG0 := by decide +kernel
-- 0 0 000 010 011 1
theorem test_decode_ldG0Ref : decoded [0x27, 0x00] = some (.ldG0Ref 2 3 1) := by decide +kernel
-- 0 10101010110: regA 2, sub-opcode 5, regB 3, no escape code
theorem test_decode_oneWord : decoded [0x56, 0x05] = some (.oneWord 0x556) := by decide +kernel
theorem test_decode_twoWordFirst : decoded [0xA8, 0x01, 0, 0, 24] = some (.twoWordFirst 0x1A8) := by decide +kernel
theorem test_decode_twoWordSecond : decoded [0xA8, 0x09] = some (.twoWordSecond 0x1A8) := by decide +kernel
-- 0 0 000 010 11 1 0: regB = 7
theorem test_decode_escRegB : decoded [0x2E, 0x00] = some (.escRegB 0 0 2 1 0) := by decide +kernel
-- 00 010 11 1 011 0: regA = 7
theorem test_decode_escRegAA : decoded [0x76, 0x01] = some (.escRegAA 2 1 3 0) := by decide +kernel
-- 0111 1 101 011 0: regA = 7
theorem test_decode_escRegAB : decoded [0xD6, 0x07] = some (.escRegAB 1 5 3 0) := by decide +kernel
-- 1 0 111 010 011 1
theorem test_decode_aGroup7 : decoded [0xA7, 0x0B] = some (.aGroup7 1 2 3 1) := by decide +kernel

theorem test_decode_noRow : decode [0, 0, 0, 0, 30] = .error (.badSelector 30) := by decide +kernel
theorem test_decode_notOfRow : decode [0x00, 0x04, 0, 0, 4] = .error (.notOfRow "INDEXA") := by decide +kernel
theorem test_decode_highBits : decode [0x00, 0x10] = .error (.notOfRow "TRAP") := by decide +kernel

/-! ### The packer (95_test_vectors.md 2.1, 2.7) -/

-- V-PACK-8
theorem test_pack_alternating :
    answer (exec (.pack [(.OP, 0xA), (.RL, 5), (.RLOE, 0), (.RR, 2), (.RROE, 1), (.RI, 5), (.RIWE, 0), (.IMM, 2),
      (.RRBUSOE, 1), (.ALUOE, 0), (.FLAGSOE, 1), (.FLAGSWE, 0), (.IADDRSEL, 1), (.CNZ, 0), (.MOE, 1), (.MWE, 0),
      (.W16, 1), (.CRST, 0), (.IWE, 1), (.SELE, 0), (.SELIFLAGSSEL, 1)]) start) = some (.word 0xAAAA5A5A) := by
  decide +kernel
-- V-FAULT-1
theorem test_pack_range : faultOf (exec (.pack [(.RL, 8)]) start) = some (.packRange .RL 8) := by decide +kernel
-- V-EXT-2, V-EXT-4
theorem test_extract_imm : answer (exec (.extract 0xAAAA5A5A .IMM) start) = some (.value 2) := by decide +kernel
theorem test_extract_ri : answer (exec (.extract 0x1A02A0B1 .RI) start) = some (.value 2) := by decide +kernel
-- V-SCH-1, V-SCH-2
theorem test_schema_default : answer (exec (.schemaValid defaultSchema) start) = some (.schema true) := by
  decide +kernel
theorem test_schema_overlap :
    faultOf (exec (.schemaValid (defaultSchema.map fun e => if e.field = .CRST then ⟨.CRST, 1, 27⟩ else e)) start) =
      some (.schemaInvalid (.overlap .W16 .CRST)) := by decide +kernel

/-! ### Addresses and pairs (2.2, 2.3) -/

-- V-ADDR-3, V-ADDR-4
theorem test_indexA : answer (exec (.indexA 0 3 5 2 0) start) = some (.index 0x1D4) := by decide +kernel
theorem test_indexA_top : answer (exec (.indexA 1 7 7 7 1) start) = some (.index 0xBFF) := by decide +kernel
-- V-ADDR-7
theorem test_indexB : answer (exec (.indexB 0 2 5 6 0) start) = some (.index 0x55C) := by decide +kernel
theorem test_indexB_swapped : answer (exec (.indexB 0 5 2 6 0) start) = some (.index 0x6AC) := by decide +kernel
-- V-ADDR-8
theorem test_split_a : answer (exec (.split 0x03D) start) = some (.split ⟨0, .A, 0, 3, 6, 1⟩) := by decide +kernel
theorem test_split_b : answer (exec (.split 0x55C) start) = some (.split ⟨0, .B, 5, 2, 6, 0⟩) := by decide +kernel
-- V-ADDR-11
theorem test_indexMini : answer (exec (.indexMini 1 0x12) start) = some (.indexMini 0x112) := by decide +kernel
-- V-PAIR-4, V-PAIR-5
theorem test_pairPack : answer (exec (.pairPack 3 2) start) = some (.number 20) := by decide +kernel
theorem test_pairPack_equal : refusalOf (exec (.pairPack 2 2) start) = some .pairDomain := by decide +kernel
-- V-PAIR-2
theorem test_pairUnpack : answer (exec (.pairUnpack 21) start) = some (.pair (some (3, 4))) := by decide +kernel
theorem test_pairUnpack_none : answer (exec (.pairUnpack 11) start) = some (.pair none) := by decide +kernel

/-! ### The ROM array (2.4, 2.5, programs P4 and P5) -/

-- V-ROM-9
theorem test_alloc_twice : faultOf (exec (.alloc .full) (at_ .allocated .full [] none)) =
    some (.stageViolation .alloc .allocated) := by decide +kernel
theorem test_alloc_mini : holdsAfter (exec (.alloc .mini) start) (fun s => s.variant = .mini ∧ s.stage = .allocated) = true := by
  decide +kernel
-- V-ROM-1
theorem test_fill : holdsAfter (exec .fill (at_ .allocated .full [] none))
    (fun s => entry s 4095 = some 0x1013F0F1 ∧ ownerOf s 4095 = none ∧ entry s 4096 = none) = true := by decide +kernel
theorem test_fill_twice : faultOf (exec .fill filled) = some (.stageViolation .fill .filled) := by decide +kernel
-- V-ROM-2, V-ROM-4
theorem test_write1 : holdsAfter (exec (.write1 0x02E 0x10400FA2 7) filled)
    (fun s => entry s 0x02E = some 0x10400FA2 ∧ ownerOf s 0x02E = some 7 ∧ entry s 0x82E = some 0x1013F0F1 ∧
      ownerOf s 0x82E = none) = true := by decide +kernel
theorem test_write1_twice : faultOf (exec (.write1 0x02E 0x10400FA2 7) claimed) = some (.doubleClaim 0x02E 7 7) := by
  decide +kernel
-- V-ROM-3, V-ROM-6
theorem test_write2 : holdsAfter (exec (.write2 0x1A8 0x0A0200B1 0x1050A0A1 9) filled)
    (fun s => entry s 0x1A8 = some 0x0A0200B1 ∧ entry s 0x9A8 = some 0x1050A0A1 ∧ ownerOf s 0x9A8 = some 9) = true := by
  decide +kernel
theorem test_write2_phase1 : faultOf (exec (.write2 0x9A8 0 0 9) filled) = some (.stageViolation .write2 .filled) := by
  decide +kernel
-- first match wins (R141): regB = 6 goes to the alternate form, regB = 5 to the generic one
theorem test_decodePass_firstMatch :
    (firstMatch start.cfg ⟨.A, 0, 0, 6, 0⟩ tiny).map (·.1) = some 1 ∧
    (firstMatch start.cfg ⟨.A, 0, 0, 5, 0⟩ tiny).map (·.1) = some 2 := by decide +kernel
-- R190: on a frozen table the first write of the pass raises the fault, PackRange before it; without rules the pass does
theorem test_decodePass_frozen : faultOf (exec .decodePass frozen) = some (.stageViolation .write1 .frozen) ∧
    faultOf (exec .decodePass (frozenUnder [])) = some (.stageViolation .decodePass .frozen) ∧
    faultOf (exec .decodePass (frozenUnder
      [⟨1, .B, 0, .plain, .always, none, .one [(.RL, .const 8), (.CRST, .const 1)]⟩])) =
      some (.packRange .RL 8) := by decide +kernel
-- V-FAULT-5
theorem test_generate_packRange :
    faultOf (exec (.generate .full) (State.resetWith (Config.pRef
      [⟨1, .B, 0, .plain, .always, none, .one [(.RL, .const 8), (.CRST, .const 1)]⟩]))) = some (.packRange .RL 8) := by
  decide +kernel
-- P4's lookups; V-ROM-8
theorem test_lookup : holdsAfter (exec (.lookup 1 0x1A8) frozen)
    (fun s => s.cw = some 0x1050A0A1 ∧ s.result = .word 0x1050A0A1) = true := by decide +kernel
theorem test_lookup_filled : refusalOf (exec (.lookup 0 0) filled) = some .notFrozen := by decide +kernel
theorem test_lookupMini : answer (exec (.lookupMini 1 0x12) frozenMini) = some (.word 0x1050A0A1) := by decide +kernel
theorem test_lookupMini_unclaimed : answer (exec (.lookupMini 1 0xFF) frozenMini) = some (.word 0x1013F0F1) := by
  decide +kernel
-- P4: offset 72 little-endian, and big-endian
theorem test_serialize_little : holdsAfter (exec (.serialize false) frozenMini)
    (fun s => (s.image.map fun l => (l.length, (l.drop 72).take 4)) = some (2048, [0xB1, 0x00, 0x02, 0x0A])) = true := by
  decide +kernel
theorem test_serialize_big : holdsAfter (exec (.serialize true) frozenMini)
    (fun s => (s.image.map fun l => (l.drop 72).take 4) = some [0x0A, 0x02, 0x00, 0xB1]) = true := by
  decide +kernel

/-! ### Entries and the sequencer (V-CONT-1, V-CONT-7, program P3) -/

-- P3 step 6: an unassigned instruction: the trap word, then phase 0 of the same bits again
theorem test_trap : holdsAfter (exec (.trap 0 0x080) frozen)
    (fun s => s.cw = some 0x1013F0F1 ∧ s.seq = ⟨0, 0x080, true⟩ ∧ s.result = .entry 0x1013F0F1 true) = true := by
  decide +kernel
theorem test_trapMini : holdsAfter (exec (.trapMini 0 0x80) frozenMini)
    (fun s => s.cw = some 0x1013F0F1 ∧ s.seq = ⟨0, 0x080, true⟩) = true := by decide +kernel
-- V-CONT-3
theorem test_ldG0 : answer (exec .ldG0 frozen) = some (.entry 0x12028081 true) := by decide +kernel
theorem test_ldG0Ref_trap : answer (exec (.ldG0Ref 1 0 0) frozen) = some (.entry 0x1013F0F1 false) := by decide +kernel
-- V-CONT-7: CRST = 1 ends the instruction
theorem test_oneWord : holdsAfter (exec (.oneWord 0x000) frozen)
    (fun s => s.seq = ⟨0, 0, false⟩ ∧ s.result = .entry 0x12028081 true) = true := by decide +kernel
-- V-CONT-7: CRST = 0 goes on to phase 1
theorem test_twoWordFirst : holdsAfter (exec (.twoWordFirst 0x1A8) frozen)
    (fun s => s.seq = ⟨1, 0x1A8, true⟩ ∧ s.result = .entry 0x0A0200B1 true) = true := by decide +kernel
theorem test_twoWordSecond : holdsAfter (exec (.twoWordSecond 0x1A8) (frozen.setSeq ⟨1, 0x1A8, true⟩))
    (fun s => s.seq = ⟨0, 0x1A8, false⟩ ∧ s.cw = some 0x1050A0A1) = true := by decide +kernel
-- U6: CRST = 0 at phase 1
theorem test_stuck : faultOf (exec (.twoWordSecond 5) ((at_ .frozen .full [(2053, 0)] none).setSeq ⟨1, 5, true⟩)) =
    some (.sequencerStuck 5) := by decide +kernel
-- R28, R207: an instruction that starts fresh starts at phase 0; one that waits at phase 1 gets no other address
theorem test_outOfSequence : refusalOf (exec (.twoWordSecond 0x1A8) frozen) = some .outOfSequence ∧
    refusalOf (exec (.oneWord 0x1A8) (frozen.setSeq ⟨1, 0x1A8, true⟩)) = some .outOfSequence := by decide +kernel
-- the escape forms of `tiny` stand first; 0x00C is regA = 0, regB = 6, q = 0
theorem test_escRegB : answer (exec (.escRegB 0 0 0 0 0) frozen) = some (.entry 0x1013F0F1 true) := by decide +kernel
theorem test_escRegB_broken :
    answer (exec (.escRegB 0 0 0 0 0) (frozenUnder tiny.reverse)) =
      some (.entry 0x1013F0F1 false) := by decide +kernel
theorem test_escRegAA : answer (exec (.escRegAA 0 0 0 0) frozen) = some (.entry 0x1013F0F1 true) := by decide +kernel
theorem test_escRegAB : answer (exec (.escRegAB 1 5 3 0) frozen) = some (.entry 0x1013F0F1 true) := by decide +kernel
theorem test_aGroup7 : answer (exec (.aGroup7 0 0 0 0) frozen) = some (.entry 0x1013F0F1 true) := by decide +kernel
-- V-CONT-1: PC = PC - 2
theorem test_trapWord_gloss : pcDisplacement (Config.pRef []) 0x1013F0F1 = some (-2) := by decide +kernel
-- U8: with bit 25 (MOE, R75) or bit 11 (RROE, R65) set as well, no effect is derived
theorem test_conflict_gloss : pcDisplacement (Config.pRef []) 0x1213F0F1 = none ∧
    pcDisplacement (Config.pRef []) 0x1013F8F1 = none := by decide +kernel

/-! ### The step -/

-- P3 steps 1 and 2: the second lookup follows without an input
theorem test_step_second : holdsAfter (step (frozen.setSeq ⟨1, 0x1A8, true⟩))
    (fun s => s.cw = some 0x1050A0A1 ∧ s.seq.busy = false) = true := by decide +kernel
theorem test_step_request : holdsAfter (step (start.withFetchWord 32 0x1013F0F1)) (fun s => s.result = .word 0x1013F0F1) = true := by
  decide +kernel
-- the machine after reset, with its free values, runs a presented address
theorem test_step_reset : holdsAfter (step (State.reset.withFetchWord 16 0x380)) (fun s => s.seq = ⟨0, 0x380, true⟩) = true := by
  decide +kernel
-- an address at phase 1 is placed with a sequencer that waits there
theorem test_step_reset_phase1 : holdsAfter (step (State.reset.withFetchWord 16 0xB82))
    (fun s => s.seq = ⟨0, 0x382, true⟩ ∧ s.inputs = []) = true := by decide +kernel
-- P3 steps 1 and 2 as two requests: the second names the lookup that the first has fixed
theorem test_step_named : holdsAfter (step ((frozen.setSeq ⟨1, 0x1A8, true⟩).setInputs [.request [0xA8, 0x09]]))
    (fun s => s.cw = some 0x1050A0A1 ∧ s.inputs = []) = true := by decide +kernel
-- V-CONT-2
theorem test_defaultTrapWord : defaultTrapWord 1 3 0 = 0x1013F0F1 ∧ defaultTrapWord 15 1 1 = 0x1091F0FF := by decide +kernel
-- R34, R207: a CPU reset breaks the spin, keeps the table and leaves no owner map
theorem test_cpuReset : holdsAfter (step ((frozen.setSeq ⟨0, 5, true⟩).setInputs [.cpuReset]))
    (fun s => s.seq.busy = false ∧ s.rom = frozen.rom ∧ s.owner = none) = true := by decide +kernel

end Sys2Proof.Tests
end

