-- ==== Sys2Proof/Tests/Witnesses.lean ====
section
/-! SUPPORT. For every statement with hypotheses, a concrete state and operands that meet all of them, for each of its
clauses at boundary values of its range. `isNext (exec i s) = true` says that `exec i s` answers a next state. -/

namespace Sys2Proof.Tests

open Sys2Proof Sys2Proof.Machine

set_option Elab.async false

/-- `isNext` says what it is used for. -/
theorem next_of_isNext {o : Outcome} (h : isNext o = true) : ∃ t, o = .next t := by
  cases o with
  | next t => exact ⟨t, rfl⟩
  | fault r => cases h
  | refused r => cases h

/-! ### The packer -/

/-- Every field at its largest value. -/
def maxFields : FieldMap := defaultSchema.map fun e => (e.field, 2 ^ e.width - 1)

/-- V-SCH-6: bit 18 is covered by no field. -/
def gapSchema : Schema := defaultSchema.map fun e => if e.field = .IMM then ⟨.IMM, 2, 16⟩ else e

/-- The start of generation under another schema. -/
def startWith (S : Schema) : State := State.resetWith { Config.pRef tiny with schema := S }

theorem witness_PackThenExtract_fits :
    schemaOk start.cfg.schema = true ∧ ∀ f, fieldValue maxFields f < 2 ^ widthIn start.cfg.schema f := by
  refine ⟨by decide +kernel, fun f => ?_⟩
  cases f <;> decide +kernel
theorem witness_PackThenExtract_covers :
    schemaOk start.cfg.schema = true ∧ ∀ k < 32, ∃ e ∈ start.cfg.schema, e.offset ≤ k ∧ k < e.offset + e.width := by
  decide +kernel
theorem witness_PackThenExtract_default : start.cfg.schema = defaultSchema := rfl
theorem witness_PackPlaces_fits :
    schemaOk (startWith gapSchema).cfg.schema = true ∧
      ∀ e ∈ (startWith gapSchema).cfg.schema, fieldValue [(.IMM, 3), (.OP, 15)] e.field < 2 ^ e.width := by decide +kernel
theorem witness_PackPlaces_gap :
    ∀ e ∈ (startWith gapSchema).cfg.schema, ¬(e.offset ≤ 18 ∧ 18 < e.offset + e.width) := by decide +kernel
theorem witness_PackRange :
    schemaOk start.cfg.schema = true ∧ start.cfg.schema = defaultSchema.take 1 ++ ⟨.RL, 3, 4⟩ :: defaultSchema.drop 2 ∧
      (∀ d ∈ defaultSchema.take 1, fieldValue [(.RL, 8)] d.field < 2 ^ d.width) ∧ 2 ^ 3 ≤ fieldValue [(.RL, 8)] .RL := by
  decide +kernel
theorem witness_ExtractReads :
    schemaOk start.cfg.schema = true ∧ ⟨.SELIFLAGSSEL, 1, 31⟩ ∈ start.cfg.schema ∧ ⟨.OP, 4, 0⟩ ∈ start.cfg.schema := by
  decide +kernel
theorem witness_SchemaCheck_valid : namedOnce defaultSchema ∧ insideWord defaultSchema ∧
    defaultSchema.Pairwise fun e d => e.offset + e.width ≤ d.offset ∨ d.offset + d.width ≤ e.offset := by
  refine ⟨fun f => ?_, by unfold insideWord; decide +kernel, by decide +kernel⟩
  cases f <;> decide +kernel
theorem witness_SchemaCheck_notNamed : ¬ namedOnce (defaultSchema.take 20) := fun h => by
  have := h .SELIFLAGSSEL
  revert this; decide +kernel
theorem witness_SchemaCheck_broken :
    schemaClause (defaultSchema.take 20) = some (.missing .SELIFLAGSSEL) ∧
      (startWith (defaultSchema.take 20)).cfg.schema = defaultSchema.take 20 := by decide +kernel
theorem witness_PureRows : isPureRow (.pairPack 5 4) = true ∧ isNext (exec (.pairPack 5 4) start) = true := by decide +kernel

/-! ### Addresses and pairs -/

theorem witness_IndexFunctions : start.cfg.layoutFull = defaultLayout := rfl
theorem witness_layoutValid : start.cfg.layoutFull.valid = true := by decide +kernel
theorem witness_Formats_equalIndices : indexA defaultLayout 1 7 7 7 1 = indexA defaultLayout 1 7 7 7 1 ∧
    indexB defaultLayout 1 7 7 7 1 = indexB defaultLayout 1 7 7 7 1 := ⟨rfl, rfl⟩
theorem witness_PairNumbering_pack :
    5 ≤ start.cfg.pairStride ∧ (5#3).toNat ≤ 5 ∧ (4#3).toNat ≤ 5 ∧ (0#3).toNat ≤ 5 ∧ 4#3 ≠ 5#3 ∧ 5#3 ≠ 0#3 := by decide
theorem witness_PairNumbering_stride5 : 5 ≤ (State.resetWith { Config.pRef [] with pairStride := 5 }).cfg.pairStride := by decide
theorem witness_PairNumbering_unpack : exec (.pairUnpack 34) start = .next (start.setResult (.pair (some (5, 4)))) ∧
    exec (.pairUnpack 0) start = .next (start.setResult (.pair (some (0, 1)))) := ⟨rfl, rfl⟩
theorem witness_PairUnpack : 5 ≤ start.cfg.pairStride := by decide
theorem witness_PairPackRefuses : 5 < (6#3).toNat ∧ 2#3 = 2#3 := by decide

/-! ### Construction -/

theorem witness_Alloc : start.stage = .unallocated ∧ frozen.stage ≠ .unallocated := by decide +kernel
theorem witness_Fill : (at_ .allocated .mini [] none).stage = .allocated ∧ start.stage ≠ .allocated := by decide +kernel
theorem witness_Write1_bounds : filled.stage = .filled ∧ Memory.wf filled = true ∧
    ((0x000#12).toNat < filled.variant.half ∧ ownerOf filled (0x000#12).toNat = none) ∧
    ((0x7FF#12).toNat < filled.variant.half ∧ ownerOf filled (0x7FF#12).toNat = none) := by decide +kernel
theorem witness_Write1_claimed : claimed.stage = .filled ∧ Memory.wf claimed = true ∧
    (0x02F#12).toNat < claimed.variant.half ∧ ownerOf claimed (0x02F#12).toNat = none := by decide +kernel
theorem witness_Write2_bounds : filled.stage = .filled ∧ Memory.wf filled = true ∧
    ((0x000#12).toNat < filled.variant.half ∧ ownerOf filled (0x000#12).toNat = none ∧
      ownerOf filled ((0x000#12).toNat + filled.variant.half) = none) ∧
    ((0x7FF#12).toNat < filled.variant.half ∧ ownerOf filled (0x7FF#12).toNat = none ∧
      ownerOf filled ((0x7FF#12).toNat + filled.variant.half) = none) := by decide +kernel
theorem witness_Override_stage : frozen.stage ≠ .filled ∧ start.stage ≠ .filled := by decide +kernel
theorem witness_Override_phase1 : filled.variant.half ≤ (0x800#12).toNat := by decide +kernel
theorem witness_Override_claimed : claimed.stage = .filled ∧ (0x02E#12).toNat < claimed.variant.half ∧
    ownerOf claimed (0x02E#12).toNat = some 7 := by decide +kernel
theorem witness_Override_partner :
    (at_ .filled .full [] (some [(0xFFF, 3)])).stage = .filled ∧
    (0x7FF#12).toNat < (at_ .filled .full [] (some [(0xFFF, 3)])).variant.half ∧
    ownerOf (at_ .filled .full [] (some [(0xFFF, 3)])) (0x7FF#12).toNat = none ∧
    ownerOf (at_ .filled .full [] (some [(0xFFF, 3)])) ((0x7FF#12).toNat + Variant.full.half) = some 3 := by decide +kernel

/-- One rule whose template is out of range (V-FAULT-5). -/
def badRules : Content := [⟨1, .B, 0, .plain, .always, none, .one [(.RL, .const 8), (.CRST, .const 1)]⟩]

theorem witness_OutOfRangeTemplate :
    let s := State.resetWith (Config.pRef badRules)
    schemaOk s.cfg.schema = true ∧ fixedOutOfRange s.cfg (s.cfg.rules .full) .RL 8 ∧ s.stage = .unallocated ∧
      (s.setStage .frozen).stage ≠ .unallocated ∧ (s.setStage .frozen).variant = .full := by
  refine ⟨by decide +kernel, ⟨_, List.mem_cons_self .., _, List.mem_cons_self .., .const 8, List.mem_cons_self ..,
    ⟨⟨.RL, 3, 4⟩, by decide +kernel, rfl, by decide⟩, .inl rfl⟩, rfl, by decide +kernel, rfl⟩
/-- The constraints of R7 hold at `P_ref`. -/
theorem layoutsOk_start : layoutsOk start.cfg = true := by
  have h : start.cfg.layoutFull.valid = true := by decide +kernel
  have h' : miniValid start.cfg.layoutMini = true := miniValid_someLayoutMini
  simp [layoutsOk, h, h']
theorem paramsOk_start : paramsOk start.cfg = true := by
  have h : schemaOk start.cfg.schema = true := by decide +kernel
  have h' : codesOk start.cfg = true := by decide +kernel
  have h'' : trapWordOk start.cfg = true := by decide +kernel
  have h3 : registerWidthsOk start.cfg = true := by decide +kernel
  have h5 : 5 ≤ start.cfg.pairStride := by decide
  simp [paramsOk, h, h', h'', h3, h5, layoutsOk_start]
/-- Every word of `tiny` is in range, in either variant. -/
theorem contentPacks_full : contentPacks start.cfg .full = true := by decide +kernel
theorem contentPacks_mini : contentPacks start.cfg .mini = true := by decide +kernel

theorem witness_DecodePass_full : filled.stage = .filled ∧ filled.rom = [] ∧ filled.owner = some [] ∧
    schemaOk filled.cfg.schema = true ∧ layoutsOk filled.cfg = true ∧ contentPacks filled.cfg filled.variant = true :=
  ⟨rfl, rfl, rfl, by decide +kernel, layoutsOk_start, contentPacks_full⟩
theorem witness_Generate_mini : start.stage = .unallocated ∧ schemaOk start.cfg.schema = true ∧
    layoutsOk start.cfg = true ∧ contentPacks start.cfg .mini = true :=
  ⟨rfl, by decide +kernel, layoutsOk_start, contentPacks_mini⟩
theorem witness_Generate_full : start.stage = .unallocated ∧ schemaOk start.cfg.schema = true ∧
    layoutsOk start.cfg = true ∧ contentPacks start.cfg .full = true :=
  ⟨rfl, by decide +kernel, layoutsOk_start, contentPacks_full⟩
theorem witness_EveryEntry : start.cfg.layoutFull.valid = true ∧ isNext (exec (.generate .full) start) = true := by
  decide +kernel
theorem witness_EscapeForms : escapeFirst start.cfg tiny ⟨.A, 0, 0, 6, 0⟩ = true ∧
    (tiny.head?.map fun r => (r.form, (ruleEmission start.cfg ⟨.A, 0, 0, 6, 0⟩ r).isSome)) = some (.alternate, true) := by
  decide +kernel
theorem witness_EnumerationOrder : filled.cfg.layoutFull.valid = true ∧ filled.variant = .full ∧ filled.stage = .filled ∧
    filled.rom = [] ∧ filled.owner = some [] ∧ isNext (visitAll (slots filled.cfg .full) filled) = true := by decide +kernel
theorem witness_EnumerationOrder_perm : (slots filled.cfg .full).reverse.Perm (slots filled.cfg .full) := List.reverse_perm _
theorem witness_WellFormedContent_mini : paramsOk start.cfg = true ∧ contentForms start.cfg .mini = true ∧
    isNext (exec (.generate .mini) start) = true :=
  ⟨paramsOk_start, by decide +kernel, by decide +kernel⟩
theorem witness_WellFormedContent_two :
    (⟨.A, 3, 2, 4, 0⟩, 0x1A8) ∈ slots start.cfg .full ∧
    firstMatch start.cfg ⟨.A, 3, 2, 4, 0⟩ (start.cfg.rules .full) =
      some (3, .two [(.OP, 1), (.RL, 3), (.MOE, 1)] [(.OP, 1), (.RI, 2), (.CRST, 1)]) := by decide +kernel
theorem witness_GroupZero : paramsOk start.cfg = true ∧ loadOk start.cfg (start.cfg.rules .full) = true :=
  ⟨paramsOk_start, by decide +kernel⟩

/-! ### Lookup and image -/

theorem witness_Lookup : frozen.stage = .frozen ∧ frozen.variant = .full ∧ frozenMini.stage = .frozen ∧
    frozenMini.variant = .mini := by decide +kernel
theorem witness_Serialize_entry : frozen.stage = .frozen ∧ entry frozen 0 = some 0x12028081 ∧
    entry frozen 4095 = some 0x1013F0F1 := by decide +kernel
theorem witness_Endianness : ∃ tb tl ib il, exec (.serialize true) frozenMini = .next tb ∧
    exec (.serialize false) frozenMini = .next tl ∧ tb.image = some ib ∧ tl.image = some il :=
  ⟨_, _, _, _, rfl, rfl, rfl, rfl⟩
/-- A start of generation with the image of the mini table waiting. -/
def loading : State := start.setInputs [.loadImage .mini true (imageOf true frozenMini)]
theorem witness_LoadedImage : frozenMini.stage = .frozen ∧ Memory.wf frozenMini = true ∧ loading.stage = .unallocated ∧
    loading.seq.busy = false ∧ loading.cfg.trapWord = frozenMini.cfg.trapWord ∧
    loading.inputs = .loadImage frozenMini.variant true (imageOf true frozenMini) :: [] :=
  ⟨rfl, by decide +kernel, rfl, rfl, rfl, rfl⟩
theorem witness_UnfitImages_length :
    let s := start.setInputs [.loadImage .mini false []]
    s.seq.busy = false ∧ s.inputs = [.loadImage .mini false []] ∧ s.stage = .unallocated ∧
      ([] : List Byte).length ≠ 4 * Variant.mini.size := by decide +kernel
theorem witness_UnfitImages_inUse :
    let s := frozen.setInputs [.loadImage .mini false []]
    s.seq.busy = false ∧ s.inputs = [.loadImage .mini false []] ∧ s.stage ≠ .unallocated := by decide +kernel

/-! ### Entries and the sequencer -/

theorem witness_EntryRows_phase0 : isEntryRow12 (.twoWordFirst 0x1A8) = true ∧
    (0x1A8#12).setWidth 32 = rowWord (.twoWordFirst 0x1A8) ∧ frozen.stage = .frozen ∧ frozen.variant = .full ∧
    entry frozen (0x1A8#12).toNat = some 0x0A0200B1 ∧ frozen.seq.busy = false ∧ phaseOf 0x1A8 = 0 := by decide +kernel
/-- The full table with a sequencer that waits at phase 1 of some instruction bits. -/
def waiting (i : InstrBits) : State := frozen.setSeq ⟨1, i, true⟩
/-- The mini table with such a sequencer. -/
def waitingMini (i : InstrBits) : State := frozenMini.setSeq ⟨1, i, true⟩
theorem witness_EntryRows_trap : isEntryRow12 (.trap 1 0x7FF) = true ∧ (0xFFF#12).setWidth 32 = rowWord (.trap 1 0x7FF) ∧
    (waiting 0x7FF).stage = .frozen ∧ (waiting 0x7FF).variant = .full ∧
    entry (waiting 0x7FF) (0xFFF#12).toNat = some (waiting 0x7FF).cfg.trapWord ∧ (waiting 0x7FF).seq.busy = true ∧
    phaseOf 0xFFF = (waiting 0x7FF).seq.phase ∧ instrOf 0xFFF = (waiting 0x7FF).seq.instr := by decide +kernel
theorem witness_EntryRows_ends : isEntryRow12 (.twoWordSecond 0x1A8) = true ∧
    (0x9A8#12).setWidth 32 = rowWord (.twoWordSecond 0x1A8) ∧ (waiting 0x1A8).stage = .frozen ∧
    (waiting 0x1A8).variant = .full ∧ entry (waiting 0x1A8) (0x9A8#12).toNat = some 0x1050A0A1 ∧
    (waiting 0x1A8).seq.busy = true ∧ phaseOf 0x9A8 = (waiting 0x1A8).seq.phase ∧
    instrOf 0x9A8 = (waiting 0x1A8).seq.instr ∧ extract frozen.cfg.schema 0x1050A0A1 .CRST = 1 := by decide +kernel
theorem witness_MiniEntryRows_ends : (waitingMini 0x12).stage = .frozen ∧ (waitingMini 0x12).variant = .mini ∧
    entry (waitingMini 0x12) (256 * (1#1).toNat + (0x12#8).toNat) = some 0x1050A0A1 ∧
    (waitingMini 0x12).seq.busy = true ∧ 1 = (waitingMini 0x12).seq.phase ∧
    (0x12#8).setWidth 11 = (waitingMini 0x12).seq.instr ∧
    extract frozenMini.cfg.schema 0x1050A0A1 .CRST = 1 := by decide +kernel
theorem witness_MiniEntryRows_fresh : frozenMini.stage = .frozen ∧ frozenMini.variant = .mini ∧
    entry frozenMini (256 * (0#1).toNat + (0xFE#8).toNat) = some frozenMini.cfg.trapWord ∧
    entry frozenMini (256 * (0#1).toNat + (0x12#8).toNat) = some 0x0A0200B1 ∧ frozenMini.seq.busy = false := by
  decide +kernel
theorem witness_OutOfSequence_fresh : isEntryRow12 (.twoWordSecond 0x1A8) = true ∧
    (0x9A8#12).setWidth 32 = rowWord (.twoWordSecond 0x1A8) ∧ frozen.stage = .frozen ∧ frozen.variant = .full ∧
    frozen.seq.busy = false ∧ phaseOf 0x9A8 = 1 ∧ frozenMini.stage = .frozen ∧ frozenMini.variant = .mini ∧
    frozenMini.seq.busy = false := by decide +kernel
theorem witness_OutOfSequence_busy : (waiting 0x1A8).seq.busy = true ∧
    ¬(phaseOf 0x1A8 = (waiting 0x1A8).seq.phase ∧ instrOf 0x1A8 = (waiting 0x1A8).seq.instr) ∧
    ¬(phaseOf 0x9A9 = (waiting 0x1A8).seq.phase ∧ instrOf 0x9A9 = (waiting 0x1A8).seq.instr) ∧
    (waitingMini 0x12).seq.busy = true ∧
    ¬((1 : Bit) = (waitingMini 0x12).seq.phase ∧ (0x13#8).setWidth 11 = (waitingMini 0x12).seq.instr) := by
  decide +kernel
/-- A table whose second word of instruction 5 has `CRST` = 0, and its mini counterpart, with a sequencer that waits
there. -/
def stuckFull : State := (at_ .frozen .full [(2053, 0)] none).setSeq ⟨1, 5, true⟩
def stuckMini : State := (at_ .frozen .mini [(261, 0)] none).setSeq ⟨1, 5, true⟩
theorem witness_Stuck_full : isEntryRow12 (.twoWordSecond 5) = true ∧ (2053#12).setWidth 32 = rowWord (.twoWordSecond 5) ∧
    stuckFull.stage = .frozen ∧ stuckFull.variant = .full ∧ stuckFull.seq = ⟨1, instrOf 2053, true⟩ ∧
    entry stuckFull (2053#12).toNat = some 0 ∧ phaseOf 2053 = 1 ∧
    0 ≠ stuckFull.cfg.trapWord ∧ extract stuckFull.cfg.schema 0 .CRST ≠ 1 := by decide +kernel
theorem witness_Stuck_mini : stuckMini.stage = .frozen ∧ stuckMini.variant = .mini ∧
    stuckMini.seq = ⟨1, (5#8).setWidth 11, true⟩ ∧
    entry stuckMini (256 + (5#8).toNat) = some 0 ∧ 0 ≠ stuckMini.cfg.trapWord ∧
    extract stuckMini.cfg.schema 0 .CRST ≠ 1 := by decide +kernel
theorem witness_ReadsBeforeFreeze : filled.stage ≠ .frozen ∧ start.stage ≠ .frozen ∧ isEntryRow12 (.oneWord 0) = true := by
  decide +kernel
theorem witness_Presenting : isNext (exec (.twoWordFirst 0x1A8) frozen) = true ∧
    isNext (exec (.trapMini 1 0xFF) (waitingMini 0xFF)) = true := by decide +kernel
theorem witness_EntryForm_traps : answer (exec (.trap 1 0x7FF) (waiting 0x7FF)) = some (.entry 0x1013F0F1 true) ∧
    answer (exec (.trapMini 1 0xFF) (waitingMini 0xFF)) = some (.entry 0x1013F0F1 true) ∧
    answer (exec (.aGroup7 1 7 7 1) (waiting 0x3FF)) = some (.entry 0x1013F0F1 true) ∧
    answer (exec (.trap 0 0) frozen) = some (.entry 0x12028081 false) := by decide +kernel
theorem witness_EntryForm_loads : answer (exec .ldG0 frozen) = some (.entry 0x12028081 true) ∧
    answer (exec (.ldG0Ref 0 0 0) frozen) = some (.entry 0x12028081 true) := by decide +kernel
theorem witness_EntryForm_words : answer (exec (.oneWord 0x000) frozen) = some (.entry 0x12028081 true) ∧
    answer (exec (.twoWordFirst 0x1A8) frozen) = some (.entry 0x0A0200B1 true) ∧
    answer (exec (.twoWordSecond 0x1A8) (waiting 0x1A8)) = some (.entry 0x1050A0A1 true) := by decide +kernel
theorem witness_EscapeRow : answer (exec (.escRegB 1 7 7 1 1) frozen) = some (.entry 0x1013F0F1 true) ∧
    (0x7FF#12).setWidth 32 = rowWord (.escRegB 1 7 7 1 1) ∧
    answer (exec (.escRegAA 7 1 7 1) frozen) = some (.entry 0x1013F0F1 true) ∧
    (0x3FF#12).setWidth 32 = rowWord (.escRegAA 7 1 7 1) ∧
    answer (exec (.escRegAB 0 0 0 0) frozen) = some (.entry 0x1013F0F1 true) ∧
    (0x700#12).setWidth 32 = rowWord (.escRegAB 0 0 0 0) := by decide +kernel

/-- The spin on the last instruction of the mini table's address space but one. -/
def spinning : State := frozenMini.setSeq ⟨0, 0xFE, true⟩

theorem witness_Hang : spinning.stage = .frozen ∧ spinning.seq.busy = true ∧ spinning.seq.phase = 0 ∧
    spinning.seq.instr.toNat < spinning.variant.half ∧
    entry spinning spinning.seq.instr.toNat = some spinning.cfg.trapWord ∧ noReset spinning = true := by decide +kernel
theorem witness_TrapWord : paramsOk start.cfg = true ∧ extract start.cfg.schema start.cfg.trapWord .RLOE = 1 ∧
    extract start.cfg.schema start.cfg.trapWord .RIWE = 1 := ⟨paramsOk_start, by decide +kernel, by decide +kernel⟩
theorem witness_TrapWord_other : (0x1013F8F1 : Word) ≠ start.cfg.trapWord := by decide +kernel
theorem witness_EndsWithinTwo : frozenMini.stage = .frozen ∧ frozenMini.seq.busy = false ∧
    (0xFF#11).toNat < frozenMini.variant.half ∧
    (∀ a, a < frozenMini.variant.half → crstOf frozenMini (a + frozenMini.variant.half) = 1) ∧
    noResetNext frozenMini = true := by decide +kernel
theorem witness_ControlLines : schemaOk start.cfg.schema = true ∧
    pack start.cfg.schema maxFields = .ok 0xFFFFFFFF := by
  refine ⟨by decide +kernel, rfl⟩

/-! ### Lifecycle and inputs -/

theorem witness_Frozen : frozen.stage = .frozen ∧ schemaOk frozen.cfg.schema = true ∧ isNext (step frozen) = true := by
  decide +kernel
theorem witness_Frozen_reset : (step (frozen.setInputs [.cpuReset])) = .next (cpuReset frozen) := rfl
theorem witness_Frozen_decodePass : (frozen.setStage .frozen).stage = .frozen ∧
    contentPacks frozen.cfg frozen.variant = true ∧
    contentRange (Config.pRef badRules) ((Config.pRef badRules).rules .full) = some (.RL, 8) :=
  ⟨rfl, contentPacks_full, by decide +kernel⟩
theorem witness_Unclaimed_fill : isNext (exec .fill (at_ .allocated .full [] none)) = true ∧ claimed.stage = .filled := by
  decide +kernel
/-- A filled table with claims and a write that waits. -/
def writing : State := claimed.setInputs [.request (encode (.write1 0x7FF 0 1))]
theorem witness_Unclaimed_step : LifecycleInv writing ∧
    holdsAfter (step writing) (fun t => t.owner.isSome) = true := by unfold LifecycleInv; decide +kernel
theorem witness_Unclaimed_generate : isNext (exec (.generate .mini) start) = true := by decide +kernel
theorem witness_Invariant : LifecycleInv spinning ∧ isNext (step spinning) = true := by unfold LifecycleInv; decide +kernel
theorem witness_Stages : isNext (step writing) = true := by decide +kernel
theorem witness_StepRuns : (start.setInputs [.request (encode (.pack [(.RL, 7)]))]).seq.busy = false ∧
    (start.setInputs [.request (encode (.pack [(.RL, 7)]))]).inputs = [.request (encode (.pack [(.RL, 7)]))] ∧ decoded (encode (.pack [(.RL, 7)])) = some (.pack [(.RL, 7)]) ∧
    (Instr.pack [(.RL, 7)]).wellFormed = true := by decide +kernel
theorem witness_StepRuns_named : decoded [0xA8, 0x09] = some (.twoWordSecond 0x1A8) ∧
    presents (waiting 0x1A8).variant (.twoWordSecond 0x1A8) = some ((waiting 0x1A8).seq.phase, (waiting 0x1A8).seq.instr) ∧
    (Instr.twoWordSecond 0x1A8).wellFormed = true := by decide +kernel
theorem witness_Busy : (waiting 0x1A8).seq.busy = true ∧ noResetNext (waiting 0x1A8) = true ∧
    namesNext (waiting 0x1A8) = false ∧ spinning.variant = .mini ∧ namesNext spinning = false ∧
    (frozen.setSeq ⟨0, 5, true⟩).variant = .full := by decide +kernel
theorem witness_CpuReset : (frozen.setInputs [.cpuReset]).inputs = [.cpuReset] := rfl
theorem witness_DecodeEncode : (Instr.write2 0xFFF 0xFFFFFFFF 1 65535).wellFormed = true ∧
    (Instr.pairUnpack (2 ^ 38 - 1)).wellFormed = true ∧ (Instr.pack [(.IMM, 65535)]).wellFormed = true := by decide +kernel

end Sys2Proof.Tests
end

section
/-! PROOFS. O50: the parameters of the machine after reset meet the constraints of R7 and R170. -/

namespace Sys2Proof.Machine

/-! ### Only the rules of its own variant bear on a content constraint -/

/-- Parameters with other decode rules for the two variants. -/
def withContent (cfg : Params) (full mini : Content) : Params :=
  { cfg with contentFull := full, contentMini := mini }

section
variable (cfg : Params) (full mini : Content)

@[simp] theorem rules_full_withContent : (withContent cfg full mini).rules .full = full := rfl

@[simp] theorem rules_mini_withContent : (withContent cfg full mini).rules .mini = mini := rfl

@[simp] theorem slots_withContent (v : Variant) : slots (withContent cfg full mini) v = slots cfg v := by
  cases v <;> rfl

@[simp] theorem evalField_withContent (c : Combo) (pair : Option (Nat × Nat)) (x : FieldExpr) :
    evalField (withContent cfg full mini) c pair x = evalField cfg c pair x := by
  cases x <;> rfl

@[simp] theorem evalTemplate_withContent (c : Combo) (pair : Option (Nat × Nat)) (t : Template) :
    evalTemplate (withContent cfg full mini) c pair t = evalTemplate cfg c pair t := by
  induction t with
  | nil => rfl
  | cons e t ih => simp only [evalTemplate, evalField_withContent, ih]

@[simp] theorem evalEmit_withContent (c : Combo) (pair : Option (Nat × Nat)) (e : Emit) :
    evalEmit (withContent cfg full mini) c pair e = evalEmit cfg c pair e := by
  cases e <;> simp only [evalEmit, evalTemplate_withContent]

@[simp] theorem ruleEmission_withContent (c : Combo) (r : Rule) :
    ruleEmission (withContent cfg full mini) c r = ruleEmission cfg c r := by
  simp only [ruleEmission, evalEmit_withContent]
  rfl

@[simp] theorem firstMatch_withContent (c : Combo) (rs : List Rule) :
    firstMatch (withContent cfg full mini) c rs = firstMatch cfg c rs := by
  induction rs with
  | nil => rfl
  | cons r rs ih => simp only [firstMatch_cons, ruleEmission_withContent, ih]

@[simp] theorem escapeFirst_withContent (rs : List Rule) (c : Combo) :
    escapeFirst (withContent cfg full mini) rs c = escapeFirst cfg rs c := by
  simp only [escapeFirst, matchingForms, ruleEmission_withContent]

@[simp] theorem emissionForm_withContent (e : Emission) :
    emissionForm (withContent cfg full mini) e = emissionForm cfg e := by
  cases e <;> rfl

@[simp] theorem loadOk_withContent (rs : List Rule) :
    loadOk (withContent cfg full mini) rs = loadOk cfg rs := by
  simp only [loadOk, firstMatch_withContent]

end

/-- The constraints of R170 on one variant's content do not read the other variant's rules. -/
theorem contentOk_withContent_congr (cfg : Params) {full mini full' mini' : Content} {v : Variant}
    (h : (withContent cfg full mini).rules v = (withContent cfg full' mini').rules v) :
    contentOk (withContent cfg full mini) v = contentOk (withContent cfg full' mini') v := by
  simp only [contentOk, contentForms, slots_withContent, firstMatch_withContent, emissionForm_withContent,
    escapeFirst_withContent, loadOk_withContent, h]

/-! ### The contents taken where a free one breaks R170 -/

/-- No rules at all emit nothing and have no forms to order (R169 places no entry of the mini variant). -/
theorem contentOk_mini_of_rules_nil {cfg : Params} (h : cfg.rules .mini = []) : contentOk cfg .mini = true := by
  simp [contentOk, contentForms, h, firstMatch, escapeFirst, matchingForms, alternatesFirst]

/-- The one rule of `someContent`. -/
def someRule : Rule :=
  ⟨0, .A, 0, .plain, .le .regB (.const 5), none,
    .one [(.MOE, .const 1), (.RIWE, .const 1), (.IMM, .const 2), (.CRST, .const 1)]⟩

/-- The field map its template gives: the load of R157 in the one-word form of R158. -/
def someLoad : FieldMap := [(.MOE, 1), (.RIWE, 1), (.IMM, 2), (.CRST, 1)]

theorem someContent_eq : someContent = [someRule] := rfl

theorem ruleEmission_someRule (cfg : Params) (c : Combo) :
    ruleEmission cfg c someRule =
      if Fmt.A = c.fmt ∧ 0 = c.key ∧ evalPred c (.le .regB (.const 5)) = true then some (.one someLoad) else none := rfl

theorem firstMatch_someContent (cfg : Params) (c : Combo) :
    firstMatch cfg c someContent = (ruleEmission cfg c someRule).map (someRule.id, ·) := by
  rw [someContent_eq, firstMatch_cons]
  cases ruleEmission cfg c someRule <;> rfl

theorem packsCrst_someLoad {cfg : Params} (hS : cfg.schema = defaultSchema) : packsCrst cfg someLoad 1 = true := by
  unfold packsCrst
  rw [hS]
  decide +kernel

/-- Every combination the rule claims gets the one-word load, and no other combination is claimed. -/
theorem contentForms_someContent {cfg : Params} {v : Variant} (hS : cfg.schema = defaultSchema)
    (hr : cfg.rules v = someContent) : contentForms cfg v = true := by
  unfold contentForms
  rw [hr, List.all_eq_true]
  rintro ⟨c, x⟩ -
  rw [firstMatch_someContent, ruleEmission_someRule]
  split_ifs
  · exact packsCrst_someLoad hS
  · rfl

/-- A lone rule has no alternate form after it. -/
theorem escapeFirst_singleton (cfg : Params) (r : Rule) (c : Combo) : escapeFirst cfg [r] c = true := by
  unfold escapeFirst matchingForms
  by_cases hr : (ruleEmission cfg c r).isSome = true
  · cases hf : r.form <;> simp [hr, hf, alternatesFirst]
  · simp [hr, alternatesFirst]

theorem loadOk_someContent (cfg : Params) : loadOk cfg someContent = true := rfl

theorem contentOk_full_of_rules_someContent {cfg : Params} (hS : cfg.schema = defaultSchema)
    (hr : cfg.rules .full = someContent) : contentOk cfg .full = true := by
  have hesc : ∀ c, escapeFirst cfg someContent c = true := escapeFirst_singleton cfg someRule
  simp [contentOk, contentForms_someContent hS hr, hr, hesc, loadOk_someContent]

/-! ### The content after reset -/

/-- The free content of the full variant stands only where it meets R170 (log 10). -/
theorem contentOk_contentFull :
    contentOk (withContent Config.noContent Config.contentFull []) .full = true := by
  unfold Config.contentFull
  split_ifs with hraw
  · exact hraw
  · exact contentOk_full_of_rules_someContent rfl rfl

/-- The free content of the mini variant stands only where it meets R170 (log 10). -/
theorem contentOk_contentMini :
    contentOk (withContent Config.noContent [] Config.contentMini) .mini = true := by
  unfold Config.contentMini
  split_ifs with hraw
  · exact hraw
  · exact contentOk_mini_of_rules_nil rfl

theorem hardware_eq :
    Config.hardware = withContent Config.noContent Config.contentFull Config.contentMini := rfl

theorem contentOk_hardware (v : Variant) : contentOk Config.hardware v = true := by
  rw [hardware_eq]
  cases v with
  | full => exact (contentOk_withContent_congr _ (mini := Config.contentMini) (mini' := []) rfl).trans contentOk_contentFull
  | mini => exact (contentOk_withContent_congr _ (full := Config.contentFull) (full' := []) rfl).trans contentOk_contentMini

/-! ### The parameters after reset (R7) -/

/-- The code of -2 is kept apart from that of the offset (R68; log 4). -/
theorem immM2_ne_two : Config.immM2 ≠ 2 := by
  unfold Config.immM2
  split_ifs with hraw
  · decide
  · exact hraw

/-- The free mini layout stands only where it meets R87 (log 7). -/
theorem miniValid_layoutMini : miniValid Config.layoutMini = true := by
  unfold Config.layoutMini
  split_ifs with hraw
  · exact hraw
  · exact miniValid_someLayoutMini

/-- The eight fields of R155, whatever the three codes of the default trap word are: its eight free bits lie at OP, IMM
and IADDRSEL, and leave the others as they stand in the constant. -/
theorem extract_defaultTrapWord : ∀ (op : BitVec 4) (imm : BitVec 3) (sel : Bit),
    let field := extract defaultSchema (defaultTrapWord op imm sel)
    field .CRST = 1 ∧ field .MOE = 0 ∧ field .MWE = 0 ∧ field .RI = 7 ∧ field .RL = 7 ∧
      field .IMM = imm.toNat ∧ field .OP = op.toNat ∧ field .ALUOE = 1 := by
  decide +kernel

theorem toNat_immM2_hardware : Config.hardware.immM2.toNat = Config.immM2.toNat :=
  BitVec.toNat_setWidth_of_le (by decide)

theorem schemaOk_defaultSchema : schemaOk defaultSchema = true := by decide +kernel

theorem layoutsOk_hardware : layoutsOk Config.hardware = true := by
  have hfull : Config.hardware.layoutFull.valid = true := by decide +kernel
  have hmini : miniValid Config.hardware.layoutMini = true := miniValid_layoutMini
  simp [layoutsOk, hfull, hmini]

theorem codesOk_hardware : codesOk Config.hardware = true := by
  have hop : Config.hardware.opAdd.toNat < 2 ^ widthIn defaultSchema .OP := Config.opAdd.isLt
  have himm : Config.immM2.toNat < 2 ^ widthIn defaultSchema .IMM := Config.immM2.isLt
  have hne : Config.immM2.toNat ≠ immOff7 := fun h => immM2_ne_two (BitVec.eq_of_toNat_eq h)
  have hS : Config.hardware.schema = defaultSchema := rfl
  simp [codesOk, hS, toNat_immM2_hardware, hop, himm, hne]

theorem trapWordOk_hardware : trapWordOk Config.hardware = true := by
  have hS : Config.hardware.schema = defaultSchema := rfl
  have hop : Config.hardware.opAdd = Config.opAdd := rfl
  have hword : Config.hardware.trapWord = defaultTrapWord Config.opAdd Config.immM2 Config.iaddrselPc := rfl
  obtain ⟨hcrst, hmoe, hmwe, hri, hrl, himm, hopf, haluoe⟩ :=
    extract_defaultTrapWord Config.opAdd Config.immM2 Config.iaddrselPc
  simp [trapWordOk, hS, hop, hword, toNat_immM2_hardware, hcrst, hmoe, hmwe, hri, hrl, himm, hopf, haluoe]

theorem paramsOk_hardware : paramsOk Config.hardware = true := by
  have hS : schemaOk Config.hardware.schema = true := schemaOk_defaultSchema
  have hreg : registerWidthsOk Config.hardware = true := rfl
  have hstride : 5 ≤ Config.hardware.pairStride := by decide
  simp [paramsOk, hS, hreg, hstride, layoutsOk_hardware, codesOk_hardware, trapWordOk_hardware]

/-- Settles O50: each free value is taken only where it meets its constraint, its fallback meets it too, and the
constraints on one variant's content do not read the other's. -/
theorem resetParametersMeetTheirConstraints : Obligations.ResetParametersMeetTheirConstraints :=
  ⟨paramsOk_hardware, contentOk_hardware .full, contentOk_hardware .mini⟩

end Sys2Proof.Machine
end

section
/-! PROOFS. The elementary updates of the state: every step is made of them, so what each of them keeps, every step
keeps. -/

namespace Sys2Proof.Machine

/-! ### The elementary updates -/

/-- One elementary update, with the condition under which the model makes it. -/
inductive Update : State → State → Prop
  | answer (s : State) (r : Result) : Update s (s.setResult r)
  | take (s : State) (rest : List Input) : Update s (s.setInputs rest)
  | alloc (s : State) (v : Variant) (hs : s.stage = .unallocated) :
      Update s (((s.setVariant v).setTable [] none).setStage .allocated)
  | fill (s : State) (hs : s.stage = .allocated) : Update s ((s.setTable [] (some [])).setStage .filled)
  | write (s : State) (a : Nat) (w : Word) (id : RuleId) (hs : s.stage = .filled) (ha : a < s.variant.size) :
      Update s (claim s a w id)
  | freeze (s : State) (hs : s.stage = .filled) : Update s (s.setStage .frozen)
  | drive (s : State) (w : Word) (hs : s.stage = .frozen) : Update s (s.setCw w)
  | advance (s : State) (q : Sequencer) (hs : s.stage = .frozen) (hi : q.instr.toNat < s.variant.half)
      (hq : q.phase = 0 ∨ q.busy = true) : Update s (s.setSeq q)
  | emit (s : State) (bytes : List Byte) (hs : s.stage = .frozen) : Update s (s.setImage bytes)
  | load (s : State) (v : Variant) (m : Cells Word) (hs : s.stage = .unallocated)
      (hm : tableWf s.cfg.trapWord v.size m = true) :
      Update s (((s.setVariant v).setTable m none).setStage .frozen)
  | reset (s : State) : Update s (cpuReset s)

/-- A sequence of elementary updates. -/
abbrev Updates : State → State → Prop := Relation.ReflTransGen Update

theorem Update.updates {s t : State} (h : Update s t) : Updates s t := .single h

/-! ### The operations are made of elementary updates -/

theorem updates_done {o : Outcome} {s t : State} (ho : ∀ u, o = .next u → Updates s u) (h : done o = .next t) :
    Updates s t := by
  obtain ⟨u, hu, rfl⟩ := done_eq_next.mp h
  exact (ho u hu).tail (.answer u .done)

theorem updates_allocTable {v : Variant} {s t : State} (h : allocTable v s = .next t) : Updates s t := by
  obtain ⟨hs, rfl⟩ := allocTable_eq_next.mp h
  exact (Update.alloc s v hs).updates

theorem updates_fillTable {s t : State} (h : fillTable s = .next t) : Updates s t := by
  obtain ⟨hs, rfl⟩ := fillTable_eq_next.mp h
  exact (Update.fill s hs).updates

theorem updates_writeOne {a : Nat} {w : Word} {id : RuleId} {s t : State} (ha : a < s.variant.size)
    (h : writeOne a w id s = .next t) : Updates s t := by
  obtain ⟨hs, -, rfl⟩ := writeOne_eq_next.mp h
  exact (Update.write s a w id hs ha).updates

/-- WRITE2 claims its two phase slots one after the other (R139). -/
theorem updates_writeTwo {a : Nat} {w0 w1 : Word} {id : RuleId} {s t : State}
    (h : writeTwo a w0 w1 id s = .next t) : Updates s t := by
  obtain ⟨⟨hs, ha⟩, -, -, rfl⟩ := writeTwo_eq_next.mp h
  have hsecond := add_half_lt_size ha
  exact (Update.write s a w0 id hs (by omega)).updates.tail (.write _ _ w1 id hs hsecond)

theorem updates_visit {s t : State} {c : Combo × Nat} (hc : c.2 < s.variant.size) (h : visit s c = .next t) :
    Updates s t := by
  rcases visit_cases h with ⟨-, rfl⟩ | ⟨id, m, w, -, -, hw⟩ | ⟨id, m0, m1, w0, w1, -, -, -, hw⟩
  · exact .refl
  · exact updates_writeOne hc hw
  · exact updates_writeTwo hw

theorem updates_visitAll {cs : List (Combo × Nat)} {s t : State} (hcs : ∀ c ∈ cs, c.2 < s.variant.size)
    (h : visitAll cs s = .next t) : Updates s t := by
  have hind := visitAll_induction (P := fun u => u.variant = s.variant ∧ Updates s u) ?_ ⟨rfl, .refl⟩ h
  · exact hind.2
  · rintro c hc u u' ⟨hv, hu⟩ hu'
    exact ⟨(visit_frame hu').2.1.trans hv, hu.trans (updates_visit (hv ▸ hcs c hc) hu')⟩

theorem updates_decodeTable {s t : State} (h : decodeTable s = .next t) : Updates s t := by
  obtain ⟨-, hs, -, u, hu, rfl⟩ := decodeTable_eq_next.mp h
  have hfilled : u.stage = .filled := (visitAll_frame hu).2.2.1.trans hs
  exact (updates_visitAll (fun c hc => slot_lt_size hc) hu).tail (.freeze u hfilled)

theorem updates_generateTable {v : Variant} {s t : State} (h : generateTable v s = .next t) : Updates s t := by
  obtain ⟨-, s1, s2, halloc, hfill, hdecode⟩ := generateTable_eq_next.mp h
  exact (updates_allocTable halloc).trans ((updates_fillTable hfill).trans (updates_decodeTable hdecode))

theorem updates_lookupAt {v : Variant} {p : Bit} {i : Nat} {s t : State} (h : lookupAt v p i s = .next t) :
    Updates s t := by
  obtain ⟨hs, -, rfl⟩ := lookupAt_eq_next.mp h
  exact (Update.drive s _ hs).updates.tail (.answer _ _)

theorem updates_serializeTable {big : Bool} {s t : State} (h : serializeTable big s = .next t) : Updates s t := by
  obtain ⟨hs, rfl⟩ := serializeTable_eq_next.mp h
  exact (Update.emit s _ hs).updates.tail (.answer _ _)

/-- One lookup of the sequencer: CW is driven, the sequencer set, the entry answered. -/
theorem updates_entry {s : State} (w : Word) (q : Sequencer) (r : Result) (hs : s.stage = .frozen)
    (hi : q.instr.toNat < s.variant.half) (hq : q.phase = 0 ∨ q.busy = true) :
    Updates s (((s.setCw w).setSeq q).setResult r) :=
  ((Update.drive s w hs).updates.tail (.advance _ q hs hi hq)).tail (.answer _ r)

theorem updates_present {p : Bit} {i : InstrBits} {f : Bool} {s t : State} (h : present p i f s = .next t) :
    Updates s t := by
  obtain ⟨hs, hi, -, rfl | ⟨w, -, -, hw⟩⟩ := present_cases h
  · exact updates_entry _ _ _ hs hi (.inl rfl)
  · rcases sequence_eq_next.mp hw with ⟨-, rfl⟩ | ⟨-, -, rfl⟩
    · exact updates_entry _ _ _ hs hi (.inl rfl)
    · exact updates_entry _ _ _ hs hi (.inr rfl)

theorem updates_presentIn {v : Variant} {p : Bit} {i : InstrBits} {f : Bool} {s t : State}
    (h : presentIn v p i f s = .next t) : Updates s t :=
  updates_present (presentIn_eq_next.mp h).2

theorem updates_loadImage {v : Variant} {big : Bool} {l : List Byte} {s t : State}
    (h : loadImage v big l s = .next t) : Updates s t := by
  obtain ⟨hs, hl, rfl⟩ := loadImage_eq_next.mp h
  exact (Update.load s v _ hs (tableWf_image _ big hl)).updates

/-! ### The rows are made of elementary updates -/

/-- A pure row changes the answer alone (R110, R120). -/
theorem exec_pureRow_eq_next {i : Instr} {s t : State} (hi : isPureRow i = true) (h : exec i s = .next t) :
    ∃ r, t = s.setResult r := by
  cases i with
  | pack m =>
    simp only [exec, execPack] at h
    split at h
    · cases h
    · split at h
      · cases h; exact ⟨_, rfl⟩
      · cases h
  | schemaValid S =>
    simp only [exec, execSchemaValid] at h
    split at h
    · cases h; exact ⟨_, rfl⟩
    · cases h
  | pairPack base operand =>
    simp only [exec, execPairPack] at h
    split at h
    · cases h; exact ⟨_, rfl⟩
    · cases h
  | extract | indexA | indexB | split | indexMini | pairUnpack => cases h; exact ⟨_, rfl⟩
  | _ => cases hi

theorem updates_pureRow {i : Instr} {s t : State} (hi : isPureRow i = true) (h : exec i s = .next t) :
    Updates s t := by
  obtain ⟨r, rfl⟩ := exec_pureRow_eq_next hi h
  exact (Update.answer s r).updates

/-- WRITE1 completes at a phase-0 index only (R138; log 22). -/
theorem updates_execWrite1 {x : BitVec 12} {w : Word} {id : RuleId} {s t : State}
    (h : execWrite1 x w id s = .next t) : Updates s t := by
  unfold execWrite1 at h
  split at h
  · cases h
  · next hx =>
    refine updates_done (fun u hu => ?_) h
    have hs : s.stage = .filled := (writeOne_eq_next.mp hu).1
    have hhalf : x.toNat < s.variant.half := by simpa [hs] using hx
    exact updates_writeOne (hhalf.trans (half_lt_size _)) hu

theorem updates_exec {i : Instr} {s t : State} (h : exec i s = .next t) : Updates s t := by
  cases i with
  | pack | extract | schemaValid | indexA | indexB | split | indexMini | pairPack | pairUnpack =>
    exact updates_pureRow rfl h
  | alloc => exact updates_done (fun _ => updates_allocTable) h
  | fill => exact updates_done (fun _ => updates_fillTable) h
  | write1 => exact updates_execWrite1 h
  | write2 => exact updates_done (fun _ => updates_writeTwo) h
  | decodePass => exact updates_done (fun _ => updates_decodeTable) h
  | generate => exact updates_done (fun _ => updates_generateTable) h
  | lookup | lookupMini => exact updates_lookupAt h
  | serialize => exact updates_serializeTable h
  | oneWord | twoWordFirst | twoWordSecond => exact updates_present h
  | trap | trapMini | ldG0 | ldG0Ref | escRegB | escRegAA | escRegAB | aGroup7 => exact updates_presentIn h

/-! ### The step -/

theorem step_of_cpuReset {s : State} {rest : List Input} (hin : s.inputs = .cpuReset :: rest) :
    step s = .next (cpuReset (s.setInputs rest)) := by
  simp only [step, fetch, hin]

/-- A busy sequencer makes its own lookup while the inputs wait (R28; log 15). -/
theorem step_of_busy {s : State} (hbusy : s.seq.busy = true) (hreset : noResetNext s = true)
    (hnamed : namesNext s = false) : step s = exec (pendingLookup s) s := by
  unfold noResetNext at hreset
  unfold namesNext at hnamed
  cases hin : s.inputs with
  | nil => simp only [step, fetch, hin, hbusy, if_true]
  | cons input rest =>
    cases input with
    | cpuReset => simp [hin] at hreset
    | loadImage v big bytes => simp only [step, fetch, hin, hbusy, if_true]
    | request bytes =>
      have hnone : namedLookup s bytes = none := by simpa [hin] using hnamed
      simp only [step, fetch, hin, hbusy, if_true, hnone]

/-- A request that names the busy sequencer's next lookup is consumed by it (log 15). -/
theorem step_of_namedLookup {s : State} {bytes : List Byte} {rest : List Input} {i : Instr}
    (hin : s.inputs = .request bytes :: rest) (hbusy : s.seq.busy = true) (hnamed : namedLookup s bytes = some i) :
    step s = exec i (s.setInputs rest) := by
  simp only [step, fetch, hin, hbusy, if_true, hnamed]

theorem namedLookup_eq_some {s : State} {bytes : List Byte} {i : Instr} :
    namedLookup s bytes = some i ↔ decode bytes = .ok i ∧ presents s.variant i = some (s.seq.phase, s.seq.instr) := by
  unfold namedLookup
  cases decode bytes with
  | error e => simp
  | ok j =>
    simp only [Option.ite_none_right_eq_some, Option.some.injEq, Except.ok.injEq]
    constructor
    · rintro ⟨hj, rfl⟩; exact ⟨rfl, hj⟩
    · rintro ⟨rfl, hj⟩; exact ⟨hj, rfl⟩

theorem step_of_idle_request {s : State} {bytes : List Byte} {rest : List Input} {i : Instr}
    (hin : s.inputs = .request bytes :: rest) (hidle : s.seq.busy = false) (hdec : decode bytes = .ok i) :
    step s = exec i (s.setInputs rest) := by
  simp [step, fetch, hin, hidle, hdec]

theorem step_of_idle_undecodable {s : State} {bytes : List Byte} {rest : List Input} {e : DecodeError}
    (hin : s.inputs = .request bytes :: rest) (hidle : s.seq.busy = false) (hdec : decode bytes = .error e) :
    step s = .refused (.undecodable e) := by
  simp [step, fetch, hin, hidle, hdec]

theorem step_of_idle_loadImage {s : State} {v : Variant} {big : Bool} {bytes : List Byte} {rest : List Input}
    (hin : s.inputs = .loadImage v big bytes :: rest) (hidle : s.seq.busy = false) :
    step s = loadImage v big bytes (s.setInputs rest) := by
  simp [step, fetch, hin, hidle]

theorem step_of_idle_nil {s : State} (hin : s.inputs = []) (hidle : s.seq.busy = false) : step s = .next s := by
  simp [step, fetch, hin, hidle]

/-- What a step can be: a CPU reset, an instruction that takes its request from the inputs, the busy sequencer's own
lookup, an image load, or nothing (R28, R197, R207; log 15, log 28). -/
theorem step_cases {s t : State} (h : step s = .next t) :
    (∃ rest, s.inputs = .cpuReset :: rest ∧ t = cpuReset (s.setInputs rest)) ∨
    (∃ bytes rest i, s.inputs = .request bytes :: rest ∧ decode bytes = .ok i ∧ exec i (s.setInputs rest) = .next t) ∨
    (s.seq.busy = true ∧ exec (pendingLookup s) s = .next t) ∨
    (∃ v big bytes rest, s.inputs = .loadImage v big bytes :: rest ∧ s.seq.busy = false ∧
      loadImage v big bytes (s.setInputs rest) = .next t) ∨
    (s.inputs = [] ∧ s.seq.busy = false ∧ t = s) := by
  by_cases hown : s.seq.busy = true ∧ noResetNext s = true ∧ namesNext s = false
  · obtain ⟨hbusy, hreset, hnamed⟩ := hown
    rw [step_of_busy hbusy hreset hnamed] at h
    exact .inr (.inr (.inl ⟨hbusy, h⟩))
  cases hin : s.inputs with
  | nil =>
    have hidle : s.seq.busy = false := by simpa [noResetNext, namesNext, hin] using hown
    rw [step_of_idle_nil hin hidle, Host.Outcome.next.injEq] at h
    exact .inr (.inr (.inr (.inr ⟨rfl, hidle, h.symm⟩)))
  | cons input rest =>
    cases input with
    | cpuReset =>
      rw [step_of_cpuReset hin, Host.Outcome.next.injEq] at h
      exact .inl ⟨rest, rfl, h.symm⟩
    | loadImage v big bytes =>
      have hidle : s.seq.busy = false := by simpa [noResetNext, namesNext, hin] using hown
      rw [step_of_idle_loadImage hin hidle] at h
      exact .inr (.inr (.inr (.inl ⟨v, big, bytes, rest, rfl, hidle, h⟩)))
    | request bytes =>
      refine .inr (.inl ⟨bytes, rest, ?_⟩)
      cases hbusy : s.seq.busy with
      | true =>
        have hnamed : (namedLookup s bytes).isSome = true := by
          simpa [noResetNext, namesNext, hin, hbusy, Option.isSome_iff_ne_none] using hown
        obtain ⟨i, hi⟩ := Option.isSome_iff_exists.mp hnamed
        rw [step_of_namedLookup hin hbusy hi] at h
        exact ⟨i, rfl, (namedLookup_eq_some.mp hi).1, h⟩
      | false =>
        cases hdec : decode bytes with
        | ok i =>
          rw [step_of_idle_request hin hbusy hdec] at h
          exact ⟨i, rfl, rfl, h⟩
        | error e => rw [step_of_idle_undecodable hin hbusy hdec] at h; cases h

theorem updates_step {s t : State} (h : step s = .next t) : Updates s t := by
  rcases step_cases h with ⟨rest, -, rfl⟩ | ⟨bytes, rest, i, -, -, hexec⟩ | ⟨-, hexec⟩ |
    ⟨v, big, bytes, rest, -, -, hload⟩ | ⟨-, -, rfl⟩
  · exact (Update.take s rest).updates.tail (.reset _)
  · exact (Update.take s rest).updates.trans (updates_exec hexec)
  · exact updates_exec hexec
  · exact (Update.take s rest).updates.trans (updates_loadImage hload)
  · exact .refl

/-- A property that every elementary update keeps, every step keeps. -/
theorem step_keeps {P : State → Prop} (hP : ∀ u v, Update u v → P u → P v) {s t : State} (hs : P s)
    (h : step s = .next t) : P t := by
  have hupd := updates_step h
  clear h
  induction hupd with
  | refl => exact hs
  | tail _ huv hu => exact hP _ _ huv hu

end Sys2Proof.Machine
end

section
/-! PROOFS. O47 and O48: every elementary update, and so every step, keeps the parameters, the order of the stages and
the invariant of the lifecycle. -/

namespace Sys2Proof.Machine

/-! ### Parameters and stages (R22, R35) -/

theorem Update.cfg_and_stageRank {s t : State} (h : Update s t) :
    t.cfg = s.cfg ∧ stageRank s.stage ≤ stageRank t.stage := by
  cases h with
  | answer | take | write | drive | advance | emit => exact ⟨rfl, le_rfl⟩
  | alloc _ hs | fill hs | freeze hs | load _ _ hs => simp [hs, stageRank]
  | reset => simp [cpuReset_eq]

/-- Settles O47: no elementary update changes a parameter or lowers the stage. -/
theorem stagesOnlyAdvanceAndParametersStay : Obligations.StagesOnlyAdvanceAndParametersStay := by
  intro s t h
  refine step_keeps (P := fun u => u.cfg = s.cfg ∧ stageRank s.stage ≤ stageRank u.stage) ?_ ⟨rfl, le_rfl⟩ h
  rintro u v huv ⟨hcfg, hrank⟩
  obtain ⟨hcfg', hrank'⟩ := huv.cfg_and_stageRank
  exact ⟨hcfg'.trans hcfg, hrank.trans hrank'⟩

/-! ### The parts of the invariant, spelled out -/

theorem claimedOrTrap_iff_of_owner_some {s : State} {m : Cells RuleId} (ho : s.owner = some m) :
    claimedOrTrap s = true ↔
      ownersWf s.variant.size m = true ∧ ∀ c ∈ s.rom, (cellAt m c.1).isSome = true := by
  simp [claimedOrTrap, ho]

theorem seqShape_iff {s : State} :
    seqShape s = true ↔
      (s.seq.phase = 0 ∨ s.seq.busy = true) ∧
        (s.seq.busy = true → s.stage = .frozen ∧ s.seq.instr.toNat < s.variant.half) := by
  cases hbusy : s.seq.busy <;> simp [seqShape, hbusy]

theorem seqShape_of_idle {s : State} (hphase : s.seq.phase = 0) (hbusy : s.seq.busy = false) :
    seqShape s = true := by
  simp [seqShape, hphase, hbusy]

/-- Before the freeze the sequencer is idle at phase 0, and such a sequencer fits every stage (R28). -/
theorem seqShape_of_seq_eq {s t : State} (h : seqShape s = true) (hs : s.stage ≠ .frozen) (hseq : t.seq = s.seq) :
    seqShape t = true := by
  obtain ⟨hphase, hbusy⟩ := seqShape_iff.mp h
  have hidle : s.seq.busy = false := by
    by_contra hb
    exact hs (hbusy (by simpa using hb)).1
  exact seqShape_of_idle (by simpa [hseq, hidle] using hphase) (by rw [hseq, hidle])

theorem outputShape_of_frozen {s : State} (hs : s.stage = .frozen) : outputShape s = true := by
  simp [outputShape, hs]

/-- Before the freeze no output is driven, and an output that is not driven fits every stage (R34). -/
theorem outputShape_of_outputs_eq {s t : State} (h : outputShape s = true) (hs : s.stage ≠ .frozen)
    (hcw : t.cw = s.cw) (himage : t.image = s.image) : outputShape t = true := by
  have hnone : s.cw = none ∧ s.image = none := by simpa [outputShape, hs] using h
  simp [outputShape, hcw, himage, hnone]

/-! ### Every update keeps the invariant -/

theorem mem_writeWord {trap : Word} {m : Cells Word} {a : Nat} {w : Word} {c : Nat × Word}
    (h : c ∈ writeWord trap m a w) : c = (a, w) ∨ c ∈ m := by
  unfold writeWord at h
  split at h
  · exact .inr (mem_of_mem_dropCell h)
  · exact mem_putCell h

/-- A claim leaves every earlier claim in place. -/
theorem isSome_cellAt_putCell {m : Cells RuleId} {a x : Nat} (id : RuleId)
    (h : x = a ∨ (cellAt m x).isSome = true) : (cellAt (putCell m a id) x).isSome = true := by
  by_cases hxa : x = a
  · subst hxa; simp
  · rw [cellAt_putCell_of_ne m id hxa]; exact h.resolve_left hxa

/-- An override write lists an entry and claims it at once (R138, R139, R150). -/
theorem claimedOrTrap_claim {s : State} {a : Nat} (w : Word) (id : RuleId) (ha : a < s.variant.size)
    (ho : s.owner.isSome = true) (hc : claimedOrTrap s = true) : claimedOrTrap (claim s a w id) = true := by
  obtain ⟨m, hm⟩ := Option.isSome_iff_exists.mp ho
  obtain ⟨hwf, hclaimed⟩ := (claimedOrTrap_iff_of_owner_some hm).mp hc
  have howner : (claim s a w id).owner = some (putCell m a id) := by simp [claim, hm]
  refine (claimedOrTrap_iff_of_owner_some howner).mpr ⟨ownersWf_putCell id ha hwf, fun c hcell => ?_⟩
  refine isSome_cellAt_putCell id ?_
  rcases mem_writeWord hcell with rfl | hold
  · exact .inl rfl
  · exact .inr (hclaimed c hold)

theorem claimedOrTrap_cpuReset {s : State} (hc : claimedOrTrap s = true) : claimedOrTrap (cpuReset s) = true := by
  rw [cpuReset_eq]
  split
  · rfl
  · exact hc

theorem stageShape_cpuReset {s : State} (h : stageShape s = true) : stageShape (cpuReset s) = true := by
  rw [cpuReset_eq]
  split
  · next hs => simp [stageShape, hs]
  · exact h

theorem Update.lifecycleInv {s t : State} (h : Update s t) (hs : LifecycleInv s) : LifecycleInv t := by
  obtain ⟨hwf, hstage, hclaim, hseq, hout⟩ := hs
  cases h with
  | answer | take => exact ⟨hwf, hstage, hclaim, hseq, hout⟩
  | alloc v h0 =>
    exact ⟨rfl, rfl, rfl, seqShape_of_seq_eq hseq (by simp [h0]) rfl,
      outputShape_of_outputs_eq hout (by simp [h0]) rfl rfl⟩
  | fill h0 =>
    exact ⟨rfl, rfl, rfl, seqShape_of_seq_eq hseq (by simp [h0]) rfl,
      outputShape_of_outputs_eq hout (by simp [h0]) rfl rfl⟩
  | write a w id h0 ha =>
    have howner : s.owner.isSome = true := by simpa [stageShape, h0] using hstage
    have hstage' : stageShape (claim s a w id) = true := by
      simp [stageShape, claim, h0]
    exact ⟨Memory.wf_claim w id ha hwf, hstage', claimedOrTrap_claim w id ha howner hclaim, hseq, hout⟩
  | freeze h0 => exact ⟨hwf, rfl, hclaim, seqShape_of_seq_eq hseq (by simp [h0]) rfl, rfl⟩
  | drive w h0 => exact ⟨hwf, hstage, hclaim, hseq, outputShape_of_frozen h0⟩
  | advance q h0 hi hq => exact ⟨hwf, hstage, hclaim, seqShape_iff.mpr ⟨hq, fun _ => ⟨h0, hi⟩⟩, hout⟩
  | emit bytes h0 => exact ⟨hwf, hstage, hclaim, hseq, outputShape_of_frozen h0⟩
  | load v m h0 hm => exact ⟨hm, rfl, rfl, seqShape_of_seq_eq hseq (by simp [h0]) rfl, rfl⟩
  | reset =>
    exact ⟨Memory.wf_cpuReset hwf, stageShape_cpuReset hstage, claimedOrTrap_cpuReset hclaim,
      seqShape_of_idle (by simp [cpuReset_eq]) (by simp [cpuReset_eq]), by simpa [outputShape, cpuReset_eq] using hout⟩

/-- Settles O48: every step is made of elementary updates, and each of them keeps the invariant. -/
theorem everyStepKeepsTheInvariant : Obligations.EveryStepKeepsTheInvariant :=
  fun _ _ hs h => step_keeps (fun _ _ huv hu => huv.lifecycleInv hu) hs h

end Sys2Proof.Machine
end

section
/-! PROOFS. O52 and O53: the steps in which the machine takes no request. -/

namespace Sys2Proof.Machine

/-- Settles O52: the step is the pending lookup, which the phase and the variant name. -/
theorem busySequencerLooksUpNext : Obligations.BusySequencerLooksUpNext := by
  intro s hbusy hreset hnamed
  have hstep := step_of_busy hbusy hreset hnamed
  refine ⟨fun hphase => ?_, fun hphase hvariant => ?_, fun hphase hvariant => ?_⟩
  · simp [hstep, pendingLookup, hphase]
  · simp [hstep, pendingLookup, hphase, hvariant]
  · simp [hstep, pendingLookup, hphase, hvariant]

/-- Settles O53: a CPU reset changes the sequencer and drops the owner map of a finished table, and an entry depends on
neither. -/
theorem cpuResetKeepsTheTable : Obligations.CpuResetKeepsTheTable := by
  intro s rest hin
  refine ⟨_, step_of_cpuReset hin, ?_⟩
  rw [cpuReset_eq]
  exact ⟨rfl, rfl, fun _ => rfl, rfl, rfl, rfl, rfl, rfl, rfl, rfl, rfl⟩

end Sys2Proof.Machine
end

section
/-! PROOFS. O34 to O37: the rows that present an address on a finished table. -/

namespace Sys2Proof.Machine

/-! ### Addresses -/

@[simp] theorem phaseOf_append (p : Bit) (j : InstrBits) : phaseOf (p ++ j) = p :=
  BitVec.extractLsb'_append_eq_left

@[simp] theorem instrOf_append (p : Bit) (j : InstrBits) : instrOf (p ++ j) = j :=
  BitVec.setWidth_append_eq_right

/-- A 12-bit address is the port index of its phase bit and its instruction bits (R83). -/
theorem portIndex_full (x : BitVec 12) : portIndex .full (phaseOf x) (instrOf x).toNat = x.toNat := by
  have hx := x.isLt
  simp only [portIndex, phaseOf, instrOf, Variant.half, Variant.instrBits, BitVec.extractLsb'_toNat,
    BitVec.toNat_setWidth, Nat.shiftRight_eq_div_pow]
  omega

/-- A 9-bit address, written as the entry statements write it (R130). -/
theorem portIndex_mini (p : Bit) (j : BitVec 8) :
    portIndex .mini p (j.setWidth 11).toNat = 256 * p.toNat + j.toNat := by
  rw [BitVec.toNat_setWidth_of_le (by decide), portIndex, Nat.mul_comm]
  rfl

theorem toNat_lt_half_mini (j : BitVec 8) : (j.setWidth 11).toNat < Variant.mini.half := by
  rw [BitVec.toNat_setWidth_of_le (by decide)]
  exact j.isLt

theorem eq_of_setWidth_eq {x y : BitVec 12} (h : x.setWidth 32 = y.setWidth 32) : x = y := by
  simpa using congrArg (BitVec.setWidth 12) h

/-! ### The rows that present an address -/

theorem presentIn_of_frozen {v : Variant} {s : State} (hs : s.stage = .frozen) (hv : s.variant = v) (p : Bit)
    (i : InstrBits) (f : Bool) : presentIn v p i f s = present p i f s := by
  simp [presentIn, hs, hv]

/-- On a finished full table an entry row is the presentation of its address; only the answer's second part depends on
the row (log 17). -/
theorem exec_entryRow12 {i : Instr} {x : BitVec 12} {s : State} (hi : isEntryRow12 i = true)
    (hx : x.setWidth 32 = rowWord i) (hs : s.stage = .frozen) (hv : s.variant = .full) :
    ∃ ok, exec i s = present (phaseOf x) (instrOf x) ok s := by
  suffices hpresents : ∃ ok, exec i s = presentAddr x ok s by
    obtain ⟨ok, hok⟩ := hpresents
    exact ⟨ok, hok.trans (presentIn_of_frozen hs hv ..)⟩
  have hin := presentIn_of_frozen hs hv
  cases i with
  | trap p j =>
    obtain rfl : x = p ++ j := eq_of_setWidth_eq hx
    exact ⟨_, by rw [presentAddr, phaseOf_append, instrOf_append]; rfl⟩
  | oneWord j | twoWordFirst j =>
    obtain rfl : x = 0#1 ++ j := eq_of_setWidth_eq hx
    exact ⟨_, by rw [presentAddr, phaseOf_append, instrOf_append, hin]; rfl⟩
  | twoWordSecond j =>
    obtain rfl : x = 1#1 ++ j := eq_of_setWidth_eq hx
    exact ⟨_, by rw [presentAddr, phaseOf_append, instrOf_append, hin]; rfl⟩
  | ldG0 =>
    obtain rfl : x = 0 := eq_of_setWidth_eq hx
    exact ⟨_, rfl⟩
  | ldG0Ref a b q =>
    obtain rfl : x = addrA 0 0 a b q := eq_of_setWidth_eq hx
    exact ⟨_, rfl⟩
  | escRegB f u v e q =>
    obtain rfl : x = escRegBAddr f u v e q := eq_of_setWidth_eq hx
    exact ⟨_, rfl⟩
  | escRegAA g e b q =>
    obtain rfl : x = escRegAAAddr g e b q := eq_of_setWidth_eq hx
    exact ⟨_, rfl⟩
  | escRegAB e sub b q =>
    obtain rfl : x = escRegABAddr e sub b q := eq_of_setWidth_eq hx
    exact ⟨_, rfl⟩
  | aGroup7 p a b q =>
    have haddr : ∀ p : Bit, p ++ 0#1 ++ 7#3 = p ++ 7#4 := by decide
    obtain rfl : x = addrA p 7 a b q := eq_of_setWidth_eq (hx.trans (by rw [rowWord, ← haddr]; rfl))
    exact ⟨_, rfl⟩
  | _ => cases hi

/-- The rows of the mini variant that present a 9-bit address. -/
def isMiniEntryRow (p : Bit) (j : BitVec 8) (i : Instr) : Prop :=
  i = .trapMini p j ∨ (p = 0 ∧ i = .oneWord (j.setWidth 11)) ∨ (p = 0 ∧ i = .twoWordFirst (j.setWidth 11)) ∨
    (p = 1 ∧ i = .twoWordSecond (j.setWidth 11))

/-- The same on a finished mini table. -/
theorem exec_miniEntryRow {i : Instr} {p : Bit} {j : BitVec 8} {s : State} (hi : isMiniEntryRow p j i)
    (hs : s.stage = .frozen) (hv : s.variant = .mini) : ∃ ok, exec i s = present p (j.setWidth 11) ok s := by
  rcases hi with rfl | ⟨rfl, rfl⟩ | ⟨rfl, rfl⟩ | ⟨rfl, rfl⟩
  · exact ⟨_, presentIn_of_frozen hs hv ..⟩
  · exact ⟨_, rfl⟩
  · exact ⟨_, rfl⟩
  · exact ⟨_, rfl⟩

/-! ### What presenting an address answers -/

theorem eq_romWord_of_entry {s : State} {a : Nat} {w : Word} (hs : s.stage = .frozen) (h : entry s a = some w) :
    w = romWord s a := by
  simp only [entry, hs, Option.ite_none_right_eq_some, Option.some.injEq] at h
  exact h.2.symm

section
variable {p : Bit} {i : InstrBits} {s : State}

theorem isNextAddress_eq_false
    (h : (s.seq.busy = false ∧ p = 1) ∨ (s.seq.busy = true ∧ ¬(p = s.seq.phase ∧ i = s.seq.instr))) :
    isNextAddress s p i = false := by
  rw [Bool.eq_false_iff, ne_eq, isNextAddress_iff]
  rcases h with ⟨hidle, rfl⟩ | ⟨hbusy, hne⟩
  · simp [hidle]
  · simpa [hbusy] using hne

theorem present_outOfSequence (hs : s.stage = .frozen) (hi : i.toNat < s.variant.half)
    (hnext : isNextAddress s p i = false) (f : Bool) : present p i f s = .refused .outOfSequence := by
  simp [present, hs, hi, hnext]

/-- At the sequencer's next address the entry is the trap word, which hangs, or a word the sequencer steps on. -/
theorem present_of_entry {w : Word} (hs : s.stage = .frozen) (hi : i.toNat < s.variant.half)
    (hnext : isNextAddress s p i = true) (hw : entry s (portIndex s.variant p i.toNat) = some w) (f : Bool) :
    present p i f s = if w = s.cfg.trapWord then .next (takeTrap i f s) else sequence p i w f s := by
  have hrom := eq_romWord_of_entry hs hw
  unfold romWord readWord at hrom
  unfold present
  cases hcell : cellAt s.rom (portIndex s.variant p i.toNat) with
  | none =>
    have htrap : w = s.cfg.trapWord := by simpa [hcell] using hrom
    simp [hs, hi, hnext, htrap]
  | some w' =>
    obtain rfl : w = w' := by simpa [hcell] using hrom
    simp [hs, hi, hnext]

/-- The sequencer's step on an entry that has one (R28, R168). -/
theorem present_completes {w : Word} (hs : s.stage = .frozen) (hi : i.toNat < s.variant.half)
    (hnext : isNextAddress s p i = true) (hw : entry s (portIndex s.variant p i.toNat) = some w)
    (hends : p = 0 ∨ w = s.cfg.trapWord ∨ extract s.cfg.schema w .CRST = 1) (f : Bool) :
    present p i f s = .next (((s.setCw w).setSeq
      (if w = s.cfg.trapWord then ⟨0, i, true⟩
        else if extract s.cfg.schema w .CRST = 1 then ⟨0, i, false⟩
        else ⟨1, i, true⟩)).setResult (.entry w f)) := by
  rw [present_of_entry hs hi hnext hw]
  by_cases htrap : w = s.cfg.trapWord
  · simp [htrap, takeTrap]
  · by_cases hcrst : extract s.cfg.schema w .CRST = 1
    · simp [htrap, sequence, lineOn, hcrst]
    · have hp : p = 0 := by simpa [htrap, hcrst] using hends
      simp [htrap, sequence, lineOn, hcrst, hp]

/-- At phase 1 there is no step on a word that does not end the instruction (R28, U6; log 25). -/
theorem present_stuck {w : Word} (hs : s.stage = .frozen) (hi : i.toNat < s.variant.half)
    (hseq : s.seq = ⟨1, i, true⟩) (hw : entry s (portIndex s.variant 1 i.toNat) = some w)
    (htrap : w ≠ s.cfg.trapWord) (hcrst : extract s.cfg.schema w .CRST ≠ 1) (f : Bool) :
    present 1 i f s = .fault (.sequencerStuck i) := by
  have hnext : isNextAddress s 1 i = true := isNextAddress_iff.mpr (.inr (by simp [hseq]))
  rw [present_of_entry hs hi hnext hw]
  simp [htrap, sequence, lineOn, hcrst]

end

/-! ### The statements -/

/-- Settles O34: the row presents its address, which is the sequencer's next and has a step. -/
theorem entryRowsComplete : Obligations.EntryRowsComplete := by
  intro i x w s hi hx hs hv hw hnext hends
  obtain ⟨ok, hexec⟩ := exec_entryRow12 hi hx hs hv
  have hlt : (instrOf x).toNat < s.variant.half := hv ▸ (instrOf x).isLt
  rw [← portIndex_full x, ← hv] at hw
  exact ⟨ok, hexec.trans (present_completes hs hlt (isNextAddress_iff.mpr hnext) hw hends ok)⟩

/-- Settles O35: the same in the mini variant. -/
theorem miniEntryRowsComplete : Obligations.MiniEntryRowsComplete := by
  intro s p j i w hs hv hi hw hnext hends
  obtain ⟨ok, hexec⟩ := exec_miniEntryRow hi hs hv
  have hlt : (j.setWidth 11).toNat < s.variant.half := hv ▸ toNat_lt_half_mini j
  rw [← portIndex_mini, ← hv] at hw
  exact ⟨ok, hexec.trans (present_completes hs hlt (isNextAddress_iff.mpr hnext) hw hends ok)⟩

/-- Settles O36: in either variant the row presents an address that is not the sequencer's next. -/
theorem outOfSequenceAddressesAreRefused : Obligations.OutOfSequenceAddressesAreRefused := by
  constructor
  · intro i x s hi hx hs hv hnext
    obtain ⟨ok, hexec⟩ := exec_entryRow12 hi hx hs hv
    have hlt : (instrOf x).toNat < s.variant.half := hv ▸ (instrOf x).isLt
    exact hexec.trans (present_outOfSequence hs hlt (isNextAddress_eq_false hnext) ok)
  · intro s p j i hs hv hi hnext
    obtain ⟨ok, hexec⟩ := exec_miniEntryRow hi hs hv
    have hlt : (j.setWidth 11).toNat < s.variant.half := hv ▸ toNat_lt_half_mini j
    exact hexec.trans (present_outOfSequence hs hlt (isNextAddress_eq_false hnext) ok)

/-- Settles O37: in either variant the row presents the phase-1 address at which the sequencer waits. -/
theorem phaseOneWithoutEndIsStuck : Obligations.PhaseOneWithoutEndIsStuck := by
  constructor
  · intro i x w s hi hx hs hv hseq hw hphase htrap hcrst
    obtain ⟨ok, hexec⟩ := exec_entryRow12 hi hx hs hv
    have hlt : (instrOf x).toNat < s.variant.half := hv ▸ (instrOf x).isLt
    rw [← portIndex_full x, ← hv, hphase] at hw
    rw [hexec, hphase]
    exact present_stuck hs hlt hseq hw htrap hcrst ok
  · intro s j w hs hv hseq hw htrap hcrst
    have hlt : (j.setWidth 11).toNat < s.variant.half := hv ▸ toNat_lt_half_mini j
    have haddr : 256 + j.toNat = portIndex s.variant 1 (j.setWidth 11).toNat := by rw [hv, portIndex_mini]; rfl
    rw [haddr] at hw
    have hstuck : ∀ i, isMiniEntryRow 1 j i → exec i s = .fault (.sequencerStuck (j.setWidth 11)) := by
      intro i hi
      obtain ⟨ok, hexec⟩ := exec_miniEntryRow hi hs hv
      exact hexec.trans (present_stuck hs hlt hseq hw htrap hcrst ok)
    exact ⟨hstuck _ (.inl rfl), hstuck _ (.inr (.inr (.inr ⟨rfl, rfl⟩)))⟩

end Sys2Proof.Machine
end

section
/-! PROOFS. O30, O32 and O38: the image of a finished table, and what presenting an address leaves unchanged. -/

namespace Sys2Proof.Machine

/-! ### The bytes of one word (R44) -/

@[simp] theorem length_wordBytes (big : Bool) (w : Word) : (wordBytes big w).length = 4 := by
  cases big <;> rfl

theorem getElem?_wordBytes (big : Bool) (w : Word) {k : Nat} (hk : k < 4) :
    (wordBytes big w)[k]? = some (if big then w.extractLsb' (24 - 8 * k) 8 else w.extractLsb' (8 * k) 8) := by
  cases big <;> interval_cases k <;> rfl

/-- A word is its four bytes again. -/
theorem wordOfBytes_extractLsb' (w : Word) :
    wordOfBytes (w.extractLsb' 0 8) (w.extractLsb' 8 8) (w.extractLsb' 16 8) (w.extractLsb' 24 8) = w := by
  unfold wordOfBytes
  rw [BitVec.extractLsb'_append_extractLsb'_eq_extractLsb' (start₂ := 24) (start₁ := 16) rfl,
    BitVec.extractLsb'_append_extractLsb'_eq_extractLsb' (start₂ := 16) (start₁ := 8) rfl,
    BitVec.extractLsb'_append_extractLsb'_eq_extractLsb' (start₂ := 8) (start₁ := 0) rfl,
    BitVec.extractLsb'_eq_self]

/-! ### The bytes of a list of words (R43) -/

theorem length_flatMap_wordBytes (big : Bool) (ws : List Word) :
    (ws.flatMap (wordBytes big)).length = 4 * ws.length := by
  induction ws with
  | nil => rfl
  | cons w ws ih =>
    rw [List.flatMap_cons, List.length_append, ih, length_wordBytes, List.length_cons]
    omega

/-- Word `a` of a list has the bytes `4a` to `4a+3`. -/
theorem getElem?_flatMap_wordBytes (big : Bool) {ws : List Word} {a : Nat} {w : Word} (hw : ws[a]? = some w) {k : Nat}
    (hk : k < 4) : (ws.flatMap (wordBytes big))[4 * a + k]? = (wordBytes big w)[k]? := by
  induction ws generalizing a with
  | nil => cases hw
  | cons v ws ih =>
    rw [List.flatMap_cons]
    cases a with
    | zero =>
      obtain rfl : v = w := by simpa using hw
      rw [Nat.mul_zero, Nat.zero_add, List.getElem?_append_left (by simpa using hk)]
    | succ a =>
      have hoff : 4 * (a + 1) + k - 4 = 4 * a + k := by omega
      rw [List.getElem?_append_right (by rw [length_wordBytes]; omega), length_wordBytes, hoff]
      exact ih (by simpa using hw)

/-- Reading an image with the byte order it was written with returns its words. -/
theorem imageWords_flatMap_wordBytes (big : Bool) (ws : List Word) :
    imageWords big (ws.flatMap (wordBytes big)) = ws := by
  induction ws with
  | nil => rfl
  | cons w ws ih =>
    rw [List.flatMap_cons]
    cases big with
    | false => exact congrArg₂ List.cons (wordOfBytes_extractLsb' w) ih
    | true => exact congrArg₂ List.cons (wordOfBytes_extractLsb' w) ih

/-! ### The words of a table -/

/-- The words of a table of `n` entries in address order. -/
def tableWords (trap : Word) (n : Nat) (m : Cells Word) : List Word := (List.range n).map (readWord trap m)

@[simp] theorem length_tableWords (trap : Word) (n : Nat) (m : Cells Word) : (tableWords trap n m).length = n := by
  simp [tableWords]

theorem imageOf_eq (big : Bool) (s : State) :
    imageOf big s = (tableWords s.cfg.trapWord s.variant.size s.rom).flatMap (wordBytes big) :=
  (List.flatMap_map ..).symm

theorem length_imageOf (big : Bool) (s : State) : (imageOf big s).length = 4 * s.variant.size := by
  rw [imageOf_eq, length_flatMap_wordBytes, length_tableWords]

theorem getElem?_tableWords_of_entry {s : State} {a : Nat} {w : Word} (hs : s.stage = .frozen)
    (h : entry s a = some w) : (tableWords s.cfg.trapWord s.variant.size s.rom)[a]? = some w := by
  have hw := eq_romWord_of_entry hs h
  have ha : a < s.variant.size := by
    by_contra hlt
    simp [entry, hlt] at h
  simp [tableWords, ha, hw, romWord]

/-- The head of a table answers no other index. -/
theorem readWord_cons_of_ne (trap : Word) {b x : Nat} (u : Word) (m : Cells Word) (h : x ≠ b) :
    readWord trap ((b, u) :: m) x = readWord trap m x := by
  simp [readWord, cellAt, h]

/-- A rising map either lists its bound first or rises from the next index. -/
theorem risingFrom_cases {α : Type} {a : Nat} {m : Cells α} (h : risingFrom a m = true) :
    risingFrom (a + 1) m = true ∨ ∃ u m', m = (a, u) :: m' ∧ risingFrom (a + 1) m' = true := by
  cases m with
  | nil => exact .inl rfl
  | cons c m =>
    obtain ⟨b, u⟩ := c
    simp only [risingFrom, Bool.and_eq_true, decide_eq_true_eq] at h ⊢
    obtain ⟨hab, hm⟩ := h
    rcases hab.eq_or_lt with rfl | hlt
    · exact .inr ⟨u, m, rfl, hm⟩
    · exact .inl ⟨hlt, hm⟩

/-- A table in canonical form is rebuilt from its words: the trap word stands exactly where nothing is listed. -/
theorem tableOfWords_readWord {trap : Word} {n a : Nat} {m : Cells Word} (hrise : risingFrom a m = true)
    (hcells : ∀ c ∈ m, c.1 < a + n ∧ c.2 ≠ trap) :
    tableOfWords trap a ((List.range' a n).map (readWord trap m)) = m := by
  induction n generalizing a m with
  | zero =>
    cases m with
    | nil => rfl
    | cons c m =>
      obtain ⟨hlt, -⟩ := hcells c (List.mem_cons_self ..)
      simp only [risingFrom, Bool.and_eq_true, decide_eq_true_eq] at hrise
      omega
  | succ n ih =>
    rw [List.range'_succ, List.map_cons, tableOfWords]
    have hbound : a + (n + 1) = a + 1 + n := by omega
    rw [hbound] at hcells
    rcases risingFrom_cases hrise with hlater | ⟨u, m, rfl, hlater⟩
    · have htrap : readWord trap m a = trap := by
        rw [readWord, cellAt_of_risingFrom hlater (Nat.lt_succ_self a), Option.getD_none]
      rw [if_pos htrap]
      exact ih hlater hcells
    · obtain ⟨hhead, htail⟩ := List.forall_mem_cons.mp hcells
      have hread : readWord trap ((a, u) :: m) a = u := by simp [readWord, cellAt]
      have hrest : (List.range' (a + 1) n).map (readWord trap ((a, u) :: m)) =
          (List.range' (a + 1) n).map (readWord trap m) :=
        List.map_congr_left fun x hx =>
          readWord_cons_of_ne trap u m (by have := List.mem_range'_1.mp hx; omega)
      rw [hread, if_neg hhead.2, hrest, ih hlater htail]

theorem tableOfWords_tableWords {trap : Word} {n : Nat} {m : Cells Word} (hm : tableWf trap n m = true) :
    tableOfWords trap 0 (tableWords trap n m) = m := by
  obtain ⟨hrise, hcells⟩ := tableWf_iff.mp hm
  rw [tableWords, List.range_eq_range']
  exact tableOfWords_readWord hrise (by simpa using hcells)

/-- The words of a state's image make its table again. -/
theorem tableOfWords_imageOf {s : State} (hs : Memory.wf s = true) (big : Bool) :
    tableOfWords s.cfg.trapWord 0 (imageWords big (imageOf big s)) = s.rom := by
  rw [imageOf_eq, imageWords_flatMap_wordBytes, tableOfWords_tableWords hs]

/-! ### The image statements -/

/-- Settles O30: the image is the bytes of the table's words in address order. -/
theorem serializedImageIsTheWordsInOrder : Obligations.SerializedImageIsTheWordsInOrder := by
  intro s big hs
  refine ⟨imageOf big s, serializeTable_eq_next.mpr ⟨hs, rfl⟩, length_imageOf big s, fun a w k hw hk => ?_⟩
  rw [imageOf_eq, getElem?_flatMap_wordBytes big (getElem?_tableWords_of_entry hs hw) hk, getElem?_wordBytes big w hk]

/-- Settles O32: an idle control store without a table takes the image, whose words make the table again. -/
theorem loadedImageReturnsTheTable : Obligations.LoadedImageReturnsTheTable := by
  intro s u big rest _ hwf hu hidle htrap hin
  have hstep := (step_of_idle_loadImage hin hidle).trans (loadImage_eq_next.mpr ⟨hu, length_imageOf big s, rfl⟩)
  refine ⟨_, hstep, rfl, rfl, ?_, rfl, rfl, rfl, rfl, rfl, rfl, rfl⟩
  simp only [setStage_rom, setTable_rom, setInputs_cfg, htrap]
  exact tableOfWords_imageOf hwf big

/-! ### Presenting an address -/

/-- Every entry row that completes has presented an address. -/
theorem present_of_exec_entryRow {i : Instr} {s t : State} (hi : isEntryRow12 i = true ∨ ∃ p j, i = .trapMini p j)
    (h : exec i s = .next t) : ∃ p j f, present p j f s = .next t := by
  rcases hi with hi | ⟨p, j, rfl⟩
  · cases i with
    | oneWord | twoWordFirst | twoWordSecond => exact ⟨_, _, _, h⟩
    | trap | ldG0 | ldG0Ref | escRegB | escRegAA | escRegAB | aGroup7 => exact ⟨_, _, _, (presentIn_eq_next.mp h).2⟩
    | _ => cases hi
  · exact ⟨_, _, _, (presentIn_eq_next.mp h).2⟩

/-- An entry depends on the parameters, the variant, the stage and the table alone. -/
theorem entry_congr {s t : State} (hcfg : t.cfg = s.cfg) (hvariant : t.variant = s.variant)
    (hstage : t.stage = s.stage) (hrom : t.rom = s.rom) (a : Nat) : entry t a = entry s a := by
  simp only [entry, romWord, hcfg, hvariant, hstage, hrom]

/-- Settles O38: the row presents an address, which leaves every field that an entry or an owner is read from. -/
theorem presentingAnAddressLeavesTheTable : Obligations.PresentingAnAddressLeavesTheTable := by
  intro i s t hi h
  obtain ⟨p, j, f, hpresent⟩ := present_of_exec_entryRow hi h
  obtain ⟨hcfg, hvariant, hstage, hrom, howner, himage, hinputs⟩ := present_frame hpresent
  refine ⟨fun a => ⟨entry_congr hcfg hvariant hstage hrom a, ?_⟩, hcfg, hvariant, hstage, himage, hinputs⟩
  simp only [ownerOf, howner]

end Sys2Proof.Machine
end

section
/-! PROOFS. O44 and O55: under a valid schema a packed word reads back as its field values, and a word whose bits the
schema covers is PACK of its slices. -/

namespace Sys2Proof.Machine

/-! ### What a valid schema is (R82) -/

/-- The first clause of R82 holds of the fields looked at exactly when each is named once. -/
theorem namesClause_eq_none {S : Schema} {fs : List Field} :
    namesClause S fs = none ↔ ∀ f ∈ fs, (S.filter fun e => e.field = f).length = 1 := by
  induction fs with
  | nil => simp [namesClause]
  | cons f fs ih =>
    rw [List.forall_mem_cons, ← ih, namesClause]
    split
    · next hmissing => simp [hmissing]
    · next honce => simp [honce]
    · next hnotOnce => exact iff_of_false (by simp) fun h => hnotOnce h.1

/-- The second and fourth clause of R82. -/
theorem rangeClause_eq_none {S : Schema} :
    rangeClause S = none ↔ ∀ e ∈ S, e.width ≠ 0 ∧ e.width ≤ 4 ∧ e.offset + e.width ≤ 32 := by
  induction S with
  | nil => simp [rangeClause]
  | cons e S ih =>
    rw [List.forall_mem_cons, ← ih, rangeClause]
    split
    · next hwidth => exact iff_of_false (by simp) (by omega)
    · next hwidth =>
      split
      · next hout => exact iff_of_false (by simp) (by omega)
      · next hin => exact ⟨fun h => ⟨by omega, h⟩, And.right⟩

/-- The third clause of R82, over every pair of entries. -/
theorem overlapClause_eq_none {S : Schema} :
    overlapClause S = none ↔ S.Pairwise fun d e => rangesApart d.offset d.width e.offset e.width = true := by
  induction S with
  | nil => simp [overlapClause]
  | cons e S ih =>
    rw [List.pairwise_cons, ← ih, overlapClause]
    split
    · next d hd =>
      have hmeets := List.find?_some hd
      have hmem := List.mem_of_find?_eq_some hd
      exact iff_of_false (by simp) fun h => by simp [h.1 d hmem] at hmeets
    · next hnone => simpa using fun _ => List.find?_eq_none.mp hnone

/-- The clauses of R82, each as a property of the list. -/
theorem schemaOk_iff {S : Schema} :
    schemaOk S = true ↔ (∀ f, (S.filter fun e => e.field = f).length = 1) ∧
      (∀ e ∈ S, e.width ≠ 0 ∧ e.width ≤ 4 ∧ e.offset + e.width ≤ 32) ∧
      S.Pairwise fun d e => rangesApart d.offset d.width e.offset e.width = true := by
  have hall : ∀ f, f ∈ Field.all := by intro f; cases f <;> decide
  have hnames : namesClause S Field.all = none ↔ ∀ f, (S.filter fun e => e.field = f).length = 1 := by
    simp only [namesClause_eq_none, hall, true_imp_iff]
  rw [← hnames, ← rangeClause_eq_none, ← overlapClause_eq_none, schemaOk, schemaClause]
  cases namesClause S Field.all <;> cases rangeClause S <;> simp

/-- A valid schema finds each of its entries by the entry's field. -/
theorem find?_field_of_mem {S : Schema} (hS : schemaOk S = true) {e : FieldSpec} (he : e ∈ S) :
    S.find? (fun d => d.field = e.field) = some e := by
  obtain ⟨hnames, -, -⟩ := schemaOk_iff.mp hS
  obtain ⟨d, hd⟩ := List.length_eq_one_iff.mp (hnames e.field)
  have hmem : e ∈ S.filter fun d => d.field = e.field := by simp [he]
  rw [hd, List.mem_singleton] at hmem
  rw [← List.head?_filter, hd, hmem]; rfl

/-- A valid schema lists every field. -/
theorem exists_find?_of_schemaOk {S : Schema} (hS : schemaOk S = true) (f : Field) :
    ∃ e ∈ S, e.field = f ∧ S.find? (fun d => d.field = f) = some e := by
  obtain ⟨hnames, -, -⟩ := schemaOk_iff.mp hS
  obtain ⟨e, he⟩ := List.exists_mem_of_length_pos ((hnames f).symm ▸ Nat.one_pos)
  obtain ⟨hmem, rfl⟩ : e ∈ S ∧ e.field = f := by simpa using he
  exact ⟨e, hmem, rfl, find?_field_of_mem hS hmem⟩

/-- Ranges lie apart in either order. -/
theorem rangesApart_iff {lo₁ w₁ lo₂ w₂ : Nat} :
    rangesApart lo₁ w₁ lo₂ w₂ = true ↔ lo₁ + w₁ ≤ lo₂ ∨ lo₂ + w₂ ≤ lo₁ := by
  simp [rangesApart]

/-- Two entries of a valid schema that cover one bit are the same entry. -/
theorem eq_of_covers_bit {S : Schema} (hS : schemaOk S = true) {d e : FieldSpec} (hd : d ∈ S) (he : e ∈ S) {k : Nat}
    (hdk : d.offset ≤ k ∧ k < d.offset + d.width) (hek : e.offset ≤ k ∧ k < e.offset + e.width) : d = e := by
  obtain ⟨-, -, hapart⟩ := schemaOk_iff.mp hS
  have hsymm : Std.Symm fun d e : FieldSpec => rangesApart d.offset d.width e.offset e.width = true :=
    ⟨fun _ _ h => rangesApart_iff.mpr (rangesApart_iff.mp h).symm⟩
  by_contra hne
  have := rangesApart_iff.mp (hapart.forall hd he hne)
  omega

/-! ### EXTRACT after PACK (R111, R113, R114) -/

/-- The bits of a field's slice are the bits of the word from the field's offset up. -/
theorem testBit_extract {S : Schema} {f : Field} {e : FieldSpec} (hfind : S.find? (fun d => d.field = f) = some e)
    (w : Word) (j : Nat) : (extract S w f).testBit j = (decide (j < e.width) && w.getLsbD (e.offset + j)) := by
  rw [extract, hfind]
  simp [Nat.testBit_mod_two_pow, Nat.testBit_shiftRight, BitVec.testBit_toNat]

/-- A slice fits its field. -/
theorem extract_lt {S : Schema} {f : Field} {e : FieldSpec} (hfind : S.find? (fun d => d.field = f) = some e)
    (w : Word) : extract S w f < 2 ^ e.width := by
  rw [extract, hfind]
  exact Nat.mod_lt _ (Nat.two_pow_pos _)

/-- A packed value has no bit above its field's width. -/
theorem testBit_fieldValue_of_pack {S : Schema} {m : FieldMap} {w : Word} (hpack : pack S m = .ok w) {e : FieldSpec}
    (he : e ∈ S) {j : Nat} (hj : e.width ≤ j) : (fieldValue m e.field).testBit j = false :=
  Nat.testBit_lt_two_pow ((fits_of_pack hpack e he).trans_le (Nat.pow_le_pow_right two_pos hj))

/-- A word packed under a valid schema has each field's value at the field's place: no other field reaches it. -/
theorem getLsbD_of_pack_of_mem {S : Schema} {m : FieldMap} {w : Word} (hS : schemaOk S = true)
    (hpack : pack S m = .ok w) {e : FieldSpec} (he : e ∈ S) {j : Nat} (hj : j < e.width) :
    w.getLsbD (e.offset + j) = (fieldValue m e.field).testBit j := by
  obtain ⟨-, hrange, -⟩ := schemaOk_iff.mp hS
  have hk : e.offset + j < 32 := by have := hrange e he; omega
  rw [Bool.eq_iff_iff, getLsbD_of_pack hpack hk]
  constructor
  · rintro ⟨d, hd, hle, hbit⟩
    have hlt : e.offset + j - d.offset < d.width := by
      by_contra hge
      simp [testBit_fieldValue_of_pack hpack hd (not_lt.mp hge)] at hbit
    obtain rfl := eq_of_covers_bit hS hd he (k := e.offset + j) (by omega) (by omega)
    simpa using hbit
  · exact fun hbit => ⟨e, he, by omega, by simpa using hbit⟩

/-- EXTRACT after PACK: every field of a packed word reads as the value packed into it (R114). -/
theorem extract_of_pack {S : Schema} {m : FieldMap} {w : Word} (hS : schemaOk S = true) (hpack : pack S m = .ok w)
    (f : Field) : extract S w f = fieldValue m f := by
  obtain ⟨e, he, rfl, hfind⟩ := exists_find?_of_schemaOk hS f
  refine Nat.eq_of_testBit_eq fun j => ?_
  rw [testBit_extract hfind]
  by_cases hj : j < e.width
  · simp [hj, getLsbD_of_pack_of_mem hS hpack he hj]
  · simp [hj, testBit_fieldValue_of_pack hpack he (not_lt.mp hj)]

/-! ### PACK after EXTRACT (R111, R114) -/

/-- Under a valid schema that covers every bit, a word is PACK of any field map that gives each field its slice. -/
theorem pack_eq_of_extract {S : Schema} {m : FieldMap} {w : Word} (hS : schemaOk S = true)
    (hcover : ∀ k < 32, ∃ e ∈ S, e.offset ≤ k ∧ k < e.offset + e.width)
    (hm : ∀ f, fieldValue m f = extract S w f) : pack S m = .ok w := by
  obtain ⟨u, hu⟩ : ∃ u, pack S m = .ok u :=
    pack_eq_ok fun e he => hm e.field ▸ extract_lt (find?_field_of_mem hS he) w
  suffices u = w from this ▸ hu
  refine BitVec.eq_of_getLsbD_eq fun k hk => ?_
  obtain ⟨e, he, hle, hlt⟩ := hcover k hk
  have hj : k - e.offset < e.width := by omega
  calc u.getLsbD k = u.getLsbD (e.offset + (k - e.offset)) := by rw [Nat.add_sub_cancel' hle]
    _ = (extract S w e.field).testBit (k - e.offset) := by rw [getLsbD_of_pack_of_mem hS hu he hj, hm]
    _ = w.getLsbD k := by simp [testBit_extract (find?_field_of_mem hS he), hj, Nat.add_sub_cancel' hle]

/-! ### The control lines of a packed word -/

/-- An enable of a packed word is on exactly when its field is 1. -/
theorem lineOn_of_pack {S : Schema} {m : FieldMap} {w : Word} (hS : schemaOk S = true) (hpack : pack S m = .ok w)
    (f : Field) : lineOn S w f = decide (fieldValue m f = 1) := by
  rw [lineOn, extract_of_pack hS hpack]

/-- A gated register index of a packed word is its field's value where the enable's field is 1. -/
theorem gated_of_pack {S : Schema} {m : FieldMap} {w : Word} (hS : schemaOk S = true) (hpack : pack S m = .ok w)
    (enable index : Field) :
    gated S w enable index = if fieldValue m enable = 1 then some (fieldValue m index) else none := by
  simp only [gated, lineOn_of_pack hS hpack, extract_of_pack hS hpack, decide_eq_true_eq]

/-- Settles O44: each line is a function of slices, and the slices of a packed word are its field values. -/
theorem controlLinesFollowThePackedFields : Obligations.ControlLinesFollowThePackedFields := by
  intro cfg m w hS hpack
  have hflags : flagsWritten cfg.schema w = decide (fieldValue m .FLAGSWE = 1) := lineOn_of_pack hS hpack _
  constructor
  · simp only [controlLines, secondOperand, immOff7, flagsRead, hflags, gated_of_pack hS hpack,
      lineOn_of_pack hS hpack, extract_of_pack hS hpack]
  · rw [flagsPreserved, hflags, ← decide_not]

/-! ### A bare 32-bit word -/

/-- The field map of a word's slices, as the decoder writes it for a bare control word (log 11). -/
def slices (S : Schema) (w : Word) : FieldMap :=
  S.map fun e => (e.field, (w >>> e.offset).toNat % 2 ^ e.width)

theorem bareControlWord_eq (w : Word) : bareControlWord w = .pack (slices defaultSchema w) := rfl

/-- A word's slices give each field what EXTRACT reads of it. -/
theorem fieldValue_slices (S : Schema) (w : Word) (f : Field) : fieldValue (slices S w) f = extract S w f := by
  simp only [fieldValue, slices, extract, List.find?_map, Function.comp_def]
  cases S.find? fun e => e.field = f with
  | none => rfl
  | some e => simp

theorem map_fst_slices (S : Schema) (w : Word) : (slices S w).map (·.1) = S.map (·.field) := by
  simp [slices, Function.comp_def]

/-- The slices of a word are operands of a request: each field once, each value far below 16 bits. -/
theorem fieldMapOk_slices (w : Word) : fieldMapOk (slices defaultSchema w) = true := by
  have hwidth : ∀ e ∈ defaultSchema, e.width ≤ 16 := by decide
  have hnodup : (defaultSchema.map (·.field)).Nodup := by decide
  have hfits : ∀ x ∈ slices defaultSchema w, x.2 < 2 ^ 16 :=
    List.forall_mem_map.mpr fun e he =>
      (Nat.mod_lt _ (Nat.two_pow_pos _)).trans_le (Nat.pow_le_pow_right two_pos (hwidth e he))
  simpa [fieldMapOk, map_fst_slices, hnodup] using hfits

/-- The four low bytes of a word are its slices of eight bits. -/
theorem leBytes_four_toNat (w : Word) :
    leBytes 4 w.toNat = [w.extractLsb' 0 8, w.extractLsb' 8 8, w.extractLsb' 16 8, w.extractLsb' 24 8] := by
  simp [leBytes, BitVec.extractLsb', Nat.shiftRight_eq_div_pow, Nat.div_div_eq_div_mul]

/-- A bare control word is read as PACK of its slices. -/
theorem decodeTableWord_bareControlWord (w : Word) :
    decodeTableWord 32 w.toNat = some (.pack (slices defaultSchema w)) := by
  have hparse : parse (leBytes 4 w.toNat) = .ok (.pack (slices defaultSchema w)) := by
    rw [leBytes_four_toNat, parse, wordOfBytes_extractLsb', bareControlWord_eq]
  have hdecode : decode (leBytes 4 w.toNat) = .ok (.pack (slices defaultSchema w)) := by
    rw [decode, hparse]
    exact if_pos (fieldMapOk_slices w)
  simp [decodeTableWord, hdecode]

/-- Settles O55: the default schema names the 21 fields in order and covers every bit. -/
theorem bareControlWordIsItsFields : Obligations.BareControlWordIsItsFields := fun w =>
  have hcover : ∀ k < 32, ∃ e ∈ defaultSchema, e.offset ≤ k ∧ k < e.offset + e.width := by decide
  ⟨slices defaultSchema w, decodeTableWord_bareControlWord w, map_fst_slices defaultSchema w,
    pack_eq_of_extract schemaOk_defaultSchema hcover (fieldValue_slices defaultSchema w)⟩

end Sys2Proof.Machine
end

section
/-! PROOFS. O1, O2, O4, O5, O6 and O19: the packer's rows, the check of the schema, and the check of the values that
rules fix. -/

namespace Sys2Proof.Machine

/-! ### PACK and EXTRACT under a valid schema (R111, R113, R114) -/

theorem schemaClause_eq_none_iff {S : Schema} : schemaClause S = none ↔ schemaOk S = true := by
  rw [schemaOk, Option.isNone_iff_eq_none]

/-- PACK answers the packed word and changes nothing else. -/
theorem exec_pack_of_ok {s : State} {m : FieldMap} {w : Word} (hS : schemaOk s.cfg.schema = true)
    (hpack : pack s.cfg.schema m = .ok w) : exec (.pack m) s = .next (s.setResult (.word w)) := by
  simp only [exec, execPack, schemaClause_eq_none_iff.mpr hS, hpack]

theorem exec_extract (s : State) (w : Word) (f : Field) :
    exec (.extract w f) s = .next (s.setResult (.value (extract s.cfg.schema w f))) := rfl

theorem widthIn_of_mem {S : Schema} (hS : schemaOk S = true) {e : FieldSpec} (he : e ∈ S) :
    widthIn S e.field = e.width := by
  rw [widthIn, find?_field_of_mem hS he]

theorem extract_of_mem {S : Schema} (hS : schemaOk S = true) {e : FieldSpec} (he : e ∈ S) (w : Word) :
    extract S w e.field = (w.extractLsb' e.offset e.width).toNat := by
  rw [extract, find?_field_of_mem hS he, BitVec.extractLsb'_toNat]

/-- A bit that no field covers is 0 in a packed word: no value reaches past its field. -/
theorem getLsbD_of_pack_of_uncovered {S : Schema} {m : FieldMap} {w : Word} (hpack : pack S m = .ok w) {k : Nat}
    (hk : ∀ e ∈ S, ¬(e.offset ≤ k ∧ k < e.offset + e.width)) : w.getLsbD k = false := by
  by_cases hlt : k < 32
  · rw [Bool.eq_false_iff, ne_eq, getLsbD_of_pack hpack hlt]
    rintro ⟨e, he, hle, hbit⟩
    have hpast : e.width ≤ k - e.offset := by have := hk e he; omega
    simp [testBit_fieldValue_of_pack hpack he hpast] at hbit
  · exact BitVec.getLsbD_of_ge w k (not_lt.mp hlt)

/-- A field map that lists every field gives each the value listed. -/
theorem fieldValue_map_all (g : Field → Nat) (f : Field) : fieldValue (Field.all.map fun d => (d, g d)) f = g f := by
  have hfind : Field.all.find? (fun d => d = f) = some f := by cases f <;> decide
  simp [fieldValue, List.find?_map, hfind]

/-- Packing the slices of a word gives the word back where the fields cover every bit. -/
theorem exec_pack_extract {s : State} (hS : schemaOk s.cfg.schema = true)
    (hcover : ∀ k < 32, ∃ e ∈ s.cfg.schema, e.offset ≤ k ∧ k < e.offset + e.width) (w : Word) :
    exec (.pack (Field.all.map fun f => (f, extract s.cfg.schema w f))) s = .next (s.setResult (.word w)) :=
  exec_pack_of_ok hS (pack_eq_of_extract hS hcover (fieldValue_map_all _))

/-- Settles O1: a packed word's slices are the values packed, and a word whose bits are covered is determined by its
slices. -/
theorem packThenExtractReturnsEachField : Obligations.PackThenExtractReturnsEachField := by
  refine ⟨fun s m hS hfits => ?_, fun s w hS hcover => exec_pack_extract hS hcover w, fun s w hdefault => ?_⟩
  · obtain ⟨w, hpack⟩ := pack_eq_ok (S := s.cfg.schema) (m := m) fun e he => widthIn_of_mem hS he ▸ hfits e.field
    refine ⟨w, exec_pack_of_ok hS hpack, fun f => ?_⟩
    rw [exec_extract, extract_of_pack hS hpack]
  · have hcover : ∀ k < 32, ∃ e ∈ defaultSchema, e.offset ≤ k ∧ k < e.offset + e.width := by decide
    exact exec_pack_extract (hdefault ▸ schemaOk_defaultSchema) (hdefault ▸ hcover) w

/-- Settles O2: no other field's value reaches a field's bits, and no value reaches an uncovered bit. -/
theorem packPlacesValuesAndClearsTheRest : Obligations.PackPlacesValuesAndClearsTheRest := by
  intro s m hS hfits
  obtain ⟨w, hpack⟩ := pack_eq_ok hfits
  exact ⟨w, exec_pack_of_ok hS hpack, fun _ he _ hj => getLsbD_of_pack_of_mem hS hpack he hj,
    fun _ hk => getLsbD_of_pack_of_uncovered hpack hk⟩

/-- Settles O4: a valid schema finds the field's entry, whose slice EXTRACT answers. -/
theorem extractReadsTheFieldsBits : Obligations.ExtractReadsTheFieldsBits := by
  intro s w e hS he
  rw [exec_extract, extract_of_mem hS he]

/-- Settles O6: a pure row changes the answer alone, and an entry and an owner do not depend on it. -/
theorem pureRowsChangeOnlyTheAnswer : Obligations.PureRowsChangeOnlyTheAnswer := by
  intro i s t hi h
  obtain ⟨r, rfl⟩ := exec_pureRow_eq_next hi h
  exact ⟨rfl, fun a => ⟨entry_congr rfl rfl rfl rfl a, rfl⟩⟩

/-! ### The clause a schema breaks (R82, R115, R183) -/

theorem namedOnce_of_namesClause {S : Schema} (h : namesClause S Field.all = none) : namedOnce S :=
  fun f => namesClause_eq_none.mp h f (by cases f <;> decide)

theorem insideWord_iff_rangeClause {S : Schema} : insideWord S ↔ rangeClause S = none := by
  simp only [rangeClause_eq_none, insideWord, Nat.one_le_iff_ne_zero]

/-- The clauses of R82 in the words of the statements. -/
theorem schemaOk_iff_clauses {S : Schema} :
    schemaOk S = true ↔ namedOnce S ∧ insideWord S ∧
      S.Pairwise fun e d => e.offset + e.width ≤ d.offset ∨ d.offset + d.width ≤ e.offset := by
  simp only [schemaOk_iff, insideWord_iff_rangeClause, rangeClause_eq_none, rangesApart_iff, namedOnce]

/-- The names clause recorded is one of a field that is not named once. -/
theorem clauseBroken_of_namesClause {S : Schema} {fs : List Field} {c : SchemaClause}
    (h : namesClause S fs = some c) : clauseBroken S c := by
  induction fs with
  | nil => cases h
  | cons f fs ih =>
    rw [namesClause] at h
    split at h
    · next hmissing => cases h; exact hmissing
    · exact ih h
    · next hzero hone =>
      cases h
      exact Nat.one_lt_iff_ne_zero_and_ne_one.mpr ⟨hzero, hone⟩

/-- The range clause recorded is one of an entry of the schema. -/
theorem rangeClause_eq_some {S : Schema} {c : SchemaClause} (h : rangeClause S = some c) :
    ∃ e ∈ S, (c = .width e.field ∧ (e.width = 0 ∨ 4 < e.width)) ∨
      (c = .outside e.field ∧ 32 < e.offset + e.width) := by
  induction S with
  | nil => cases h
  | cons e S ih =>
    rw [rangeClause] at h
    split at h
    · next hwidth => cases h; exact ⟨e, List.mem_cons_self .., .inl ⟨rfl, hwidth⟩⟩
    · split at h
      · next hout => cases h; exact ⟨e, List.mem_cons_self .., .inr ⟨rfl, hout⟩⟩
      · obtain ⟨d, hd, hc⟩ := ih h
        exact ⟨d, List.mem_cons_of_mem _ hd, hc⟩

/-- The overlap recorded is one of two entries of the schema, in its order. -/
theorem overlapClause_eq_some {S : Schema} {c : SchemaClause} (h : overlapClause S = some c) :
    ∃ before e mid d after, S = before ++ e :: mid ++ d :: after ∧ c = .overlap e.field d.field ∧
      rangesApart e.offset e.width d.offset d.width = false := by
  induction S with
  | nil => cases h
  | cons e S ih =>
    rw [overlapClause] at h
    split at h
    · next d hd =>
      cases h
      obtain ⟨mid, after, hS⟩ := List.append_of_mem (List.mem_of_find?_eq_some hd)
      exact ⟨[], e, mid, d, after, by simp [hS], rfl, by simpa using List.find?_some hd⟩
    · obtain ⟨before, e', mid, d, after, hS, hc, hmeet⟩ := ih h
      exact ⟨e :: before, e', mid, d, after, by simp [hS], hc, hmeet⟩

/-- The clause the check records is one that the schema breaks, after the clauses looked at before it. -/
theorem clauseBroken_of_schemaClause {S : Schema} {c : SchemaClause} (h : schemaClause S = some c) :
    clauseBroken S c := by
  rw [schemaClause] at h
  split at h
  · next hnames => cases h; exact clauseBroken_of_namesClause hnames
  · next hnames =>
    have honce := namedOnce_of_namesClause hnames
    split at h
    · next hrange =>
      cases h
      obtain ⟨e, he, ⟨rfl, hwidth⟩ | ⟨rfl, hout⟩⟩ := rangeClause_eq_some hrange
      · exact ⟨honce, e, he, rfl, hwidth⟩
      · exact ⟨honce, e, he, rfl, hout⟩
    · next hrange =>
      obtain ⟨before, e, mid, d, after, hS, rfl, hmeet⟩ := overlapClause_eq_some h
      exact ⟨honce, insideWord_iff_rangeClause.mpr hrange, before, e, mid, d, after, hS, rfl, rfl, hmeet⟩

theorem exec_schemaValid_of_ok {S : Schema} (hS : schemaOk S = true) (s : State) :
    exec (.schemaValid S) s = .next (s.setResult (.schema true)) := by
  simp only [exec, execSchemaValid, schemaClause_eq_none_iff.mpr hS]

theorem exec_schemaValid_of_clause {S : Schema} {c : SchemaClause} (hc : schemaClause S = some c) (s : State) :
    exec (.schemaValid S) s = .fault (.schemaInvalid c) := by
  simp only [exec, execSchemaValid, hc]

theorem done_fault (r : Fault) : done (.fault r) = .fault r := rfl

/-- PACK, DECODE_PASS and GENERATE check the schema before anything else (R183, R190; log 19). -/
theorem exec_of_schemaClause {s : State} {c : SchemaClause} (hc : schemaClause s.cfg.schema = some c) :
    (∀ m, exec (.pack m) s = .fault (.schemaInvalid c)) ∧ exec .decodePass s = .fault (.schemaInvalid c) ∧
      ∀ v, exec (.generate v) s = .fault (.schemaInvalid c) := by
  refine ⟨fun m => ?_, ?_, fun v => ?_⟩
  · simp only [exec, execPack, hc]
  · simp only [exec, execDecodePass, decodeTable, hc, done_fault]
  · simp only [exec, execGenerate, generateTable, hc, done_fault]

/-- Settles O5: the check records no clause exactly when the four clauses hold, and else a broken one. -/
theorem schemaCheckIsTheFourClauses : Obligations.SchemaCheckIsTheFourClauses := by
  refine fun S s => ⟨fun hnames hrange hapart => ?_, fun hbroken => ?_⟩
  · exact exec_schemaValid_of_ok (schemaOk_iff_clauses.mpr ⟨hnames, hrange, hapart⟩) s
  · rw [← schemaOk_iff_clauses, ← schemaClause_eq_none_iff] at hbroken
    obtain ⟨c, hc⟩ := Option.ne_none_iff_exists'.mp hbroken
    refine ⟨c, clauseBroken_of_schemaClause hc, exec_schemaValid_of_clause hc s, ?_⟩
    rintro rfl
    exact exec_of_schemaClause hc

/-! ### The values that rules fix (R112) -/

/-- The field and the value of a template's line, where the value is fixed and does not fit the field. -/
def lineRange (cfg : Params) (x : Field × FieldExpr) : Option (Field × Nat) :=
  (closedValue cfg x.2).bind fun v => if v < 2 ^ widthIn cfg.schema x.1 then none else some (x.1, v)

theorem lineRange_eq_some {cfg : Params} {x : Field × FieldExpr} {f : Field} {n : Nat} :
    lineRange cfg x = some (f, n) ↔ x.1 = f ∧ closedValue cfg x.2 = some n ∧ 2 ^ widthIn cfg.schema f ≤ n := by
  simp only [lineRange, Option.bind_eq_some_iff, Option.ite_none_left_eq_some, Option.some.injEq, Prod.mk.injEq, not_lt]
  constructor
  · rintro ⟨v, hv, hle, rfl, rfl⟩; exact ⟨rfl, hv, hle⟩
  · rintro ⟨rfl, hv, hle⟩; exact ⟨n, hv, hle, rfl, rfl⟩

theorem templateRange_eq_findSome? (cfg : Params) (t : Template) :
    templateRange cfg t = t.findSome? (lineRange cfg) := by
  induction t with
  | nil => rfl
  | cons x t ih =>
    rw [templateRange, ih, List.findSome?_cons, lineRange]
    cases closedValue cfg x.2 with
    | none => rfl
    | some v => by_cases hfits : v < 2 ^ widthIn cfg.schema x.1 <;> simp [hfits]

/-- The lines of a rule's templates. -/
def linesOf (r : Rule) : Template := (templatesOf r.emit).flatten

theorem emitRange_eq_findSome? (cfg : Params) (r : Rule) :
    emitRange cfg r.emit = (linesOf r).findSome? (lineRange cfg) := by
  rw [← templateRange_eq_findSome?, linesOf]
  cases r.emit <;> simp [emitRange, templatesOf]

theorem contentRange_eq_findSome? (cfg : Params) (rs : List Rule) :
    contentRange cfg rs = rs.findSome? fun r => (linesOf r).findSome? (lineRange cfg) := by
  induction rs with
  | nil => rfl
  | cons r rs ih =>
    rw [contentRange, ih, List.findSome?_cons, emitRange_eq_findSome?]
    cases (linesOf r).findSome? (lineRange cfg) <;> rfl

theorem closedValue_eq_some {cfg : Params} {x : FieldExpr} {n : Nat} :
    closedValue cfg x = some n ↔
      x = .const n ∨ (x = .opAdd ∧ n = cfg.opAdd.toNat) ∨ (x = .immM2 ∧ n = cfg.immM2.toNat) ∨
        (x = .iaddrselPc ∧ n = cfg.iaddrselPc.toNat) := by
  cases x <;> simp [closedValue, eq_comm]

/-- Under a valid schema a field's width is that of its entry. -/
theorem exists_entry_width_le_iff {S : Schema} (hS : schemaOk S = true) {f : Field} {n : Nat} :
    (∃ e ∈ S, e.field = f ∧ 2 ^ e.width ≤ n) ↔ 2 ^ widthIn S f ≤ n := by
  constructor
  · rintro ⟨e, he, rfl, hle⟩; rwa [widthIn_of_mem hS he]
  · intro hle
    obtain ⟨e, he, rfl, -⟩ := exists_find?_of_schemaOk hS f
    exact ⟨e, he, rfl, widthIn_of_mem hS he ▸ hle⟩

/-- A rule fixes a value out of range exactly when a line of its templates does. -/
theorem fixedOutOfRange_iff {cfg : Params} (hS : schemaOk cfg.schema = true) {rs : List Rule} {f : Field} {n : Nat} :
    fixedOutOfRange cfg rs f n ↔ ∃ r ∈ rs, ∃ x ∈ linesOf r, lineRange cfg x = some (f, n) := by
  simp only [fixedOutOfRange, ← closedValue_eq_some, exists_entry_width_le_iff hS, lineRange_eq_some, linesOf,
    List.mem_flatten]
  constructor
  · rintro ⟨r, hr, t, ht, x, hx, hle, hv⟩; exact ⟨r, hr, (f, x), ⟨t, ht, hx⟩, rfl, hv, hle⟩
  · rintro ⟨r, hr, ⟨_, x⟩, ⟨t, ht, hx⟩, rfl, hv, hle⟩; exact ⟨r, hr, t, ht, x, hx, hle, hv⟩

/-- The value that the assertion of rule construction names is one that a rule fixes out of range. -/
theorem fixedOutOfRange_of_contentRange {cfg : Params} (hS : schemaOk cfg.schema = true) {rs : List Rule} {f : Field}
    {n : Nat} (h : contentRange cfg rs = some (f, n)) : fixedOutOfRange cfg rs f n := by
  rw [contentRange_eq_findSome?] at h
  obtain ⟨r, hr, hlines⟩ := List.exists_of_findSome?_eq_some h
  obtain ⟨x, hx, hline⟩ := List.exists_of_findSome?_eq_some hlines
  exact (fixedOutOfRange_iff hS).mpr ⟨r, hr, x, hx, hline⟩

/-- The assertion of rule construction misses no value that a rule fixes out of range. -/
theorem contentRange_ne_none {cfg : Params} (hS : schemaOk cfg.schema = true) {rs : List Rule} {f : Field} {n : Nat}
    (h : fixedOutOfRange cfg rs f n) : contentRange cfg rs ≠ none := by
  obtain ⟨r, hr, x, hx, hline⟩ := (fixedOutOfRange_iff hS).mp h
  intro hnone
  rw [contentRange_eq_findSome?] at hnone
  have := List.findSome?_eq_none_iff.mp (List.findSome?_eq_none_iff.mp hnone r hr) x hx
  simp [hline] at this

/-- The pass asserts the ranges before its first visit (R190; log 21). -/
theorem decodeTable_packRange {s : State} (hS : schemaOk s.cfg.schema = true) (hs : s.stage ≠ .unallocated)
    {v : Variant} (hv : s.variant = v) {f : Field} {n : Nat} (h : contentRange s.cfg (s.cfg.rules v) = some (f, n)) :
    decodeTable s = .fault (.packRange f n) := by
  subst hv
  simp only [decodeTable, schemaClause_eq_none_iff.mpr hS, if_neg hs, h]

/-- From the start GENERATE is the pass over a filled table of the variant, under the same parameters (R143). -/
theorem generateTable_of_unallocated {s : State} (hS : schemaOk s.cfg.schema = true) (hs : s.stage = .unallocated)
    (v : Variant) :
    ∃ u, u.cfg = s.cfg ∧ u.variant = v ∧ u.stage = .filled ∧ generateTable v s = decodeTable u := by
  refine ⟨((s.setVariant v).setTable [] (some [])).setStage .filled, rfl, rfl, rfl, ?_⟩
  simp only [generateTable, schemaClause_eq_none_iff.mpr hS, allocTable_eq_next.mpr ⟨hs, rfl⟩, andThen_next,
    fillTable_eq_next.mpr ⟨setStage_stage .., rfl⟩]
  rfl

/-- Settles O19: the pass names the first value that a rule fixes out of range, and GENERATE reaches the pass. -/
theorem outOfRangeTemplateStopsGeneration : Obligations.OutOfRangeTemplateStopsGeneration := by
  rintro s v hS ⟨f₀, n₀, hfixed⟩
  obtain ⟨⟨f, n⟩, hrange⟩ := Option.ne_none_iff_exists'.mp (contentRange_ne_none hS hfixed)
  refine ⟨f, n, fixedOutOfRange_of_contentRange hS hrange, fun hs => ?_, fun hs hv => ?_⟩
  · obtain ⟨u, hcfg, hv, hfilled, hgen⟩ := generateTable_of_unallocated hS hs v
    rw [← hcfg] at hS hrange
    simp only [exec, execGenerate, hgen, decodeTable_packRange hS (by simp [hfilled]) hv hrange, done_fault]
  · simp only [exec, execDecodePass, decodeTable_packRange hS hs hv hrange, done_fault]

end Sys2Proof.Machine
end

section
/-! PROOFS. O7 to O13: the index functions, their inverse SPLIT and the partition of the address space, and the pair
numbering. -/

namespace Sys2Proof.Machine

/-! ### One sub-field of an index (R85, R86, R131) -/

theorem getLsbD_placed {w : Nat} (v : BitVec w) (lo k : Nat) :
    (placed v lo).getLsbD k = (decide (k < 12) && decide (lo ≤ k) && v.getLsbD (k - lo)) := by
  simp only [placed, BitVec.getLsbD_shiftLeft, BitVec.getLsbD_setWidth]
  grind

/-- A sub-field that lies inside the index is read back from its place. -/
theorem extractLsb'_placed {w : Nat} (v : BitVec w) {lo : Nat} (h : lo + w ≤ 12) :
    (placed v lo).extractLsb' lo w = v := by
  refine BitVec.eq_of_getLsbD_eq fun i hi => ?_
  rw [BitVec.getLsbD_extractLsb', getLsbD_placed]
  simp [hi, show lo + i < 12 by omega]

/-- A sub-field leaves the bits below and above it 0. -/
theorem extractLsb'_placed_of_apart {w n : Nat} (v : BitVec w) {lo start : Nat}
    (h : start + n ≤ lo ∨ lo + w ≤ start) : (placed v lo).extractLsb' start n = 0 := by
  refine BitVec.eq_of_getLsbD_eq fun i hi => ?_
  rcases h with h | h
  · simp [BitVec.getLsbD_extractLsb', getLsbD_placed, show ¬lo ≤ start + i by omega]
  · simp [BitVec.getLsbD_extractLsb', getLsbD_placed, BitVec.getLsbD_of_ge v (start + i - lo) (by omega)]

/-- Putting a slice of an index back in its place keeps its bits and clears the others. -/
theorem getLsbD_placed_extractLsb' (x : BitVec 12) (lo n : Nat) {k : Nat} (hk : k < 12) :
    (placed (x.extractLsb' lo n) lo).getLsbD k = (decide (lo ≤ k ∧ k < lo + n) && x.getLsbD k) := by
  rw [getLsbD_placed, BitVec.getLsbD_extractLsb']
  by_cases hlo : lo ≤ k
  · simp [hk, hlo, show lo + (k - lo) = k by omega, show k - lo < n ↔ k < lo + n by omega]
  · simp [hlo]

theorem toNat_placed {w : Nat} (v : BitVec w) {lo : Nat} (h : lo + w ≤ 12) :
    (placed v lo).toNat = 2 ^ lo * v.toNat := by
  have hfits : v.toNat * 2 ^ lo < 2 ^ 12 :=
    calc v.toNat * 2 ^ lo < 2 ^ w * 2 ^ lo := Nat.mul_lt_mul_of_pos_right v.isLt (Nat.two_pow_pos lo)
      _ = 2 ^ (lo + w) := by rw [Nat.pow_add, Nat.mul_comm]
      _ ≤ 2 ^ 12 := Nat.pow_le_pow_right (by decide) h
  rw [placed, BitVec.toNat_shiftLeft, BitVec.toNat_setWidth_of_le (by omega), Nat.shiftLeft_eq,
    Nat.mod_eq_of_lt hfits, Nat.mul_comm]

/-- OR of a sub-field into bits that are 0 is addition (R131). -/
theorem toNat_or_placed {w : Nat} {x : BitVec 12} (v : BitVec w) {lo : Nat} (hx : x.extractLsb' lo w = 0) :
    (x ||| placed v lo).toNat = x.toNat + (placed v lo).toNat := by
  have hdisjoint : x &&& placed v lo = 0 := by
    refine BitVec.eq_of_getLsbD_eq fun k hk => ?_
    rw [BitVec.getLsbD_and, getLsbD_placed]
    by_cases hin : lo ≤ k ∧ k - lo < w
    · have hbit := congrArg (·.getLsbD (k - lo)) hx
      simp only [BitVec.getLsbD_extractLsb', hin.2, decide_true, Bool.true_and, Nat.add_sub_cancel' hin.1] at hbit
      simp [hbit]
    · by_cases hlo : lo ≤ k
      · simp [BitVec.getLsbD_of_ge v (k - lo) (by omega)]
      · simp [hlo]
  rw [← BitVec.add_eq_or_of_and_eq_zero _ _ hdisjoint, BitVec.toNat_add_of_and_eq_zero hdisjoint]

/-! ### A layout that is a concatenation (R85, R86) -/

/-- The sub-fields of a format lie below the format bit and share no bit. -/
theorem apart_of_valid {l : FmtLayout} (h : l.valid = true) :
    (l.keyLo + 3 ≤ 10 ∧ l.aLo + 3 ≤ 10 ∧ l.bLo + 3 ≤ 10 ∧ l.qLo + 1 ≤ 10) ∧
    (l.keyLo + 3 ≤ l.aLo ∨ l.aLo + 3 ≤ l.keyLo) ∧ (l.keyLo + 3 ≤ l.bLo ∨ l.bLo + 3 ≤ l.keyLo) ∧
    (l.keyLo + 3 ≤ l.qLo ∨ l.qLo + 1 ≤ l.keyLo) ∧ (l.aLo + 3 ≤ l.bLo ∨ l.bLo + 3 ≤ l.aLo) ∧
    (l.aLo + 3 ≤ l.qLo ∨ l.qLo + 1 ≤ l.aLo) ∧ (l.bLo + 3 ≤ l.qLo ∨ l.qLo + 1 ≤ l.bLo) := by
  simpa only [FmtLayout.valid, Bool.and_eq_true, decide_eq_true_eq, rangesApart_iff, and_assoc] using h

/-- Every bit of an index belongs to a part of it: four disjoint sub-fields of ten bits together leave none of the ten
bits below the phase and format bits out. -/
theorem covered_of_valid {l : FmtLayout} (h : l.valid = true) {k : Nat} (hk : k < 12) :
    (11 ≤ k ∧ k < 11 + 1) ∨ (10 ≤ k ∧ k < 10 + 1) ∨ (l.keyLo ≤ k ∧ k < l.keyLo + 3) ∨ (l.aLo ≤ k ∧ k < l.aLo + 3) ∨
      (l.bLo ≤ k ∧ k < l.bLo + 3) ∨ (l.qLo ≤ k ∧ k < l.qLo + 1) := by
  have := apart_of_valid h
  omega

theorem valid_fmtLayout {L : LayoutFull} (hL : L.valid = true) (f : Fmt) : (fmtLayout L f).valid = true := by
  obtain ⟨hA, hB⟩ := Bool.and_eq_true_iff.mp hL
  cases f with
  | A => exact hA
  | B => exact hB

/-- The format bit names the format: SPLIT's test on it is undone by `fmtBit`, and undoes it (R84). -/
theorem fmt_of_fmtBit (L : LayoutFull) (f : Fmt) : (if fmtBit L f = L.fmtA then Fmt.A else Fmt.B) = f := by
  cases f with
  | A => exact if_pos rfl
  | B => exact if_neg ((by decide : ∀ b : Bit, ~~~b ≠ b) L.fmtA)

theorem fmtBit_of_fmt (L : LayoutFull) (b : Bit) : fmtBit L (if b = L.fmtA then Fmt.A else Fmt.B) = b := by
  split
  · next h => exact h.symm
  · next h => exact (by decide : ∀ b c : Bit, b ≠ c → ~~~c = b) b L.fmtA h

/-! ### SPLIT and the index functions (R123, R131) -/

/-- The OR of R85 and R86 is a sum (R131). -/
theorem toNat_indexOf {L : LayoutFull} (hL : L.valid = true) (p : Bit) (c : Combo) :
    (indexOf L p c).toNat = 2048 * p.toNat + 1024 * (fmtBit L c.fmt).toNat +
      2 ^ (fmtLayout L c.fmt).keyLo * c.key.toNat + 2 ^ (fmtLayout L c.fmt).aLo * c.a.toNat +
      2 ^ (fmtLayout L c.fmt).bLo * c.b.toNat + 2 ^ (fmtLayout L c.fmt).qLo * c.q.toNat := by
  have := apart_of_valid (valid_fmtLayout hL c.fmt)
  rw [indexOf, toNat_or_placed, toNat_or_placed, toNat_or_placed, toNat_or_placed, toNat_or_placed]
  · simp (disch := omega) only [toNat_placed]
    rfl
  all_goals simp (disch := omega) [BitVec.extractLsb'_or, extractLsb'_placed_of_apart]

theorem split_indexOf {L : LayoutFull} (hL : L.valid = true) (p : Bit) (c : Combo) :
    split L (indexOf L p c) = ⟨p, c⟩ := by
  have := apart_of_valid (valid_fmtLayout hL c.fmt)
  have hfmt : (indexOf L p c).extractLsb' 10 1 = fmtBit L c.fmt := by
    simp (disch := omega) [indexOf, BitVec.extractLsb'_or, extractLsb'_placed, extractLsb'_placed_of_apart]
  rw [split, hfmt, fmt_of_fmtBit]
  simp (disch := omega) [indexOf, BitVec.extractLsb'_or, extractLsb'_placed, extractLsb'_placed_of_apart]

theorem indexOf_split {L : LayoutFull} (hL : L.valid = true) (x : BitVec 12) :
    indexOf L (split L x).phase (split L x).combo = x := by
  refine BitVec.eq_of_getLsbD_eq fun k hk => ?_
  simp only [split, indexOf, fmtBit_of_fmt, BitVec.getLsbD_or, getLsbD_placed_extractLsb' x _ _ hk,
    ← Bool.and_or_distrib_right, ← Bool.decide_or, or_assoc]
  rw [decide_eq_true (covered_of_valid (valid_fmtLayout hL _) hk), Bool.true_and]

theorem indexOf_injective {L : LayoutFull} (hL : L.valid = true) {p p' : Bit} {c c' : Combo}
    (h : indexOf L p c = indexOf L p' c') : p = p' ∧ c = c' := by
  have hsplit := congrArg (split L) h
  rw [split_indexOf hL, split_indexOf hL] at hsplit
  exact Split.mk.inj hsplit

/-! ### The address and pair rows -/

theorem exec_indexA (p : Bit) (g a b : Sub3) (q : Bit) (s : State) :
    exec (.indexA p g a b q) s = .next (s.setResult (.index (indexA s.cfg.layoutFull p g a b q))) := rfl

theorem exec_indexB (p : Bit) (a sub b : Sub3) (q : Bit) (s : State) :
    exec (.indexB p a sub b q) s = .next (s.setResult (.index (indexB s.cfg.layoutFull p a sub b q))) := rfl

theorem exec_split (x : BitVec 12) (s : State) :
    exec (.split x) s = .next (s.setResult (.split (split s.cfg.layoutFull x))) := rfl

theorem exec_indexMini (p : Bit) (i : BitVec 8) (s : State) :
    exec (.indexMini p i) s = .next (s.setResult (.indexMini (indexMini p i))) := rfl

theorem exec_pairPack_of_some {s : State} {base operand : Sub3} {n : Nat}
    (h : pairPack s.cfg.pairStride base.toNat operand.toNat = some n) :
    exec (.pairPack base operand) s = .next (s.setResult (.number n)) := by
  simp only [exec, execPairPack, h]

theorem exec_pairPack_of_none {s : State} {base operand : Sub3}
    (h : pairPack s.cfg.pairStride base.toNat operand.toNat = none) :
    exec (.pairPack base operand) s = .refused .pairDomain := by
  simp only [exec, execPairPack, h]

theorem exec_pairUnpack_iff {s : State} {n : Nat} {r : Option (Nat × Nat)} :
    exec (.pairUnpack n) s = .next (s.setResult (.pair r)) ↔ pairUnpack s.cfg.pairStride n = r := by
  constructor
  · intro h
    exact Result.pair.inj (congrArg State.result (Host.Outcome.next.inj h))
  · rintro rfl
    rfl

/-! ### The address statements -/

/-- Settles O7: the sum of R131 at the places of the default layout. -/
theorem indexFunctionsAreWeightedSums : Obligations.IndexFunctionsAreWeightedSums := by
  intro s p q k a b hlayout
  have hL : s.cfg.layoutFull.valid = true := hlayout ▸ (by decide : defaultLayout.valid = true)
  refine ⟨⟨_, exec_indexA .., ?_⟩, ⟨_, exec_indexB .., ?_⟩⟩
  · rw [indexA, toNat_indexOf hL, hlayout]
    change _ + 1024 * 0 + 2 ^ 7 * k.toNat + 2 ^ 4 * a.toNat + 2 ^ 1 * b.toNat + 2 ^ 0 * q.toNat = _
    omega
  · rw [indexB, toNat_indexOf hL, hlayout]
    change _ + 1024 * 1 + 2 ^ 4 * k.toNat + 2 ^ 7 * a.toNat + 2 ^ 1 * b.toNat + 2 ^ 0 * q.toNat = _
    omega

/-- Settles O8: SPLIT undoes the one index function behind both, and is undone by it. -/
theorem splitInvertsTheIndexFunctions : Obligations.SplitInvertsTheIndexFunctions := by
  intro s hL
  refine ⟨fun p q k a b => ⟨?_, ?_⟩, fun x => ⟨_, exec_split x s, indexOf_split hL x⟩⟩
  · rw [exec_split, indexA, split_indexOf hL]
  · rw [exec_split, indexB, split_indexOf hL]

/-- Settles O9: SPLIT names the format and the sub-fields of an address, and no other ones have that address. -/
theorem formatsPartitionTheAddressSpace : Obligations.FormatsPartitionTheAddressSpace := by
  intro L hL
  refine ⟨fun x => ?_, fun p g a b q p' a' sub' b' q' h => ?_, fun p g a b q p' g' a' b' q' h => ?_,
    fun p a sub b q p' a' sub' b' q' h => ?_⟩
  · rcases hx : split L x with ⟨p, f, k, a, b, q⟩
    have hindex := indexOf_split hL x
    rw [hx] at hindex
    cases f with
    | A => exact .inl ⟨p, k, a, b, q, hindex⟩
    | B => exact .inr ⟨p, a, k, b, q, hindex⟩
  · obtain ⟨-, hc⟩ := indexOf_injective hL h
    cases hc
  · obtain ⟨hp, hc⟩ := indexOf_injective hL h
    cases hc
    exact ⟨hp, rfl, rfl, rfl, rfl⟩
  · obtain ⟨hp, hc⟩ := indexOf_injective hL h
    cases hc
    exact ⟨hp, rfl, rfl, rfl, rfl⟩

/-- Settles O10: in the sum of R131 the phase bit weighs HALF, so the other terms are below HALF. -/
theorem phaseSlotsAreHalfApart : Obligations.PhaseSlotsAreHalfApart := by
  refine ⟨fun L c hL => ?_, fun s p i => ⟨_, exec_indexMini p i s, ?_⟩⟩
  · have h0 := toNat_indexOf hL 0 c
    have h1 := toNat_indexOf hL 1 c
    have hlt := (indexOf L 1 c).isLt
    simp only [BitVec.ofNat_eq_ofNat, BitVec.toNat_ofNat, Variant.half, Variant.instrBits] at h0 h1 ⊢
    omega
  · rw [indexMini, BitVec.toNat_append, ← Nat.shiftLeft_add_eq_or_of_lt i.isLt, Nat.shiftLeft_eq]
    rfl

/-! ### The pair numbering (R126 to R128) -/

/-- PAIR_PACK numbers the pairs of its domain by the formula of R126, in which the subtraction is exact. -/
theorem pairPack_eq_some_iff {stride b o n : Nat} :
    pairPack stride b o = some n ↔
      (b ≤ 5 ∧ o ≤ 5 ∧ o ≠ b) ∧ n + (if b ≤ o then 1 else 0) = b * stride + o := by
  simp only [pairPack, pairDomain, Bool.and_eq_true, decide_eq_true_eq, and_assoc, Option.ite_none_right_eq_some,
    Option.some.injEq]
  split <;> omega

theorem pairPack_eq_none_iff {stride b o : Nat} : pairPack stride b o = none ↔ 5 < b ∨ 5 < o ∨ o = b := by
  simp only [pairPack, pairDomain, Bool.and_eq_true, decide_eq_true_eq, ite_eq_right_iff, reduceCtorEq, imp_false]
  omega

theorem pairUnpack_eq_none_iff {stride n : Nat} : pairUnpack stride n = none ↔ 5 < n / stride ∨ 4 < n % stride := by
  simp only [pairUnpack, ite_eq_left_iff, reduceCtorEq, imp_false, not_not]

/-- PAIR_UNPACK reads a number as a base and one of the five registers other than it, counted in ascending order. -/
theorem pairUnpack_eq_some_iff {stride b o n : Nat} (hstride : 5 ≤ stride) :
    pairUnpack stride n = some (b, o) ↔
      b ≤ 5 ∧ ∃ r ≤ 4, n = b * stride + r ∧ o = r + (if b ≤ r then 1 else 0) := by
  have hdiv (r : Nat) (hr : r ≤ 4) : n / stride = b ∧ n % stride = r ↔ n = b * stride + r := by
    rw [Nat.div_mod_unique (by omega), Nat.mul_comm stride b]
    omega
  simp only [pairUnpack, Option.ite_none_left_eq_some, Option.some.injEq, Prod.mk.injEq]
  constructor
  · rintro ⟨hin, rfl, rfl⟩
    exact ⟨by omega, n % stride, by omega, (hdiv _ (by omega)).mp ⟨rfl, rfl⟩, rfl⟩
  · rintro ⟨hb, r, hr, hn, rfl⟩
    obtain ⟨rfl, rfl⟩ := (hdiv r hr).mpr hn
    exact ⟨by omega, rfl, rfl⟩

/-- A number unpacks to a pair exactly when the pair packs to it (R128): the register numbered `r` is the one at `r`
below the base and the next one from the base on, which closes the gap that the base leaves. -/
theorem pairUnpack_eq_some_iff_pairPack {stride b o n : Nat} (hstride : 5 ≤ stride) :
    pairUnpack stride n = some (b, o) ↔ pairPack stride b o = some n := by
  rw [pairUnpack_eq_some_iff hstride, pairPack_eq_some_iff]
  constructor
  · rintro ⟨hb, r, hr, rfl, rfl⟩
    by_cases hbr : b ≤ r
    · rw [if_pos hbr, if_pos (by omega)]
      omega
    · rw [if_neg hbr, Nat.add_zero, if_neg hbr]
      omega
  · rintro ⟨⟨hb, ho, hne⟩, hn⟩
    by_cases hbo : b ≤ o
    · rw [if_pos hbo] at hn
      exact ⟨hb, o - 1, by omega, by omega, by rw [if_pos (by omega)]; omega⟩
    · rw [if_neg hbo] at hn
      exact ⟨hb, o, by omega, hn, by rw [if_neg hbo]; rfl⟩

/-! ### The pair statements -/

/-- Settles O11: either half is a direction of the equivalence of packing and unpacking. -/
theorem pairNumberingIsABijection : Obligations.PairNumberingIsABijection := by
  intro s hstride
  refine ⟨fun base operand hb ho hne => ?_, fun n b o h => ?_⟩
  · have hne' : operand.toNat ≠ base.toNat := fun h => hne (BitVec.eq_of_toNat_eq h)
    obtain ⟨n, hn⟩ : ∃ n, pairPack s.cfg.pairStride base.toNat operand.toNat = some n := by
      rw [← Option.ne_none_iff_exists', Ne, pairPack_eq_none_iff]
      omega
    obtain ⟨-, hformula⟩ := pairPack_eq_some_iff.mp hn
    exact ⟨n, exec_pairPack_of_some hn, hformula,
      exec_pairUnpack_iff.mpr ((pairUnpack_eq_some_iff_pairPack hstride).mpr hn)⟩
  · have hpack := (pairUnpack_eq_some_iff_pairPack hstride).mp (exec_pairUnpack_iff.mp h)
    obtain ⟨⟨hb, ho, hne⟩, -⟩ := pairPack_eq_some_iff.mp hpack
    exact ⟨hb, ho, hne, hpack⟩

/-- Settles O12: the row answers whatever PAIR_UNPACK gives, `none` included. -/
theorem pairUnpackAnswersEveryNumber : Obligations.PairUnpackAnswersEveryNumber := fun _ _ _ =>
  ⟨_, exec_pairUnpack_iff.mpr rfl, pairUnpack_eq_none_iff⟩

/-- Settles O13: outside the domain PAIR_PACK has no value to answer. -/
theorem pairPackRefusesOutsideItsDomain : Obligations.PairPackRefusesOutsideItsDomain := fun _ _ _ h =>
  exec_pairPack_of_none (pairPack_eq_none_iff.mpr (h.imp_right (Or.imp_right (congrArg BitVec.toNat))))

end Sys2Proof.Machine
end

section
/-! PROOFS. O14 to O17, O28, O29 and O31: what each row of the ROM array does in its stage, and how it stops in
another. -/

namespace Sys2Proof.Machine

/-! ### Reading an entry (R34, R136) -/

theorem entry_of_size_le {s : State} {a : Nat} (ha : s.variant.size ≤ a) : entry s a = none := by
  simp [entry, not_lt.mpr ha]

/-- From the fill on an entry is a word of the table. -/
theorem entry_eq_romWord {s : State} {a : Nat} (hs : s.stage = .filled ∨ s.stage = .frozen)
    (ha : a < s.variant.size) : entry s a = some (romWord s a) := by
  rcases hs with hs | hs <;> simp [entry, hs, ha]

@[simp] theorem entry_setResult (s : State) (r : Result) (a : Nat) : entry (s.setResult r) a = entry s a := rfl

@[simp] theorem ownerOf_setResult (s : State) (r : Result) (a : Nat) : ownerOf (s.setResult r) a = ownerOf s a := rfl

/-! ### A claim changes one entry and its owner (R138, R139) -/

section
variable (s : State) (a : Nat) (w : Word) (id : RuleId)

@[simp] theorem claim_cfg : (claim s a w id).cfg = s.cfg := rfl
@[simp] theorem claim_variant : (claim s a w id).variant = s.variant := rfl
@[simp] theorem claim_stage : (claim s a w id).stage = s.stage := rfl

end

theorem entry_claim_self {s : State} {a : Nat} (w : Word) (id : RuleId) (hs : s.stage = .filled)
    (hwf : Memory.wf s = true) (ha : a < s.variant.size) : entry (claim s a w id) a = some w := by
  rw [entry_eq_romWord (s := claim s a w id) (.inl hs) ha, romWord_claim_self a w id hwf]

theorem entry_claim_of_ne (s : State) {a x : Nat} (w : Word) (id : RuleId) (h : x ≠ a) :
    entry (claim s a w id) x = entry s x := by
  simp only [entry, claim_variant, claim_stage, romWord_claim_of_ne s w id h]

/-! ### ALLOC and FILL (R136, R137) -/

/-- The table that FILL leaves: no entry listed, an owner map without owners, the rest as it was. -/
def filledTable (s : State) : State := (s.setTable [] (some [])).setStage .filled

theorem fillTable_of_allocated {s : State} (hs : s.stage = .allocated) : fillTable s = .next (filledTable s) :=
  fillTable_eq_next.mpr ⟨hs, rfl⟩

@[simp] theorem romWord_filledTable (s : State) (a : Nat) : romWord (filledTable s) a = s.cfg.trapWord := rfl

@[simp] theorem ownerOf_filledTable (s : State) (a : Nat) : ownerOf (filledTable s) a = none := rfl

theorem exec_alloc_of_unallocated {s : State} (hs : s.stage = .unallocated) (v : Variant) :
    exec (.alloc v) s =
      .next ((((s.setVariant v).setTable [] none).setStage .allocated).setResult .done) :=
  done_eq_next.mpr ⟨_, allocTable_eq_next.mpr ⟨hs, rfl⟩, rfl⟩

theorem allocTable_stageViolation {s : State} (hs : s.stage ≠ .unallocated) (v : Variant) :
    allocTable v s = .fault (.stageViolation .alloc s.stage) :=
  if_neg hs

theorem exec_fill_of_allocated {s : State} (hs : s.stage = .allocated) :
    exec .fill s = .next ((filledTable s).setResult .done) :=
  done_eq_next.mpr ⟨_, fillTable_of_allocated hs, rfl⟩

theorem exec_fill_stageViolation {s : State} (hs : s.stage ≠ .allocated) :
    exec .fill s = .fault (.stageViolation .fill s.stage) := by
  simp only [exec, execFill, fillTable, if_neg hs, done_fault]

theorem exec_alloc_stageViolation {s : State} (hs : s.stage ≠ .unallocated) (v : Variant) :
    exec (.alloc v) s = .fault (.stageViolation .alloc s.stage) := by
  simp only [exec, execAlloc, allocTable_stageViolation hs, done_fault]

/-- Settles O14: the allocated table has the variant's size and every entry in it is a free value. -/
theorem allocCreatesTheTable : Obligations.AllocCreatesTheTable := by
  refine fun v s => ⟨fun hs => ?_, fun hs => exec_alloc_stageViolation hs v⟩
  refine ⟨_, exec_alloc_of_unallocated hs v, rfl, rfl, rfl, fun a ha => ?_, fun a ha => entry_of_size_le ha,
    rfl, rfl, rfl, rfl, rfl⟩
  exact if_pos ha

/-! ### The override writes (R138, R139) -/

theorem writeOne_stageViolation {s : State} (hs : s.stage ≠ .filled) (a : Nat) (w : Word) (id : RuleId) :
    writeOne a w id s = .fault (.stageViolation .write1 s.stage) :=
  if_neg hs

theorem writeTwo_stageViolation {s : State} (hs : s.stage ≠ .filled) (a : Nat) (w0 w1 : Word) (id : RuleId) :
    writeTwo a w0 w1 id s = .fault (.stageViolation .write2 s.stage) :=
  if_neg fun h => hs h.1

theorem exec_write1_stageViolation {s : State} (hs : s.stage ≠ .filled) (x : BitVec 12) (w : Word) (id : RuleId) :
    exec (.write1 x w id) s = .fault (.stageViolation .write1 s.stage) := by
  simp only [exec, execWrite1, hs, false_and, if_false, writeOne_stageViolation hs, done_fault]

theorem exec_write2_stageViolation {s : State} (hs : s.stage ≠ .filled) (x : BitVec 12) (w0 w1 : Word) (id : RuleId) :
    exec (.write2 x w0 w1 id) s = .fault (.stageViolation .write2 s.stage) := by
  simp only [exec, execWrite2, writeTwo_stageViolation hs, done_fault]

/-- WRITE1 at an unclaimed phase-0 index is one claim. -/
theorem exec_write1_of_unclaimed {s : State} {x : BitVec 12} (hs : s.stage = .filled) (hx : x.toNat < s.variant.half)
    (ho : ownerOf s x.toNat = none) (w : Word) (id : RuleId) :
    exec (.write1 x w id) s = .next ((claim s x.toNat w id).setResult .done) := by
  simp only [exec, execWrite1, hx, not_true_eq_false, and_false, if_false]
  exact done_eq_next.mpr ⟨_, writeOne_eq_next.mpr ⟨hs, ho, rfl⟩, rfl⟩

/-- WRITE2 at an unclaimed pair of phase slots is two claims. -/
theorem exec_write2_of_unclaimed {s : State} {x : BitVec 12} (hs : s.stage = .filled) (hx : x.toNat < s.variant.half)
    (ho0 : ownerOf s x.toNat = none) (ho1 : ownerOf s (x.toNat + s.variant.half) = none) (w0 w1 : Word)
    (id : RuleId) :
    exec (.write2 x w0 w1 id) s =
      .next ((claim (claim s x.toNat w0 id) (x.toNat + s.variant.half) w1 id).setResult .done) :=
  done_eq_next.mpr ⟨_, writeTwo_eq_next.mpr ⟨⟨hs, hx⟩, ho0, ho1, rfl⟩, rfl⟩

/-- Settles O15: the filled table lists no entry and no owner, and before it no override write has its stage. -/
theorem fillWritesTheTrapWordEverywhere : Obligations.FillWritesTheTrapWordEverywhere := by
  refine fun s => ⟨fun hs => ?_, exec_fill_stageViolation, fun hs x w0 w1 id => ?_⟩
  · refine ⟨_, exec_fill_of_allocated hs, rfl, rfl, fun a ha => ⟨?_, ownerOf_filledTable s a⟩, rfl, rfl, rfl, rfl, rfl⟩
    rw [entry_setResult, entry_eq_romWord (s := filledTable s) (.inl rfl) ha, romWord_filledTable]
  · have hne : s.stage ≠ .filled := by simp [hs]
    rw [exec_write1_stageViolation hne, exec_write2_stageViolation hne, hs]
    exact ⟨rfl, rfl⟩

/-- Settles O16: WRITE1 is one claim, which no other index sees. -/
theorem write1ClaimsOneEntry : Obligations.Write1ClaimsOneEntry := by
  intro s x w id hs hwf hx ho
  have hsize := hx.trans (half_lt_size s.variant)
  refine ⟨_, exec_write1_of_unclaimed hs hx ho w id, ?_⟩
  simp only [entry_setResult, ownerOf_setResult]
  refine ⟨entry_claim_self w id hs hwf hsize, ownerOf_claim_self .., ?_, rfl, rfl, rfl, rfl, rfl, rfl, rfl⟩
  exact fun a ha => ⟨entry_claim_of_ne s w id ha, ownerOf_claim_of_ne s w id ha⟩

/-- Settles O17: WRITE2 is a claim of each phase slot, and the two slots are distinct. -/
theorem write2ClaimsBothPhaseSlots : Obligations.Write2ClaimsBothPhaseSlots := by
  intro s x w0 w1 id hs hwf hx ho0 ho1
  have hsize0 := hx.trans (half_lt_size s.variant)
  have hsize1 := add_half_lt_size hx
  have hne : x.toNat ≠ x.toNat + s.variant.half := by omega
  have hwf0 := Memory.wf_claim w0 id hsize0 hwf
  refine ⟨_, exec_write2_of_unclaimed hs hx ho0 ho1 w0 w1 id, ?_⟩
  simp only [entry_setResult, ownerOf_setResult]
  refine ⟨?_, ?_, entry_claim_self w1 id (s := claim s _ w0 id) hs hwf0 hsize1, ownerOf_claim_self .., 
    fun a ha0 ha1 => ⟨?_, ?_⟩, rfl, rfl, rfl, rfl, rfl, rfl, rfl⟩
  · exact (entry_claim_of_ne _ w1 id hne).trans (entry_claim_self w0 id hs hwf hsize0)
  · exact (ownerOf_claim_of_ne _ w1 id hne).trans (ownerOf_claim_self ..)
  · exact (entry_claim_of_ne _ w1 id ha1).trans (entry_claim_of_ne s w0 id ha0)
  · exact (ownerOf_claim_of_ne _ w1 id ha1).trans (ownerOf_claim_of_ne s w0 id ha0)

/-! ### Lookups, the image and presented addresses (R146, R148, R149) -/

theorem toNat_bit_le_one (p : Bit) : p.toNat ≤ 1 := Nat.le_of_lt_succ p.isLt

/-- A lookup reads an entry that exists, and the same lookup again has nothing left to change (R49). -/
theorem lookupAt_of_frozen {s : State} (hs : s.stage = .frozen) (p : Bit) {i : Nat} (hi : i < s.variant.half) :
    ∃ w t, entry s (s.variant.half * p.toNat + i) = some w ∧ lookupAt s.variant p i s = .next t ∧
      t = (s.setCw w).setResult (.word w) ∧ lookupAt s.variant p i t = .next t := by
  have hsize : s.variant.half * p.toNat + i < s.variant.size :=
    calc s.variant.half * p.toNat + i ≤ i + s.variant.half := by
          have := Nat.mul_le_mul_left s.variant.half (toNat_bit_le_one p); omega
      _ < s.variant.size := add_half_lt_size hi
  rw [entry_eq_romWord (.inr hs) hsize, Nat.mul_comm]
  exact ⟨_, _, rfl, lookupAt_eq_next.mpr ⟨hs, rfl, rfl⟩, rfl, lookupAt_eq_next.mpr ⟨hs, rfl, rfl⟩⟩

/-- Settles O28: either lookup row is the lookup of its variant. -/
theorem lookupDrivesTheAddressedEntry : Obligations.LookupDrivesTheAddressedEntry := by
  refine fun s p hs => ⟨fun i hv => ?_, fun i hv => ?_⟩
  · have hi : i.toNat < s.variant.half := hv ▸ i.isLt
    have hlookup := lookupAt_of_frozen hs p hi
    rw [hv] at hlookup
    exact hlookup
  · have hi : i.toNat < s.variant.half := hv ▸ i.isLt
    have hlookup := lookupAt_of_frozen hs p hi
    rw [hv] at hlookup
    exact hlookup

section
variable {s : State} (hs : s.stage ≠ .frozen)
include hs

theorem lookupAt_notFrozen (v : Variant) (p : Bit) (i : Nat) : lookupAt v p i s = .refused .notFrozen := if_neg hs

theorem present_notFrozen (p : Bit) (i : InstrBits) (f : Bool) : present p i f s = .refused .notFrozen := if_neg hs

theorem presentIn_notFrozen (v : Variant) (p : Bit) (i : InstrBits) (f : Bool) :
    presentIn v p i f s = .refused .notFrozen := if_neg hs

theorem exec_entryRow12_notFrozen {i : Instr} (hi : isEntryRow12 i = true) : exec i s = .refused .notFrozen := by
  cases i with
  | oneWord | twoWordFirst | twoWordSecond => exact present_notFrozen hs ..
  | trap | ldG0 | ldG0Ref | escRegB | escRegAA | escRegAB | aGroup7 => exact presentIn_notFrozen hs ..
  | _ => cases hi

end

/-- Settles O29: every read asks for the stage before anything else. -/
theorem readsBeforeTheFreezeAreRefused : Obligations.ReadsBeforeTheFreezeAreRefused := by
  intro s hs
  refine ⟨fun _ _ => lookupAt_notFrozen hs .., fun _ _ => lookupAt_notFrozen hs .., fun _ => if_neg hs, ?_⟩
  rintro i (hi | ⟨p, j, rfl⟩)
  · exact exec_entryRow12_notFrozen hs hi
  · exact presentIn_notFrozen hs ..

/-- The bytes of an emitted image are those of the table's words (R43, R44). -/
theorem getElem?_image {s t : State} {big : Bool} {img : List Byte} (h : exec (.serialize big) s = .next t)
    (himg : t.image = some img) {a k : Nat} (ha : a < s.variant.size) (hk : k < 4) :
    img[4 * a + k]? =
      some (if big then (romWord s a).extractLsb' (24 - 8 * k) 8 else (romWord s a).extractLsb' (8 * k) 8) := by
  obtain ⟨hs, rfl⟩ := serializeTable_eq_next.mp h
  obtain ⟨img', hexec, -, hbytes⟩ := serializedImageIsTheWordsInOrder s big hs
  obtain rfl : img' = img := by
    have hstate := Host.Outcome.next.inj (hexec.symm.trans h)
    exact Option.some.inj ((congrArg State.image hstate).trans himg)
  exact hbytes a _ k (entry_eq_romWord (.inr hs) ha) hk

/-- Settles O31: byte `k` of a word in the one order is byte `3 - k` in the other. -/
theorem endiannessFlagReversesEachWord : Obligations.EndiannessFlagReversesEachWord := by
  intro s tb tl ib il hbig hlittle hib hil a k ha hk
  have hplace : 8 * (3 - k) = 24 - 8 * k := by omega
  rw [getElem?_image hbig hib ha hk, getElem?_image hlittle hil ha (by omega : 3 - k < 4), hplace]
  rfl

end Sys2Proof.Machine
end

section
/-! PROOFS. O23 and O46: first match, and the table under construction, in which every unclaimed entry holds the trap
word. -/

namespace Sys2Proof.Machine

/-! ### First match (R140, R141) -/

theorem firstMatch_eq_findSome? (cfg : Params) (c : Combo) (rs : List Rule) :
    firstMatch cfg c rs = rs.findSome? fun r => (ruleEmission cfg c r).map (r.id, ·) := by
  induction rs with
  | nil => rfl
  | cons r rs ih =>
    rw [firstMatch_cons, ih, List.findSome?_cons]
    cases ruleEmission cfg c r <;> rfl

/-- Settles O23: first match is the library's search for the first rule with an emission. -/
theorem firstMatchingRuleIsTaken : Obligations.FirstMatchingRuleIsTaken := by
  refine fun cfg c rs => ⟨fun id e => ?_, ?_⟩
  · simp only [firstMatch_eq_findSome?, List.findSome?_eq_some_iff, Option.map_eq_some_iff, Option.map_eq_none_iff,
      Prod.mk.injEq]
    constructor
    · rintro ⟨before, r, after, rfl, ⟨e', he, rfl, rfl⟩, hbefore⟩
      exact ⟨before, r, after, rfl, rfl, he, hbefore⟩
    · rintro ⟨before, r, after, rfl, rfl, he, hbefore⟩
      exact ⟨before, r, after, rfl, ⟨e, he, rfl, rfl⟩, hbefore⟩
  · simp only [firstMatch_eq_findSome?, List.findSome?_eq_none_iff, Option.map_eq_none_iff]

/-! ### A table with an owner map (R23, R150) -/

/-- The part of the lifecycle's invariant that bears on a table with an owner map: canonical form, and every listed
entry claimed. -/
structure OwnedTable (s : State) : Prop where
  wf : Memory.wf s = true
  owned : s.owner.isSome = true
  claimed : claimedOrTrap s = true

theorem LifecycleInv.ownedTable {s : State} (hs : LifecycleInv s) (ho : s.owner.isSome = true) : OwnedTable s := by
  obtain ⟨hwf, -, hclaim, -, -⟩ := hs
  exact ⟨hwf, ho, hclaim⟩

theorem ownedTable_filledTable (s : State) : OwnedTable (filledTable s) := ⟨rfl, rfl, rfl⟩

theorem OwnedTable.setStage {s : State} (hs : OwnedTable s) (g : Stage) : OwnedTable (s.setStage g) :=
  ⟨hs.wf, hs.owned, hs.claimed⟩

theorem OwnedTable.setResult {s : State} (hs : OwnedTable s) (r : Result) : OwnedTable (s.setResult r) :=
  ⟨hs.wf, hs.owned, hs.claimed⟩

theorem OwnedTable.claim {s : State} {a : Nat} (w : Word) (id : RuleId) (hs : OwnedTable s)
    (ha : a < s.variant.size) : OwnedTable (claim s a w id) := by
  obtain ⟨hwf, ho, hclaim⟩ := hs
  exact ⟨Memory.wf_claim w id ha hwf, rfl, claimedOrTrap_claim w id ha ho hclaim⟩

theorem OwnedTable.visit {s t : State} {c : Combo × Nat} (hs : OwnedTable s) (hc : c.2 < s.variant.size)
    (h : visit s c = .next t) : OwnedTable t := by
  rcases visit_cases h with ⟨-, rfl⟩ | ⟨id, m, w, -, -, hw⟩ | ⟨id, m0, m1, w0, w1, -, -, -, hw⟩
  · exact hs
  · obtain ⟨-, -, rfl⟩ := writeOne_eq_next.mp hw
    exact hs.claim w id hc
  · obtain ⟨⟨-, hhalf⟩, -, -, rfl⟩ := writeTwo_eq_next.mp hw
    exact (hs.claim w0 id hc).claim w1 id (add_half_lt_size hhalf)

theorem OwnedTable.visitAll {s t : State} {cs : List (Combo × Nat)} (hs : OwnedTable s)
    (hcs : ∀ c ∈ cs, c.2 < s.variant.size) (h : visitAll cs s = .next t) : OwnedTable t := by
  have hind := visitAll_induction (P := fun u => u.variant = s.variant ∧ OwnedTable u) ?_ ⟨rfl, hs⟩ h
  · exact hind.2
  · rintro c hc u u' ⟨hv, hu⟩ hu'
    exact ⟨(visit_frame hu').2.1.trans hv, hu.visit (hv ▸ hcs c hc) hu'⟩

theorem OwnedTable.decodeTable {s t : State} (hs : OwnedTable s) (h : decodeTable s = .next t) : OwnedTable t := by
  obtain ⟨-, -, -, u, hu, rfl⟩ := decodeTable_eq_next.mp h
  exact (hs.visitAll (fun c hc => slot_lt_size hc) hu).setStage .frozen

/-- A listed index stands in the map with its value. -/
theorem mem_of_cellAt {α : Type} {m : Cells α} {a : Nat} {v : α} (h : cellAt m a = some v) : (a, v) ∈ m := by
  induction m with
  | nil => cases h
  | cons c m ih =>
    obtain ⟨b, u⟩ := c
    rw [cellAt] at h
    split at h
    · next hab => cases h; simp [hab]
    · exact List.mem_cons_of_mem _ (ih h)

/-- An entry that no rule claimed is not listed, so it holds the trap word (R150). -/
theorem OwnedTable.romWord_of_unclaimed {s : State} (hs : OwnedTable s) {a : Nat} (ha : ownerOf s a = none) :
    romWord s a = s.cfg.trapWord := by
  obtain ⟨-, ho, hclaim⟩ := hs
  obtain ⟨m, hm⟩ := Option.isSome_iff_exists.mp ho
  obtain ⟨-, hclaimed⟩ := (claimedOrTrap_iff_of_owner_some hm).mp hclaim
  have hnone : cellAt m a = none := by simpa [ownerOf, hm] using ha
  cases hcell : cellAt s.rom a with
  | none => simp [romWord, readWord, hcell]
  | some w => simpa [hnone] using hclaimed _ (mem_of_cellAt hcell)

/-! ### GENERATE (R143) -/

/-- From the start GENERATE is DECODE_PASS on the filled table of the variant. -/
theorem generateTable_eq_next_iff {v : Variant} {s t : State} :
    generateTable v s = .next t ↔ s.stage = .unallocated ∧ decodeTable (filledTable (s.setVariant v)) = .next t := by
  rw [generateTable_eq_next]
  constructor
  · rintro ⟨-, s1, s2, halloc, hfill, hdecode⟩
    obtain ⟨hs, rfl⟩ := allocTable_eq_next.mp halloc
    obtain ⟨-, rfl⟩ := fillTable_eq_next.mp hfill
    exact ⟨hs, hdecode⟩
  · rintro ⟨hs, hdecode⟩
    obtain ⟨hschema, -⟩ := decodeTable_eq_next.mp hdecode
    exact ⟨hschema, _, _, allocTable_eq_next.mpr ⟨hs, rfl⟩, fillTable_of_allocated rfl, hdecode⟩

theorem exec_generate_eq_next {v : Variant} {s t : State} :
    exec (.generate v) s = .next t ↔
      s.stage = .unallocated ∧ exec .decodePass (filledTable (s.setVariant v)) = .next t := by
  have hgen : exec (.generate v) s = done (generateTable v s) := rfl
  have hpass (u : State) : exec .decodePass u = done (decodeTable u) := rfl
  simp only [hgen, hpass, done_eq_next, generateTable_eq_next_iff, and_assoc, exists_and_left]

theorem OwnedTable.exec_decodePass {s t : State} (hs : OwnedTable s) (h : exec .decodePass s = .next t) :
    OwnedTable t := by
  obtain ⟨u, hu, rfl⟩ := done_eq_next.mp h
  exact (hs.decodeTable hu).setResult .done

/-- Settles O46: the invariant of a table with an owner map holds after FILL, in every state of the lifecycle, and after
GENERATE. -/
theorem unclaimedEntriesHoldTheTrapWord : Obligations.UnclaimedEntriesHoldTheTrapWord := by
  have hunclaimed {t : State} (ht : OwnedTable t) :
      t.owner.isSome = true ∧ ∀ a, ownerOf t a = none → romWord t a = t.cfg.trapWord :=
    ⟨ht.owned, fun _ ha => ht.romWord_of_unclaimed ha⟩
  refine ⟨fun s t h => ?_, fun s t hs h ho => ?_, fun s t v h => ?_, fun s hs => ?_⟩
  · obtain ⟨u, hu, rfl⟩ := done_eq_next.mp h
    obtain ⟨-, rfl⟩ := fillTable_eq_next.mp hu
    exact hunclaimed ((ownedTable_filledTable s).setResult .done)
  · exact (hunclaimed ((everyStepKeepsTheInvariant s t hs h).ownedTable ho)).2
  · obtain ⟨-, hpass⟩ := exec_generate_eq_next.mp h
    exact hunclaimed ((ownedTable_filledTable _).exec_decodePass hpass)
  · rw [exec_fill_stageViolation (by simp [hs]), hs]

end Sys2Proof.Machine
end

section
/-! PROOFS. O20, O21, O22 and O25: the pass. A visit writes its own slot and leaves every other one, so after
visits to distinct slots each slot holds what its first matching rule emits, in whatever order they were made. -/

namespace Sys2Proof.Machine

/-! ### What the pass puts at an address (R140, R145) -/

/-- An address holds a claim, the packed word and the identity of a rule, or else the unclaimed trap word. -/
def holdsClaim (s : State) (a : Nat) : Option (RuleId × FieldMap) → Prop
  | none => ownerOf s a = none ∧ romWord s a = s.cfg.trapWord
  | some (id, m) => ownerOf s a = some id ∧ pack s.cfg.schema m = .ok (romWord s a)

/-- The claim of the phase-0 address by the rule taken: its first or only word. -/
def firstClaim : Option (RuleId × Emission) → Option (RuleId × FieldMap)
  | none => none
  | some (id, e) => some (id, firstMap e)

/-- The claim of the phase-1 address by the rule taken: its second word. -/
def secondClaim : Option (RuleId × Emission) → Option (RuleId × FieldMap)
  | none => none
  | some (_, .one _) => none
  | some (id, .two _ m1) => some (id, m1)

theorem slotHolds_iff {s : State} {c : Combo × Nat} :
    slotHolds s c ↔
      holdsClaim s c.2 (firstClaim (firstMatch s.cfg c.1 (s.cfg.rules s.variant))) ∧
        holdsClaim s (c.2 + s.variant.half) (secondClaim (firstMatch s.cfg c.1 (s.cfg.rules s.variant))) := by
  unfold slotHolds
  rcases firstMatch s.cfg c.1 (s.cfg.rules s.variant) with _ | ⟨id, m | ⟨m0, m1⟩⟩
  · exact and_assoc.symm
  · exact and_assoc.symm
  · exact and_assoc.symm

theorem claimAt_eq (cfg : Params) (x : BitVec 12) :
    claimAt cfg x =
      if phaseOf x = 0 then firstClaim (firstMatch cfg (split cfg.layoutFull x).combo (cfg.rules .full))
      else secondClaim (firstMatch cfg (split cfg.layoutFull x).combo (cfg.rules .full)) := by
  unfold claimAt
  rcases firstMatch cfg (split cfg.layoutFull x).combo (cfg.rules .full) with _ | ⟨id, m | ⟨m0, m1⟩⟩
  · exact (ite_self none).symm
  · rfl
  · rfl

/-! ### Tables that agree at an address -/

/-- Two tables have the same owner and the same word at an address. -/
def agreesAt (s t : State) (a : Nat) : Prop := ownerOf t a = ownerOf s a ∧ romWord t a = romWord s a

theorem agreesAt.trans {s t u : State} {a : Nat} (hst : agreesAt s t a) (htu : agreesAt t u a) : agreesAt s u a :=
  ⟨htu.1.trans hst.1, htu.2.trans hst.2⟩

theorem agreesAt_claim_of_ne (s : State) {a x : Nat} (w : Word) (id : RuleId) (h : x ≠ a) :
    agreesAt s (claim s a w id) x :=
  ⟨ownerOf_claim_of_ne s w id h, romWord_claim_of_ne s w id h⟩

theorem holdsClaim_congr {s t : State} {a : Nat} (hcfg : t.cfg = s.cfg) (h : agreesAt s t a)
    {k : Option (RuleId × FieldMap)} : holdsClaim t a k ↔ holdsClaim s a k := by
  obtain ⟨howner, hword⟩ := h
  rcases k with _ | ⟨id, m⟩ <;> simp only [holdsClaim, howner, hword, hcfg]

/-- A claim determines the owner and the word. -/
theorem agreesAt_of_holdsClaim {s t : State} {a : Nat} (hcfg : t.cfg = s.cfg) {k : Option (RuleId × FieldMap)}
    (hs : holdsClaim s a k) (ht : holdsClaim t a k) : agreesAt s t a := by
  rcases k with _ | ⟨id, m⟩
  · exact ⟨ht.1.trans hs.1.symm, by rw [ht.2, hs.2, hcfg]⟩
  · have hpack := ht.2
    rw [hcfg, hs.2] at hpack
    exact ⟨ht.1.trans hs.1.symm, (Except.ok.inj hpack).symm⟩

theorem holdsClaim_claim_self {s : State} (hwf : Memory.wf s = true) (a : Nat) {m : FieldMap} {w : Word}
    (hw : pack s.cfg.schema m = .ok w) (id : RuleId) : holdsClaim (claim s a w id) a (some (id, m)) :=
  ⟨ownerOf_claim_self .., hw.trans (congrArg _ (romWord_claim_self a w id hwf).symm)⟩

theorem holdsClaim_claim_of_ne {s : State} {a x : Nat} (w : Word) (id : RuleId) (h : x ≠ a)
    {k : Option (RuleId × FieldMap)} (hs : holdsClaim s x k) : holdsClaim (claim s a w id) x k :=
  (holdsClaim_congr (claim_cfg s a w id) (agreesAt_claim_of_ne s w id h)).mpr hs

/-! ### Slots -/

/-- The two phase addresses of a slot. -/
def inSlot (v : Variant) (c : Combo × Nat) (a : Nat) : Prop := a = c.2 ∨ a = c.2 + v.half

/-- No rule has claimed an address of the slot. -/
def unclaimedSlot (s : State) (c : Combo × Nat) : Prop := ∀ a, inSlot s.variant c a → ownerOf s a = none

/-- The slots of a list are phase-0 indices, each listed once. -/
def SlotsApart (v : Variant) (cs : List (Combo × Nat)) : Prop :=
  (cs.map (·.2)).Nodup ∧ ∀ c ∈ cs, c.2 < v.half

theorem SlotsApart.perm {v : Variant} {cs ds : List (Combo × Nat)} (h : SlotsApart v cs) (hperm : ds.Perm cs) :
    SlotsApart v ds :=
  ⟨(hperm.map _).nodup_iff.mpr h.1, fun c hc => h.2 c (hperm.mem_iff.mp hc)⟩

theorem half_pos (v : Variant) : 0 < v.half := Nat.two_pow_pos _

/-- The first slot of such a list shares no address with the others. -/
theorem slotsApart_cons {v : Variant} {c : Combo × Nat} {cs : List (Combo × Nat)} (h : SlotsApart v (c :: cs)) :
    c.2 < v.half ∧ SlotsApart v cs ∧ ∀ d ∈ cs, ∀ a, inSlot v c a → ¬inSlot v d a := by
  obtain ⟨hnodup, hlt⟩ := h
  obtain ⟨hc, hcs⟩ := List.forall_mem_cons.mp hlt
  rw [List.map_cons, List.nodup_cons] at hnodup
  refine ⟨hc, ⟨hnodup.2, hcs⟩, fun d hd a hac had => ?_⟩
  have hne : d.2 ≠ c.2 := fun h => hnodup.1 (h ▸ List.mem_map_of_mem hd)
  have hdlt := hcs d hd
  unfold inSlot at hac had
  omega

theorem slotHolds_congr {s t : State} {c : Combo × Nat} (hcfg : t.cfg = s.cfg) (hv : t.variant = s.variant)
    (h : ∀ a, inSlot s.variant c a → agreesAt s t a) : slotHolds t c ↔ slotHolds s c := by
  rw [slotHolds_iff, slotHolds_iff, hcfg, hv, holdsClaim_congr hcfg (h _ (.inl rfl)),
    holdsClaim_congr hcfg (h _ (.inr rfl))]

/-- What a slot holds determines its addresses. -/
theorem agreesAt_of_slotHolds {s t : State} {c : Combo × Nat} (hcfg : t.cfg = s.cfg) (hv : t.variant = s.variant)
    (hs : slotHolds s c) (ht : slotHolds t c) {a : Nat} (ha : inSlot s.variant c a) : agreesAt s t a := by
  rw [slotHolds_iff] at hs ht
  rw [hcfg, hv] at ht
  rcases ha with rfl | rfl
  · exact agreesAt_of_holdsClaim hcfg hs.1 ht.1
  · exact agreesAt_of_holdsClaim hcfg hs.2 ht.2

/-! ### A visit that completes (R140) -/

/-- A visit leaves every address outside its slot. -/
theorem agreesAt_of_visit {s t : State} {c : Combo × Nat} (h : visit s c = .next t) {a : Nat}
    (ha : ¬inSlot s.variant c a) : agreesAt s t a := by
  obtain ⟨hne0, hne1⟩ := not_or.mp ha
  rcases visit_cases h with ⟨-, rfl⟩ | ⟨id, m, w, -, -, hw⟩ | ⟨id, m0, m1, w0, w1, -, -, -, hw⟩
  · exact ⟨rfl, rfl⟩
  · obtain ⟨-, -, rfl⟩ := writeOne_eq_next.mp hw
    exact agreesAt_claim_of_ne s w id hne0
  · obtain ⟨-, -, -, rfl⟩ := writeTwo_eq_next.mp hw
    exact (agreesAt_claim_of_ne s w0 id hne0).trans (agreesAt_claim_of_ne _ w1 id hne1)

/-- A visit puts into its slot what the first matching rule emits. -/
theorem slotHolds_of_visit {s t : State} {c : Combo × Nat} (hs : OwnedTable s) (hc : c.2 < s.variant.size)
    (hfree : unclaimedSlot s c) (h : visit s c = .next t) : slotHolds t c := by
  have hne : c.2 ≠ c.2 + s.variant.half := by have := half_pos s.variant; omega
  have htrap (a : Nat) (ha : inSlot s.variant c a) : holdsClaim s a none :=
    ⟨hfree a ha, hs.romWord_of_unclaimed (hfree a ha)⟩
  obtain ⟨hcfg, hv, -⟩ := visit_frame h
  rw [slotHolds_iff, hcfg, hv]
  rcases visit_cases h with ⟨hmatch, rfl⟩ | ⟨id, m, w, hmatch, hpack, hw⟩ |
    ⟨id, m0, m1, w0, w1, hmatch, hpack0, hpack1, hw⟩
  · rw [hmatch]
    exact ⟨htrap _ (.inl rfl), htrap _ (.inr rfl)⟩
  · obtain ⟨-, -, rfl⟩ := writeOne_eq_next.mp hw
    rw [hmatch]
    exact ⟨holdsClaim_claim_self hs.wf _ hpack id, holdsClaim_claim_of_ne w id hne.symm (htrap _ (.inr rfl))⟩
  · obtain ⟨-, -, -, rfl⟩ := writeTwo_eq_next.mp hw
    rw [hmatch]
    exact ⟨holdsClaim_claim_of_ne w1 id hne (holdsClaim_claim_self hs.wf _ hpack0 id),
      holdsClaim_claim_self (hs.claim w0 id hc).wf _ hpack1 id⟩

theorem agreesAt_of_visitAll {s t : State} {cs : List (Combo × Nat)} (h : visitAll cs s = .next t) {a : Nat}
    (ha : ∀ c ∈ cs, ¬inSlot s.variant c a) : agreesAt s t a := by
  have hind := visitAll_induction (P := fun u => u.variant = s.variant ∧ agreesAt s u a) ?_ ⟨rfl, rfl, rfl⟩ h
  · exact hind.2
  · rintro c hc u u' ⟨hv, hu⟩ hu'
    exact ⟨(visit_frame hu').2.1.trans hv, hu.trans (agreesAt_of_visit hu' (hv ▸ ha c hc))⟩

/-- A visit to another slot claims nothing of an unclaimed one. -/
theorem unclaimedSlot_of_visit {s t : State} {c d : Combo × Nat} (h : visit s c = .next t)
    (hapart : ∀ a, inSlot s.variant c a → ¬inSlot s.variant d a) (hd : unclaimedSlot s d) : unclaimedSlot t d := by
  obtain ⟨-, hv, -⟩ := visit_frame h
  intro a ha
  rw [hv] at ha
  exact (agreesAt_of_visit h fun hc => hapart a hc ha).1.trans (hd a ha)

/-- After visits to distinct unclaimed slots each of them holds what its first matching rule emits. -/
theorem slotHolds_of_visitAll {s t : State} {cs : List (Combo × Nat)} (hs : OwnedTable s)
    (hcs : SlotsApart s.variant cs) (hfree : ∀ c ∈ cs, unclaimedSlot s c) (h : visitAll cs s = .next t) :
    ∀ c ∈ cs, slotHolds t c := by
  induction cs generalizing s with
  | nil => simp
  | cons c cs ih =>
    obtain ⟨u, hu, ht⟩ := andThen_eq_next.mp h
    obtain ⟨hlt, hcs', hapart⟩ := slotsApart_cons hcs
    obtain ⟨hfreec, hfreecs⟩ := List.forall_mem_cons.mp hfree
    have hsize := hlt.trans (half_lt_size _)
    have hv : u.variant = s.variant := (visit_frame hu).2.1
    obtain ⟨hcfg, hvt, -⟩ := visitAll_frame ht
    refine List.forall_mem_cons.mpr ⟨?_, ?_⟩
    · refine (slotHolds_congr hcfg hvt fun a ha => ?_).mpr (slotHolds_of_visit hs hsize hfreec hu)
      exact agreesAt_of_visitAll ht fun d hd => by rw [hv] at ha ⊢; exact hapart d hd a ha
    · exact ih (hs.visit hsize hu) (hv ▸ hcs')
        (fun d hd => unclaimedSlot_of_visit hu (hapart d hd) (hfreecs d hd)) ht

/-! ### When a visit completes (R112, R184, R185) -/

/-- What the first matching rule emits for a slot packs. -/
def slotPacks (cfg : Params) (v : Variant) (c : Combo × Nat) : Prop :=
  ∀ id e, firstMatch cfg c.1 (cfg.rules v) = some (id, e) → emissionPacks cfg e = true

theorem contentPacks_iff {cfg : Params} {v : Variant} :
    contentPacks cfg v = true ↔
      contentRange cfg (cfg.rules v) = none ∧ ∀ c ∈ slots cfg v, slotPacks cfg v c := by
  simp only [contentPacks, Bool.and_eq_true, Option.isNone_iff_eq_none, List.all_eq_true]
  refine and_congr_right fun _ => forall₂_congr fun c _ => ?_
  unfold slotPacks
  rcases firstMatch cfg c.1 (cfg.rules v) with _ | ⟨id, e⟩ <;> simp

theorem pack_isOk_iff {S : Schema} {m : FieldMap} : (pack S m).isOk = true ↔ ∃ w, pack S m = .ok w := by
  cases pack S m <;> simp [Except.isOk, Except.toBool]

/-- Where the words pack, a visit does nothing, or is the write of the rule's one or two words. -/
theorem visit_eq_of_slotPacks {s : State} {c : Combo × Nat} (h : slotPacks s.cfg s.variant c) :
    visit s c = .next s ∨ (∃ w id, visit s c = writeOne c.2 w id s) ∨
      ∃ w0 w1 id, visit s c = writeTwo c.2 w0 w1 id s := by
  unfold visit
  rcases hmatch : firstMatch s.cfg c.1 (s.cfg.rules s.variant) with _ | ⟨id, m | ⟨m0, m1⟩⟩
  · exact .inl rfl
  · obtain ⟨w, hw⟩ := pack_isOk_iff.mp (h _ _ hmatch)
    exact .inr (.inl ⟨w, id, by simp only [hw]⟩)
  · obtain ⟨hok0, hok1⟩ := Bool.and_eq_true_iff.mp (h _ _ hmatch)
    obtain ⟨w0, hw0⟩ := pack_isOk_iff.mp hok0
    obtain ⟨w1, hw1⟩ := pack_isOk_iff.mp hok1
    exact .inr (.inr ⟨w0, w1, id, by simp only [hw0, hw1]⟩)

theorem slotPacks_of_visit {s t : State} {c : Combo × Nat} (h : visit s c = .next t) :
    slotPacks s.cfg s.variant c := by
  intro id e he
  rcases visit_cases h with ⟨hmatch, -⟩ | ⟨id', m, w, hmatch, hpack, -⟩ |
    ⟨id', m0, m1, w0, w1, hmatch, hpack0, hpack1, -⟩
  · cases hmatch.symm.trans he
  · cases hmatch.symm.trans he
    exact pack_isOk_iff.mpr ⟨w, hpack⟩
  · cases hmatch.symm.trans he
    exact Bool.and_eq_true_iff.mpr ⟨pack_isOk_iff.mpr ⟨w0, hpack0⟩, pack_isOk_iff.mpr ⟨w1, hpack1⟩⟩

theorem visit_completes {s : State} {c : Combo × Nat} (hs : s.stage = .filled) (hc : c.2 < s.variant.half)
    (hfree : unclaimedSlot s c) (hpacks : slotPacks s.cfg s.variant c) : ∃ t, visit s c = .next t := by
  rcases visit_eq_of_slotPacks hpacks with h | ⟨w, id, h⟩ | ⟨w0, w1, id, h⟩
  · exact ⟨s, h⟩
  · exact ⟨_, h.trans (writeOne_eq_next.mpr ⟨hs, hfree _ (.inl rfl), rfl⟩)⟩
  · exact ⟨_, h.trans (writeTwo_eq_next.mpr ⟨⟨hs, hc⟩, hfree _ (.inl rfl), hfree _ (.inr rfl), rfl⟩)⟩

theorem visitAll_completes {s : State} {cs : List (Combo × Nat)} (hs : s.stage = .filled)
    (hcs : SlotsApart s.variant cs) (hfree : ∀ c ∈ cs, unclaimedSlot s c)
    (hpacks : ∀ c ∈ cs, slotPacks s.cfg s.variant c) : ∃ t, visitAll cs s = .next t := by
  induction cs generalizing s with
  | nil => exact ⟨s, rfl⟩
  | cons c cs ih =>
    obtain ⟨hlt, hcs', hapart⟩ := slotsApart_cons hcs
    obtain ⟨hfreec, hfreecs⟩ := List.forall_mem_cons.mp hfree
    obtain ⟨hpackc, hpackcs⟩ := List.forall_mem_cons.mp hpacks
    obtain ⟨u, hu⟩ := visit_completes hs hlt hfreec hpackc
    obtain ⟨hcfg, hv, hstage, -⟩ := visit_frame hu
    obtain ⟨t, ht⟩ := ih (hstage.trans hs) (hv ▸ hcs')
      (fun d hd => unclaimedSlot_of_visit hu (hapart d hd) (hfreecs d hd)) (by rw [hcfg, hv]; exact hpackcs)
    exact ⟨t, andThen_eq_next.mpr ⟨u, hu, ht⟩⟩

theorem slotPacks_of_visitAll {s t : State} {cs : List (Combo × Nat)} (h : visitAll cs s = .next t) :
    ∀ c ∈ cs, slotPacks s.cfg s.variant c := by
  induction cs generalizing s with
  | nil => simp
  | cons c cs ih =>
    obtain ⟨u, hu, ht⟩ := andThen_eq_next.mp h
    obtain ⟨hcfg, hv, -⟩ := visit_frame hu
    exact List.forall_mem_cons.mpr ⟨slotPacks_of_visit hu, hcfg ▸ hv ▸ ih ht⟩

/-! ### The slots the pass enumerates (R87, R140) -/

/-- Lists of distinct elements that a function tells apart are distinct together. -/
theorem nodup_flatMap_of_leftInverse {α β : Type} {l : List α} {f : α → List β} (g : β → α) (hl : l.Nodup)
    (hf : ∀ x, (f x).Nodup) (hg : ∀ x, ∀ y ∈ f x, g y = x) : (l.flatMap f).Nodup :=
  List.nodup_flatMap.mpr ⟨fun x _ => hf x, hl.imp fun hne y hx hy => hne ((hg _ y hx).symm.trans (hg _ y hy))⟩

theorem mem_allSub3 : ∀ k, k ∈ allSub3 := by decide

theorem mem_allBit : ∀ q, q ∈ allBit := by decide

theorem fmt_of_mem_combosOf {f : Fmt} {c : Combo} (h : c ∈ combosOf f) : c.fmt = f := by
  simp only [combosOf, List.mem_flatMap, List.mem_map] at h
  obtain ⟨k, -, a, -, b, -, q, -, rfl⟩ := h
  rfl

theorem mem_combosOf (c : Combo) : c ∈ combosOf c.fmt := by
  simp only [combosOf, List.mem_flatMap, List.mem_map]
  exact ⟨c.key, mem_allSub3 _, c.a, mem_allSub3 _, c.b, mem_allSub3 _, c.q, mem_allBit _, rfl⟩

theorem mem_allCombos (c : Combo) : c ∈ allCombos := by
  rw [allCombos, List.mem_append]
  rcases hf : c.fmt
  · exact .inl (hf ▸ mem_combosOf c)
  · exact .inr (hf ▸ mem_combosOf c)

/-- The loops of R140 enumerate each combination once: every loop's variable is a sub-field of it. -/
theorem nodup_combosOf (f : Fmt) : (combosOf f).Nodup := by
  have hsub : allSub3.Nodup := by decide
  refine nodup_flatMap_of_leftInverse Combo.key hsub (fun k => ?_) (by aesop)
  refine nodup_flatMap_of_leftInverse Combo.a hsub (fun a => ?_) (by aesop)
  refine nodup_flatMap_of_leftInverse Combo.b hsub (fun b => ?_) (by aesop)
  exact (by decide : allBit.Nodup).map fun q q' h => congrArg Combo.q h

theorem nodup_allCombos : allCombos.Nodup := by
  refine (nodup_combosOf .A).append (nodup_combosOf .B) fun c hA hB => ?_
  cases (fmt_of_mem_combosOf hA).symm.trans (fmt_of_mem_combosOf hB)

theorem indexOf_zero_lt_half {L : LayoutFull} (hL : L.valid = true) (c : Combo) :
    (indexOf L 0 c).toNat < Variant.full.half :=
  (phaseSlotsAreHalfApart.1 L c hL).1

theorem indexOf_one {L : LayoutFull} (hL : L.valid = true) (c : Combo) :
    (indexOf L 1 c).toNat = (indexOf L 0 c).toNat + Variant.full.half :=
  (phaseSlotsAreHalfApart.1 L c hL).2

theorem slotsApart_full {cfg : Params} (hL : cfg.layoutFull.valid = true) :
    SlotsApart .full (slots cfg .full) := by
  constructor
  · rw [slots, List.map_map]
    refine nodup_allCombos.map fun c d h => ?_
    exact (indexOf_injective hL (BitVec.eq_of_toNat_eq h)).2
  · simp only [slots, List.mem_map]
    rintro _ ⟨c, -, rfl⟩
    exact indexOf_zero_lt_half hL c

theorem slotsApart_mini {cfg : Params} (hL : miniValid cfg.layoutMini = true) :
    SlotsApart .mini (slots cfg .mini) := by
  constructor
  · have hpatterns : (cfg.layoutMini.map (·.2)).Nodup := by
      simp only [miniValid, Bool.and_eq_true, decide_eq_true_eq] at hL
      exact hL.1.2
    rw [slots, List.map_map]
    have hmap := hpatterns.map fun x y h => BitVec.eq_of_toNat_eq h
    rwa [List.map_map] at hmap
  · simp only [slots, List.mem_map]
    rintro _ ⟨x, -, rfl⟩
    exact x.2.isLt

theorem slotsApart_of_layoutsOk {cfg : Params} (h : layoutsOk cfg = true) (v : Variant) :
    SlotsApart v (slots cfg v) := by
  obtain ⟨hfull, hmini⟩ := Bool.and_eq_true_iff.mp h
  cases v with
  | full => exact slotsApart_full hfull
  | mini => exact slotsApart_mini hmini

/-- A combination's slot is among those of the full variant. -/
theorem mem_slots_full (cfg : Params) (c : Combo) : (c, (indexOf cfg.layoutFull 0 c).toNat) ∈ slots cfg .full :=
  List.mem_map.mpr ⟨c, mem_allCombos c, rfl⟩

/-! ### DECODE_PASS and GENERATE (R140, R143) -/

/-- A filled table without claims: nothing listed, nothing owned. -/
structure Unclaimed (s : State) : Prop where
  stage : s.stage = .filled
  rom : s.rom = []
  owner : s.owner = some []

theorem unclaimed_filledTable (s : State) : Unclaimed (filledTable s) := ⟨rfl, rfl, rfl⟩

theorem Unclaimed.ownedTable {s : State} (hs : Unclaimed s) : OwnedTable s := by
  have hwf : Memory.wf s = true := by simp [Memory.wf, hs.rom]
  have hclaimed : claimedOrTrap s = true := by simp [claimedOrTrap, hs.rom, hs.owner]
  exact ⟨hwf, by simp [hs.owner], hclaimed⟩

theorem Unclaimed.unclaimedSlot {s : State} (hs : Unclaimed s) (c : Combo × Nat) : unclaimedSlot s c := by
  intro a _
  simp [ownerOf, hs.owner, cellAt]

theorem exec_decodePass_eq_next {s t : State} :
    exec .decodePass s = .next t ↔
      schemaClause s.cfg.schema = none ∧ s.stage = .filled ∧ contentRange s.cfg (s.cfg.rules s.variant) = none ∧
        ∃ u, visitAll (slots s.cfg s.variant) s = .next u ∧ t = (u.setStage .frozen).setResult .done := by
  have hpass : exec .decodePass s = done (decodeTable s) := rfl
  rw [hpass, done_eq_next]
  constructor
  · rintro ⟨_, hdecode, rfl⟩
    obtain ⟨hschema, hs, hrange, u, hu, rfl⟩ := decodeTable_eq_next.mp hdecode
    exact ⟨hschema, hs, hrange, u, hu, rfl⟩
  · rintro ⟨hschema, hs, hrange, u, hu, rfl⟩
    exact ⟨_, decodeTable_eq_next.mpr ⟨hschema, hs, hrange, u, hu, rfl⟩, rfl⟩

theorem exec_decodePass_completes {s : State} (hs : Unclaimed s) (hS : schemaOk s.cfg.schema = true)
    (hcs : SlotsApart s.variant (slots s.cfg s.variant)) (hpacks : contentPacks s.cfg s.variant = true) :
    ∃ t, exec .decodePass s = .next t := by
  obtain ⟨hrange, hslots⟩ := contentPacks_iff.mp hpacks
  obtain ⟨u, hu⟩ := visitAll_completes hs.stage hcs (fun c _ => hs.unclaimedSlot c) hslots
  exact ⟨_, exec_decodePass_eq_next.mpr ⟨schemaClause_eq_none_iff.mpr hS, hs.stage, hrange, u, hu, rfl⟩⟩

theorem exec_decodePass_frame {s t : State} (h : exec .decodePass s = .next t) :
    t.stage = .frozen ∧ t.variant = s.variant ∧ t.cfg = s.cfg ∧ t.cw = s.cw ∧ t.seq = s.seq ∧ t.image = s.image ∧
      t.inputs = s.inputs := by
  obtain ⟨-, -, -, u, hu, rfl⟩ := exec_decodePass_eq_next.mp h
  obtain ⟨hcfg, hv, -, hcw, hseq, -, himage, hinputs⟩ := visitAll_frame hu
  exact ⟨rfl, hv, hcfg, hcw, hseq, himage, hinputs⟩

theorem slotHolds_of_exec_decodePass {s t : State} (hs : Unclaimed s)
    (hcs : SlotsApart s.variant (slots s.cfg s.variant)) (h : exec .decodePass s = .next t) :
    ∀ c ∈ slots s.cfg s.variant, slotHolds t c := by
  obtain ⟨-, -, -, u, hu, rfl⟩ := exec_decodePass_eq_next.mp h
  have hholds : ∀ c ∈ slots s.cfg s.variant, slotHolds u c :=
    slotHolds_of_visitAll hs.ownedTable hcs (fun c _ => hs.unclaimedSlot c) hu
  exact hholds

/-- Settles O20: the slots are distinct and unclaimed, so every visit completes and none meets another's slot. -/
theorem decodePassBuildsTheTable : Obligations.DecodePassBuildsTheTable := by
  intro s hstage hrom howner hS hL hpacks
  have hs : Unclaimed s := ⟨hstage, hrom, howner⟩
  have hcs := slotsApart_of_layoutsOk hL s.variant
  obtain ⟨t, ht⟩ := exec_decodePass_completes hs hS hcs hpacks
  obtain ⟨hfrozen, hv, hframe⟩ := exec_decodePass_frame ht
  exact ⟨t, ht, hfrozen, hv, slotHolds_of_exec_decodePass hs hcs ht, hframe⟩

/-- Settles O21: GENERATE is the pass over a filled table without claims. -/
theorem generateBuildsTheTable : Obligations.GenerateBuildsTheTable := by
  intro v s hs hS hL hpacks
  obtain ⟨t, ht, hframe⟩ := decodePassBuildsTheTable (filledTable (s.setVariant v)) rfl rfl rfl hS hL hpacks
  exact ⟨t, exec_generate_eq_next.mpr ⟨hs, ht⟩, hframe⟩

theorem phaseOf_indexOf {L : LayoutFull} (hL : L.valid = true) (p : Bit) (c : Combo) :
    phaseOf (indexOf L p c) = p :=
  congrArg Split.phase (split_indexOf hL p c)

/-- The claim of an address of the full variant: SPLIT names its slot, and its phase bit which of the two (R145). -/
theorem holdsClaim_claimAt {t : State} (hL : t.cfg.layoutFull.valid = true) (hv : t.variant = .full)
    (hslots : ∀ c ∈ slots t.cfg .full, slotHolds t c) (x : BitVec 12) : holdsClaim t x.toNat (claimAt t.cfg x) := by
  obtain ⟨p, c, rfl⟩ : ∃ p c, x = indexOf t.cfg.layoutFull p c := ⟨_, _, (indexOf_split hL x).symm⟩
  obtain ⟨hfirst, hsecond⟩ := slotHolds_iff.mp (hslots _ (mem_slots_full t.cfg c))
  rw [hv] at hfirst hsecond
  rw [claimAt_eq, phaseOf_indexOf hL, split_indexOf hL]
  rcases (by decide : ∀ p : Bit, p = 0 ∨ p = 1) p with rfl | rfl
  · rw [if_pos rfl]
    exact hfirst
  · rw [if_neg (by decide), indexOf_one hL]
    exact hsecond

/-- Settles O22: every address is in the slot of the combination that SPLIT names. -/
theorem everyEntryIsTrapOrItsRulesWord : Obligations.EveryEntryIsTrapOrItsRulesWord := by
  intro s t hL h x
  obtain ⟨-, hpass⟩ := exec_generate_eq_next.mp h
  obtain ⟨hfrozen, hv, hcfg, -⟩ : t.stage = .frozen ∧ t.variant = .full ∧ t.cfg = s.cfg ∧ _ :=
    exec_decodePass_frame hpass
  have hslots : ∀ c ∈ slots s.cfg .full, slotHolds t c :=
    slotHolds_of_exec_decodePass (unclaimed_filledTable (s.setVariant .full)) (slotsApart_full hL) hpass
  rw [← hcfg] at hL hslots ⊢
  have hholds := holdsClaim_claimAt hL hv hslots x
  have hentry : entry t x.toNat = some (romWord t x.toNat) :=
    entry_eq_romWord (.inr hfrozen) (by rw [hv]; exact x.isLt)
  rw [hentry]
  generalize claimAt t.cfg x = k at hholds ⊢
  rcases k with _ | ⟨id, m⟩
  · obtain ⟨howner, htrap⟩ := hholds
    exact ⟨howner, congrArg some htrap⟩
  · obtain ⟨howner, hpack⟩ := hholds
    exact ⟨howner, _, hpack, rfl⟩

/-! ### The order of the visits (R142) -/

theorem le_of_cellAt {α : Type} {m : Cells α} {lo a : Nat} {v : α} (hm : risingFrom lo m = true)
    (h : cellAt m a = some v) : lo ≤ a := by
  by_contra hlt
  cases (cellAt_of_risingFrom hm (not_le.mp hlt)).symm.trans h

@[simp] theorem cellAt_cons_self {α : Type} (b : Nat) (u : α) (m : Cells α) : cellAt ((b, u) :: m) b = some u :=
  if_pos rfl

theorem cellAt_cons_of_ne {α : Type} {a b : Nat} (h : a ≠ b) (u : α) (m : Cells α) :
    cellAt ((b, u) :: m) a = cellAt m a :=
  if_neg h

/-- Rising maps with the same values are the same: both start at their least listed index. -/
theorem eq_of_cellAt_eq {α : Type} {m m' : Cells α} {lo lo' : Nat} (hm : risingFrom lo m = true)
    (hm' : risingFrom lo' m' = true) (h : ∀ a, cellAt m a = cellAt m' a) : m = m' := by
  induction m generalizing lo lo' m' with
  | nil =>
    cases m' with
    | nil => rfl
    | cons c' m' => simpa [cellAt] using h c'.1
  | cons c m ih =>
    cases m' with
    | nil => simpa [cellAt] using h c.1
    | cons c' m' =>
      obtain ⟨b, u⟩ := c
      obtain ⟨b', u'⟩ := c'
      simp only [risingFrom, Bool.and_eq_true, decide_eq_true_eq] at hm hm'
      have hhead : risingFrom b ((b, u) :: m) = true := by simp [risingFrom, hm.2]
      have hhead' : risingFrom b' ((b', u') :: m') = true := by simp [risingFrom, hm'.2]
      have hle := le_of_cellAt hhead ((h b').trans (cellAt_cons_self ..))
      have hle' := le_of_cellAt hhead' ((h b).symm.trans (cellAt_cons_self ..))
      obtain rfl : b = b' := by omega
      obtain rfl : u = u' := by simpa using h b
      rw [ih hm.2 hm'.2 fun a => ?_]
      by_cases ha : a = b
      · rw [ha, cellAt_of_risingFrom hm.2 (Nat.lt_succ_self b), cellAt_of_risingFrom hm'.2 (Nat.lt_succ_self b)]
      · simpa only [cellAt_cons_of_ne ha] using h a

/-- A table with an owner map is determined by its entries' owners and words. -/
theorem OwnedTable.eq_of_agreesAt {s t : State} (hs : OwnedTable s) (ht : OwnedTable t) (hcfg : t.cfg = s.cfg)
    (hv : t.variant = s.variant) (h : ∀ a, agreesAt s t a) : t.rom = s.rom ∧ t.owner = s.owner := by
  obtain ⟨hwf, ho, hclaim⟩ := hs
  obtain ⟨hwf', ho', hclaim'⟩ := ht
  constructor
  · have hread : readWord t.cfg.trapWord t.rom = readWord s.cfg.trapWord s.rom := funext fun a => (h a).2
    rw [← tableOfWords_tableWords hwf, ← tableOfWords_tableWords hwf', tableWords, hread, hcfg, hv]
    rfl
  · obtain ⟨m, hm⟩ := Option.isSome_iff_exists.mp ho
    obtain ⟨m', hm'⟩ := Option.isSome_iff_exists.mp ho'
    have hrise := (ownersWf_iff.mp ((claimedOrTrap_iff_of_owner_some hm).mp hclaim).1).1
    have hrise' := (ownersWf_iff.mp ((claimedOrTrap_iff_of_owner_some hm').mp hclaim').1).1
    have howner (a : Nat) : cellAt m' a = cellAt m a := by simpa [ownerOf, hm, hm'] using (h a).1
    rw [hm, hm', eq_of_cellAt_eq hrise' hrise howner]

/-- Two passes from one table over the same distinct unclaimed slots end in the same table: at the slots by what they
hold, elsewhere because neither writes there. -/
theorem agreesAt_of_visitAll_perm {s t u : State} {cs ds : List (Combo × Nat)} (hs : OwnedTable s)
    (hcs : SlotsApart s.variant cs) (hfree : ∀ c ∈ cs, unclaimedSlot s c) (hperm : ds.Perm cs)
    (ht : visitAll cs s = .next t) (hu : visitAll ds s = .next u) (a : Nat) : agreesAt t u a := by
  obtain ⟨hcfgt, hvt, -⟩ := visitAll_frame ht
  obtain ⟨hcfgu, hvu, -⟩ := visitAll_frame hu
  by_cases hin : ∃ c ∈ cs, inSlot s.variant c a
  · obtain ⟨c, hc, ha⟩ := hin
    have hfree' : ∀ d ∈ ds, unclaimedSlot s d := fun d hd => hfree d (hperm.mem_iff.mp hd)
    exact agreesAt_of_slotHolds (hcfgu.trans hcfgt.symm) (hvu.trans hvt.symm)
      (slotHolds_of_visitAll hs hcs hfree ht c hc)
      (slotHolds_of_visitAll hs (hcs.perm hperm) hfree' hu c (hperm.mem_iff.mpr hc)) (hvt ▸ ha)
  · have hout : ∀ c ∈ cs, ¬inSlot s.variant c a := fun c hc ha => hin ⟨c, hc, ha⟩
    have htable := agreesAt_of_visitAll ht hout
    have hutable := agreesAt_of_visitAll hu fun d hd => hout d (hperm.mem_iff.mp hd)
    exact ⟨hutable.1.trans htable.1.symm, hutable.2.trans htable.2.symm⟩

/-- Settles O25: the pass in the other order completes, for the same words pack, and it ends in the same table. -/
theorem enumerationOrderIsUnobservable : Obligations.EnumerationOrderIsUnobservable := by
  intro s t order hL hv hstage hrom howner hperm ht
  have hs : Unclaimed s := ⟨hstage, hrom, howner⟩
  have hcs : SlotsApart s.variant (slots s.cfg .full) := hv ▸ slotsApart_full hL
  have hsize : ∀ c ∈ slots s.cfg .full, c.2 < s.variant.size := fun c hc => hv ▸ slot_lt_size hc
  obtain ⟨u, hu⟩ := visitAll_completes hstage (hcs.perm hperm) (fun c _ => hs.unclaimedSlot c)
    fun c hc => slotPacks_of_visitAll ht c (hperm.mem_iff.mp hc)
  have hagree := agreesAt_of_visitAll_perm hs.ownedTable hcs (fun c _ => hs.unclaimedSlot c) hperm ht hu
  obtain ⟨hcfgt, hvt, hstaget, hcwt, hseqt, hresultt, himaget, hinputst⟩ := visitAll_frame ht
  obtain ⟨hcfgu, hvu, hstageu, hcwu, hsequ, hresultu, himageu, hinputsu⟩ := visitAll_frame hu
  obtain ⟨hromeq, howneq⟩ := (hs.ownedTable.visitAll hsize ht).eq_of_agreesAt
    (hs.ownedTable.visitAll (fun c hc => hsize c (hperm.mem_iff.mp hc)) hu)
    (hcfgu.trans hcfgt.symm) (hvu.trans hvt.symm) hagree
  have hut : u = t := by
    cases t
    cases u
    simp_all only
  rw [hu, hut]

end Sys2Proof.Machine
end

section
/-! PROOFS. O45: a frozen table. -/

namespace Sys2Proof.Machine

/-! ### No row changes a frozen table (R144) -/

/-- On a frozen table a row that completes leaves the parameters, the variant, the stage, the table and its owner
map. -/
theorem exec_frame_of_frozen {i : Instr} {s t : State} (hs : s.stage = .frozen) (h : exec i s = .next t) :
    (t.cfg = s.cfg ∧ t.variant = s.variant ∧ t.stage = s.stage ∧ t.rom = s.rom) ∧ t.owner = s.owner := by
  have hpresent {p : Bit} {j : InstrBits} {f : Bool} (hp : present p j f s = .next t) :
      (t.cfg = s.cfg ∧ t.variant = s.variant ∧ t.stage = s.stage ∧ t.rom = s.rom) ∧ t.owner = s.owner := by
    obtain ⟨hcfg, hv, hstage, hrom, howner, -⟩ := present_frame hp
    exact ⟨⟨hcfg, hv, hstage, hrom⟩, howner⟩
  cases i with
  | pack | extract | schemaValid | indexA | indexB | split | indexMini | pairPack | pairUnpack =>
    obtain ⟨r, rfl⟩ := exec_pureRow_eq_next rfl h
    exact ⟨⟨rfl, rfl, rfl, rfl⟩, rfl⟩
  | alloc v => rw [exec_alloc_stageViolation (by simp [hs])] at h; cases h
  | fill => rw [exec_fill_stageViolation (by simp [hs])] at h; cases h
  | write1 => rw [exec_write1_stageViolation (by simp [hs])] at h; cases h
  | write2 => rw [exec_write2_stageViolation (by simp [hs])] at h; cases h
  | decodePass =>
    obtain ⟨-, hfilled, -⟩ := exec_decodePass_eq_next.mp h
    cases hs.symm.trans hfilled
  | generate =>
    obtain ⟨hstart, -⟩ := exec_generate_eq_next.mp h
    cases hs.symm.trans hstart
  | lookup | lookupMini =>
    obtain ⟨-, -, rfl⟩ := lookupAt_eq_next.mp h
    exact ⟨⟨rfl, rfl, rfl, rfl⟩, rfl⟩
  | serialize =>
    obtain ⟨-, rfl⟩ := serializeTable_eq_next.mp h
    exact ⟨⟨rfl, rfl, rfl, rfl⟩, rfl⟩
  | oneWord | twoWordFirst | twoWordSecond => exact hpresent h
  | trap | trapMini | ldG0 | ldG0Ref | escRegB | escRegAA | escRegAB | aGroup7 =>
    exact hpresent (presentIn_eq_next.mp h).2

/-- On a frozen table a step leaves the variant, the stage and the table, and the owner map unless it is a CPU reset
(R34). -/
theorem step_frame_of_frozen {s t : State} (hs : s.stage = .frozen) (h : step s = .next t) :
    (t.cfg = s.cfg ∧ t.variant = s.variant ∧ t.stage = s.stage ∧ t.rom = s.rom) ∧
      (t.owner = s.owner ∨ (t.owner = none ∧ ∃ rest, s.inputs = .cpuReset :: rest)) := by
  rcases step_cases h with ⟨rest, hin, rfl⟩ | ⟨bytes, rest, i, -, -, hexec⟩ | ⟨-, hexec⟩ |
    ⟨v, big, bytes, rest, -, -, hload⟩ | ⟨-, -, rfl⟩
  · rw [cpuReset_eq]
    exact ⟨⟨rfl, rfl, rfl, rfl⟩, .inr ⟨if_pos hs, rest, hin⟩⟩
  · exact (exec_frame_of_frozen (s := s.setInputs rest) hs hexec).imp_right .inl
  · exact (exec_frame_of_frozen hs hexec).imp_right .inl
  · cases hs.symm.trans (loadImage_eq_next.mp hload).1
  · exact ⟨⟨rfl, rfl, rfl, rfl⟩, .inl rfl⟩

/-! ### DECODE_PASS outside its stage (R190; log 21) -/

section
variable {s : State} (hs : s.stage ≠ .filled)
include hs

/-- Where the words pack, a visit outside the stage Filled writes nothing or raises the fault of its write. -/
theorem visit_of_not_filled {c : Combo × Nat} (hpacks : slotPacks s.cfg s.variant c) :
    visit s c = .next s ∨
      ∃ op, (op = .write1 ∨ op = .write2) ∧ visit s c = .fault (.stageViolation op s.stage) := by
  rcases visit_eq_of_slotPacks hpacks with h | ⟨w, id, h⟩ | ⟨w0, w1, id, h⟩
  · exact .inl h
  · exact .inr ⟨.write1, .inl rfl, h.trans (writeOne_stageViolation hs ..)⟩
  · exact .inr ⟨.write2, .inr rfl, h.trans (writeTwo_stageViolation hs ..)⟩

theorem visitAll_of_not_filled {cs : List (Combo × Nat)} (hpacks : ∀ c ∈ cs, slotPacks s.cfg s.variant c) :
    visitAll cs s = .next s ∨
      ∃ op, (op = .write1 ∨ op = .write2) ∧ visitAll cs s = .fault (.stageViolation op s.stage) := by
  induction cs with
  | nil => exact .inl rfl
  | cons c cs ih =>
    obtain ⟨hpackc, hpackcs⟩ := List.forall_mem_cons.mp hpacks
    rcases visit_of_not_filled hs hpackc with h | ⟨op, hop, h⟩
    · simp only [visitAll, h, andThen_next]
      exact ih hpackcs
    · exact .inr ⟨op, hop, by simp only [visitAll, h, andThen_fault]⟩

/-- Where every word packs, DECODE_PASS on a table that is not filled raises the stage fault of its first write, or its
own where it writes nothing. -/
theorem exec_decodePass_stageViolation (hs0 : s.stage ≠ .unallocated) (hS : schemaOk s.cfg.schema = true)
    (hpacks : contentPacks s.cfg s.variant = true) :
    ∃ op, (op = .write1 ∨ op = .write2 ∨ op = .decodePass) ∧
      exec .decodePass s = .fault (.stageViolation op s.stage) := by
  obtain ⟨hrange, hslots⟩ := contentPacks_iff.mp hpacks
  have hdecode : exec .decodePass s = done (andThen (visitAll (slots s.cfg s.variant) s) fun t =>
      if t.stage = .filled then .next (t.setStage .frozen) else .fault (.stageViolation .decodePass t.stage)) := by
    simp only [exec, execDecodePass, decodeTable, schemaClause_eq_none_iff.mpr hS, if_neg hs0, hrange]
  rcases visitAll_of_not_filled hs hslots with h | ⟨op, hop, h⟩
  · exact ⟨.decodePass, .inr (.inr rfl), by rw [hdecode, h, andThen_next, if_neg hs, done_fault]⟩
  · exact ⟨op, hop.imp_right .inl, by rw [hdecode, h, andThen_fault, done_fault]⟩

end

/-- GENERATE outside the start stops at its ALLOC, once the schema is checked (R143). -/
theorem exec_generate_stageViolation {s : State} (hs : s.stage ≠ .unallocated) (hS : schemaOk s.cfg.schema = true)
    (v : Variant) : exec (.generate v) s = .fault (.stageViolation .alloc s.stage) := by
  simp only [exec, execGenerate, generateTable, schemaClause_eq_none_iff.mpr hS, allocTable_stageViolation hs,
    andThen_fault, done_fault]

/-- Settles O45: no step writes a frozen table, and each row of the construction meets the stage it does not have. -/
theorem frozenTableIsImmutable : Obligations.FrozenTableIsImmutable := by
  intro s hs
  have hstart : s.stage ≠ .unallocated := by simp [hs]
  have hfilled : s.stage ≠ .filled := by simp [hs]
  have hallocated : s.stage ≠ .allocated := by simp [hs]
  refine ⟨fun t h => ?_, fun v => hs ▸ exec_alloc_stageViolation hstart v, hs ▸ exec_fill_stageViolation hallocated,
    fun x w id => hs ▸ exec_write1_stageViolation hfilled x w id,
    fun x w0 w1 id => hs ▸ exec_write2_stageViolation hfilled x w0 w1 id, fun hS => ⟨fun v => ?_, fun f n hrange => ?_,
    fun hpacks => ?_⟩⟩
  · obtain ⟨⟨hcfg, hv, hstage, hrom⟩, howner⟩ := step_frame_of_frozen hs h
    refine ⟨hstage.trans hs, hv, entry_congr hcfg hv hstage hrom, howner.imp_left fun howner a => ?_⟩
    simp only [ownerOf, howner]
  · exact hs ▸ exec_generate_stageViolation hstart hS v
  · simp only [exec, execDecodePass, decodeTable_packRange hS hstart rfl hrange, done_fault]
  · exact hs ▸ exec_decodePass_stageViolation hfilled hstart hS hpacks

end Sys2Proof.Machine
end

section
/-! PROOFS. O24, O26 and O27: what the constraints on the content (R157 to R161, R170) give the rule taken and the
generated table. -/

namespace Sys2Proof.Machine

/-! ### Escape precedence (R161) -/

/-- The order R161 asks of two forms, the first of higher priority: not an alternate form after a generic one. -/
def formsInOrder (f g : RuleForm) : Prop := f = .generic → g ≠ .alternate

theorem alternatesFirst_iff_pairwise {fs : List RuleForm} :
    alternatesFirst fs = true ↔ fs.Pairwise formsInOrder := by
  induction fs with
  | nil => simp [alternatesFirst]
  | cons f fs ih =>
    rw [List.pairwise_cons, ← ih]
    cases f with
    | generic =>
      have htail : (∀ g ∈ fs, g ≠ .alternate) → alternatesFirst fs = true := fun h =>
        ih.mpr (List.pairwise_of_forall_mem_list fun _ _ g hg _ => h g hg)
      simpa [alternatesFirst, formsInOrder] using htail
    | alternate | plain => simp [alternatesFirst, formsInOrder]

/-- Escape precedence at a combination is an order of every two rules that match it. -/
theorem escapeFirst_iff_pairwise {cfg : Params} {rs : List Rule} {c : Combo} :
    escapeFirst cfg rs c = true ↔
      (rs.filter fun r => (ruleEmission cfg c r).isSome).Pairwise fun g alt => formsInOrder g.form alt.form := by
  rw [escapeFirst, matchingForms, alternatesFirst_iff_pairwise, List.pairwise_map]

/-- The rule taken is the first of those that match. -/
theorem firstMatch_of_filter_eq_cons {cfg : Params} {c : Combo} {rs after : List Rule} {r : Rule}
    (h : rs.filter (fun r => (ruleEmission cfg c r).isSome) = r :: after) :
    ∃ e, ruleEmission cfg c r = some e ∧ firstMatch cfg c rs = some (r.id, e) := by
  obtain ⟨before, rest, hrs, hbefore, hr, -⟩ := List.filter_eq_cons_iff.mp h
  obtain ⟨e, he⟩ := Option.isSome_iff_exists.mp hr
  have hnone : ∀ x ∈ before, ruleEmission cfg c x = none := fun x hx => by simpa using hbefore x hx
  exact ⟨e, he, ((firstMatchingRuleIsTaken cfg c rs).1 r.id e).mpr ⟨before, r, rest, hrs, rfl, he, hnone⟩⟩

/-- Settles O24: the alternate form is among the rules that match, so none of them before it is generic, the first
included. -/
theorem escapeFormsPrecedeTheGenericForm : Obligations.EscapeFormsPrecedeTheGenericForm := by
  intro cfg c rs alt hesc halt hform hmatch
  have hmem : alt ∈ rs.filter fun r => (ruleEmission cfg c r).isSome := List.mem_filter.mpr ⟨halt, hmatch⟩
  obtain ⟨r, after, hfilter⟩ := List.exists_cons_of_ne_nil (List.ne_nil_of_mem hmem)
  obtain ⟨e, he, hfirst⟩ := firstMatch_of_filter_eq_cons hfilter
  have hr : r ∈ rs := (List.mem_filter.mp (hfilter ▸ List.mem_cons_self ..)).1
  refine ⟨r, hr, e, fun hgeneric => ?_, he, hfirst⟩
  rw [escapeFirst_iff_pairwise, hfilter, List.pairwise_cons] at hesc
  rw [hfilter, List.mem_cons] at hmem
  rcases hmem with rfl | hmem
  · cases hform.symm.trans hgeneric
  · exact hesc.1 alt hmem hgeneric hform

/-! ### The constraints on the parameters, spelled out (R7, R155) -/

theorem paramsOk_iff {cfg : Params} :
    paramsOk cfg = true ↔ schemaOk cfg.schema = true ∧ registerWidthsOk cfg = true ∧ layoutsOk cfg = true ∧
      codesOk cfg = true ∧ trapWordOk cfg = true ∧ 5 ≤ cfg.pairStride := by
  simp [paramsOk, and_assoc]

theorem trapWordOk_iff {cfg : Params} :
    trapWordOk cfg = true ↔
      extract cfg.schema cfg.trapWord .CRST = 1 ∧ extract cfg.schema cfg.trapWord .MOE = 0 ∧
      extract cfg.schema cfg.trapWord .MWE = 0 ∧ extract cfg.schema cfg.trapWord .RI = 7 ∧
      extract cfg.schema cfg.trapWord .RL = 7 ∧ extract cfg.schema cfg.trapWord .IMM = cfg.immM2.toNat ∧
      extract cfg.schema cfg.trapWord .OP = cfg.opAdd.toNat ∧ extract cfg.schema cfg.trapWord .ALUOE = 1 := by
  simp [trapWordOk, and_assoc]

/-! ### The slots are the phase-0 addresses (R87, R140) -/

theorem length_combosOf (f : Fmt) : (combosOf f).length = 1024 := by
  simp only [combosOf, List.length_flatMap, List.length_map]
  rfl

theorem length_slots {cfg : Params} (hL : layoutsOk cfg = true) (v : Variant) :
    (slots cfg v).length = v.half := by
  cases v with
  | full =>
    rw [slots, List.length_map, allCombos, List.length_append, length_combosOf, length_combosOf]; rfl
  | mini =>
    obtain ⟨-, hvalid⟩ := Bool.and_eq_true_iff.mp hL
    have hmini : cfg.layoutMini.length = 256 := of_decide_eq_true (Bool.and_eq_true_iff.mp hvalid).2
    rw [slots, List.length_map, hmini]; rfl

/-- As many distinct slots as there are phase-0 addresses leave none of these out. -/
theorem exists_slot_of_lt_half {cfg : Params} (hL : layoutsOk cfg = true) {v : Variant} {a : Nat} (ha : a < v.half) :
    ∃ c ∈ slots cfg v, c.2 = a := by
  obtain ⟨hnodup, hlt⟩ := slotsApart_of_layoutsOk hL v
  have hsub : (slots cfg v).map (·.2) ⊆ List.range v.half := fun x hx => by
    obtain ⟨c, hc, rfl⟩ := List.mem_map.mp hx
    exact List.mem_range.mpr (hlt c hc)
  have hperm := (hnodup.subperm hsub).perm_of_length_le (by simp [length_slots hL v])
  exact List.mem_map.mp (hperm.mem_iff.mpr (List.mem_range.mpr ha))

/-- After GENERATE every slot holds what the first matching rule emits. -/
theorem slotHolds_of_exec_generate {v : Variant} {s t : State} (hL : layoutsOk s.cfg = true)
    (h : exec (.generate v) s = .next t) :
    t.cfg = s.cfg ∧ t.variant = v ∧ ∀ c ∈ slots s.cfg v, slotHolds t c := by
  obtain ⟨-, hpass⟩ := exec_generate_eq_next.mp h
  obtain ⟨-, hv, hcfg, -⟩ := exec_decodePass_frame hpass
  exact ⟨hcfg, hv, slotHolds_of_exec_decodePass (unclaimed_filledTable (s.setVariant v))
    (slotsApart_of_layoutsOk hL v) hpass⟩

/-! ### The words of a slot (R147, R158, R159, R167) -/

theorem crst_of_packsCrst {cfg : Params} {m : FieldMap} {w : Word} {n : Nat} (hpack : pack cfg.schema m = .ok w)
    (h : packsCrst cfg m n = true) : extract cfg.schema w .CRST = n := by
  simpa [packsCrst, hpack] using h

theorem ne_trapWord_of_packsTrap {cfg : Params} {m : FieldMap} {w : Word} (hpack : pack cfg.schema m = .ok w)
    (h : packsTrap cfg m = false) : w ≠ cfg.trapWord := by
  simpa [packsTrap, hpack] using h

theorem emissionForm_of_contentForms {cfg : Params} {v : Variant} (h : contentForms cfg v = true) {c : Combo × Nat}
    (hc : c ∈ slots cfg v) {id : RuleId} {e : Emission} (he : firstMatch cfg c.1 (cfg.rules v) = some (id, e)) :
    emissionForm cfg e = true := by
  have hform := List.all_eq_true.mp h c hc
  rwa [he] at hform

/-- The three parts of R167 at one pair of phase slots. -/
def slotWellFormed (s : State) (a : Nat) : Prop :=
  crstOf s (a + s.variant.half) = 1 ∧
    (crstOf s a = 0 → (ownerOf s (a + s.variant.half)).isSome = true) ∧
    ((ownerOf s a).isSome = true → ownerOf s (a + s.variant.half) = none → crstOf s a = 1)

theorem tableWellFormed_iff {s : State} :
    tableWellFormed s ↔ ∀ a, a < s.variant.half → slotWellFormed s a := Iff.rfl

section
variable {s : State} {c : Combo × Nat} {id : RuleId}

/-- A slot that ends the instruction at phase 0 and has the trap word at phase 1, which ends it too (R155, R158). -/
theorem slotWellFormed_of_crst {a : Nat} (htrap : extract s.cfg.schema s.cfg.trapWord .CRST = 1)
    (hfirst : crstOf s a = 1) (hsecond : romWord s (a + s.variant.half) = s.cfg.trapWord) : slotWellFormed s a :=
  ⟨by rw [crstOf, hsecond, htrap], by simp [hfirst], fun _ _ => hfirst⟩

theorem slotWellFormed_of_unclaimed (htrap : extract s.cfg.schema s.cfg.trapWord .CRST = 1) (hslot : slotHolds s c)
    (hmatch : firstMatch s.cfg c.1 (s.cfg.rules s.variant) = none) : slotWellFormed s c.2 := by
  rw [slotHolds_iff, hmatch] at hslot
  obtain ⟨⟨-, hword⟩, -, hsecond⟩ := hslot
  exact slotWellFormed_of_crst htrap (by rw [crstOf, hword, htrap]) hsecond

theorem slotWellFormed_of_one {m : FieldMap} (htrap : extract s.cfg.schema s.cfg.trapWord .CRST = 1)
    (hform : emissionForm s.cfg (.one m) = true) (hslot : slotHolds s c)
    (hmatch : firstMatch s.cfg c.1 (s.cfg.rules s.variant) = some (id, .one m)) : slotWellFormed s c.2 := by
  rw [slotHolds_iff, hmatch] at hslot
  obtain ⟨⟨-, hpack⟩, -, hsecond⟩ := hslot
  exact slotWellFormed_of_crst htrap (crst_of_packsCrst hpack hform) hsecond

/-- Both words of a two-phase instruction are in its slot (R147, R159). -/
theorem twoWords_of_slotHolds {m0 m1 : FieldMap} (hform : emissionForm s.cfg (.two m0 m1) = true)
    (hslot : slotHolds s c) (hmatch : firstMatch s.cfg c.1 (s.cfg.rules s.variant) = some (id, .two m0 m1)) :
    crstOf s c.2 = 0 ∧ crstOf s (c.2 + s.variant.half) = 1 ∧
      romWord s c.2 ≠ s.cfg.trapWord ∧ romWord s (c.2 + s.variant.half) ≠ s.cfg.trapWord ∧
      ownerOf s c.2 = some id ∧ ownerOf s (c.2 + s.variant.half) = some id := by
  rw [slotHolds_iff, hmatch] at hslot
  obtain ⟨⟨howner0, hpack0⟩, howner1, hpack1⟩ := hslot
  simp only [emissionForm, Bool.and_eq_true, Bool.not_eq_true'] at hform
  obtain ⟨⟨⟨hcrst0, hcrst1⟩, htrap0⟩, htrap1⟩ := hform
  exact ⟨crst_of_packsCrst hpack0 hcrst0, crst_of_packsCrst hpack1 hcrst1, ne_trapWord_of_packsTrap hpack0 htrap0,
    ne_trapWord_of_packsTrap hpack1 htrap1, howner0, howner1⟩

theorem slotWellFormed_of_two {m0 m1 : FieldMap} (hform : emissionForm s.cfg (.two m0 m1) = true)
    (hslot : slotHolds s c) (hmatch : firstMatch s.cfg c.1 (s.cfg.rules s.variant) = some (id, .two m0 m1)) :
    slotWellFormed s c.2 := by
  obtain ⟨-, hsecond, -, -, -, howner⟩ := twoWords_of_slotHolds hform hslot hmatch
  exact ⟨hsecond, fun _ => by simp [howner], fun _ hnone => by simp [howner] at hnone⟩

end

/-- Settles O26: every phase-0 address is that of a slot, which holds nothing, one word or two of the forms. -/
theorem wellFormedContentGivesAWellFormedTable : Obligations.WellFormedContentGivesAWellFormedTable := by
  intro v s t hparams hforms h
  obtain ⟨-, -, hL, -, htrapOk, -⟩ := paramsOk_iff.mp hparams
  obtain ⟨hcfg, rfl, hslots⟩ := slotHolds_of_exec_generate hL h
  rw [← hcfg] at hL htrapOk hforms hslots ⊢
  obtain ⟨htrap, -⟩ := trapWordOk_iff.mp htrapOk
  refine ⟨tableWellFormed_iff.mpr fun a ha => ?_, fun c hc id m0 m1 hmatch =>
    twoWords_of_slotHolds (emissionForm_of_contentForms hforms hc hmatch) (hslots c hc) hmatch⟩
  obtain ⟨c, hc, rfl⟩ := exists_slot_of_lt_half hL ha
  rcases hmatch : firstMatch t.cfg c.1 (t.cfg.rules t.variant) with _ | ⟨id, m | ⟨m0, m1⟩⟩
  · exact slotWellFormed_of_unclaimed htrap (hslots c hc) hmatch
  · exact slotWellFormed_of_one htrap (emissionForm_of_contentForms hforms hc hmatch) (hslots c hc) hmatch
  · exact slotWellFormed_of_two (emissionForm_of_contentForms hforms hc hmatch) (hslots c hc) hmatch

/-! ### The load of group 0 (R157) -/

theorem loadOk_iff {cfg : Params} {rs : List Rule} :
    loadOk cfg rs = true ↔ ∃ id e, firstMatch cfg ⟨.A, 0, 0, 0, 0⟩ rs = some (id, e) ∧
      fieldValue (firstMap e) .MOE = 1 ∧ fieldValue (firstMap e) .RIWE = 1 ∧
      fieldValue (firstMap e) .IMM = immOff7 := by
  unfold loadOk
  rcases firstMatch cfg ⟨.A, 0, 0, 0, 0⟩ rs with _ | ⟨id, e⟩ <;> simp [and_assoc]

/-- Settles O27: the entry is the word packed from the claiming rule's load, and the trap word has MOE = 0. -/
theorem groupZeroEntryIsTheLoad : Obligations.GroupZeroEntryIsTheLoad := by
  intro s t hparams hload h
  obtain ⟨hS, -, hL, -, htrapOk, -⟩ := paramsOk_iff.mp hparams
  obtain ⟨hcfg, hv, hslots⟩ := slotHolds_of_exec_generate hL h
  obtain ⟨-, htrapMoe, -⟩ := trapWordOk_iff.mp htrapOk
  obtain ⟨id, e, hmatch, hmoe, hriwe, himm⟩ := loadOk_iff.mp hload
  obtain ⟨hfirst, -⟩ := slotHolds_iff.mp (hslots _ (mem_slots_full s.cfg ⟨.A, 0, 0, 0, 0⟩))
  rw [hcfg, hv, hmatch] at hfirst
  obtain ⟨-, hpack⟩ : _ ∧ pack t.cfg.schema (firstMap e) =
    .ok (romWord t (indexA s.cfg.layoutFull 0 0 0 0 0).toNat) := hfirst
  rw [hcfg] at hpack
  have hword := extract_of_pack hS hpack
  refine ⟨(hword .MOE).trans hmoe, (hword .RIWE).trans hriwe, (hword .IMM).trans himm, fun htrap => ?_⟩
  have hzero : fieldValue (firstMap e) .MOE = 0 := by rw [← hword, htrap, htrapMoe]
  cases hzero.symm.trans hmoe

end Sys2Proof.Machine
end

section
/-! PROOFS. O39, O40, O42 and O57: the answers of the entry rows and the escape rows, what the trap word says to the
CPU, and words written out from the table. -/

namespace Sys2Proof.Machine

/-! ### The word and the judgement that a row answers (log 17) -/

theorem portIndex_zero (v : Variant) (n : Nat) : portIndex v 0 n = n := by simp [portIndex]

theorem portIndex_one (v : Variant) (n : Nat) : portIndex v 1 n = n + v.half := by simp [portIndex, Nat.add_comm]

theorem portIndex_lt_size {v : Variant} (p : Bit) {n : Nat} (hn : n < v.half) : portIndex v p n < v.size := by
  rcases (by decide : ∀ p : Bit, p = 0 ∨ p = 1) p with rfl | rfl
  · rw [portIndex_zero]; exact hn.trans (half_lt_size v)
  · rw [portIndex_one]; exact add_half_lt_size hn

section
variable {s t : State} {p : Bit} {i : InstrBits} {f : Bool}

/-- Presenting an address answers the word of its entry, trap word or not, and what the row says of its form. -/
theorem result_of_present (h : present p i f s = .next t) :
    t.result = .entry (romWord s (portIndex s.variant p i.toNat)) f := by
  obtain ⟨hs, hi, hnext, -⟩ := present_cases h
  rw [present_of_entry hs hi hnext (entry_eq_romWord (.inr hs) (portIndex_lt_size p hi))] at h
  split at h
  · next htrap => cases h; rw [htrap]; rfl
  · rcases sequence_eq_next.mp h with ⟨-, rfl⟩ | ⟨-, -, rfl⟩ <;> rfl

variable {w : Word} {ok : Bool} (hres : t.result = .entry w ok)
include hres

theorem answer_of_present (h : present p i f s = .next t) :
    w = romWord s (portIndex s.variant p i.toNat) ∧ ok = f := by
  simpa using hres.symm.trans (result_of_present h)

theorem answer_of_presentIn {v : Variant} (h : presentIn v p i f s = .next t) :
    w = romWord s (portIndex v p i.toNat) ∧ ok = f := by
  obtain ⟨rfl, hpresent⟩ := presentIn_eq_next.mp h
  exact answer_of_present hres hpresent

theorem answer_of_presentAddr {x : BitVec 12} (h : presentAddr x f s = .next t) :
    w = romWord s x.toNat ∧ ok = f := by
  have hanswer := answer_of_presentIn hres h
  rwa [portIndex_full] at hanswer

end

/-! ### The forms of an entry (R155, R157 to R159) -/

theorem holdsTrap_iff {s : State} {a : Nat} : holdsTrap s a = true ↔ romWord s a = s.cfg.trapWord :=
  decide_eq_true_iff

theorem lineOn_iff {S : Schema} {w : Word} {f : Field} : lineOn S w f = true ↔ extract S w f = 1 :=
  decide_eq_true_iff

theorem holdsLoad_iff {s : State} {a : Nat} :
    holdsLoad s a = true ↔ extract s.cfg.schema (romWord s a) .MOE = 1 ∧
      extract s.cfg.schema (romWord s a) .RIWE = 1 ∧ extract s.cfg.schema (romWord s a) .IMM = immOff7 := by
  simp [holdsLoad, lineOn_iff, and_assoc]

theorem holdsFirst_iff {s : State} {a : Nat} :
    holdsFirst s a = true ↔ extract s.cfg.schema (romWord s a) .CRST = 0 ∧ romWord s a ≠ s.cfg.trapWord := by
  simp [holdsFirst, holdsTrap]

theorem holdsSecond_iff {s : State} {a : Nat} :
    holdsSecond s a = true ↔ extract s.cfg.schema (romWord s a) .CRST = 1 ∧ romWord s a ≠ s.cfg.trapWord := by
  simp [holdsSecond, holdsTrap, lineOn_iff]

/-- The second part of the one-word form is about the entry of the other phase, which exists (R158). -/
theorem holdsOne_iff {s : State} {a : Nat} (hs : s.stage = .frozen) (ha : a < s.variant.half) :
    holdsOne s a = true ↔ extract s.cfg.schema (romWord s a) .CRST = 1 ∧
      entry s (a + s.variant.half) = some s.cfg.trapWord := by
  rw [entry_eq_romWord (.inr hs) (add_half_lt_size ha)]
  simp [holdsOne, lineOn_iff, holdsTrap_iff]

/-- Settles O39: a row answers the word of its own entry, of which it has judged its form. -/
theorem entryRowAnswersTellTheForm : Obligations.EntryRowAnswersTellTheForm := by
  intro s t w ok hres
  refine ⟨fun p i h => ?_, fun p i h => ?_, fun p a b q h => ?_, fun h => ?_, fun a b q h => ?_, fun i h => ?_,
    fun i h => ?_, fun i h => ?_⟩
  · obtain ⟨rfl, rfl⟩ := answer_of_presentIn hres h
    exact holdsTrap_iff
  · obtain ⟨rfl, rfl⟩ := answer_of_presentIn hres h
    rw [BitVec.toNat_setWidth_of_le (by decide)]
    exact holdsTrap_iff
  · obtain ⟨rfl, rfl⟩ := answer_of_presentAddr hres h
    exact holdsTrap_iff
  · obtain ⟨rfl, rfl⟩ := answer_of_presentAddr hres h
    exact holdsLoad_iff
  · obtain ⟨rfl, rfl⟩ := answer_of_presentAddr hres h
    exact holdsLoad_iff
  · obtain ⟨hs, hi, -⟩ := present_cases h
    obtain ⟨rfl, rfl⟩ := answer_of_present hres h
    rw [portIndex_zero]
    exact holdsOne_iff hs hi
  · obtain ⟨rfl, rfl⟩ := answer_of_present hres h
    rw [portIndex_zero]
    exact holdsFirst_iff
  · obtain ⟨rfl, rfl⟩ := answer_of_present hres h
    exact holdsSecond_iff

/-! ### The escape rows (R161) -/

/-- A property of every two elements in their order is one of every decomposition of the list that shows two. -/
theorem pairwise_iff_forall_append {α : Type} {R : α → α → Prop} {l : List α} :
    l.Pairwise R ↔ ∀ before mid after x y, l = before ++ x :: mid ++ y :: after → R x y := by
  constructor
  · rintro h before mid after x y rfl
    exact (List.pairwise_append.mp h).2.2 x (by simp) y (by simp)
  · intro h
    induction l with
    | nil => exact .nil
    | cons x l ih =>
      refine List.pairwise_cons.mpr ⟨fun y hy => ?_, ih fun before mid after y z hl => ?_⟩
      · obtain ⟨mid, after, rfl⟩ := List.append_of_mem hy
        exact h [] mid after x y rfl
      · exact h (x :: before) mid after y z (by rw [hl]; rfl)

theorem holdsEscape_iff {s : State} {x : BitVec 12} :
    holdsEscape s x = true ↔ ∀ before mid after g alt,
      (s.cfg.rules .full).filter (fun r => (ruleEmission s.cfg (split s.cfg.layoutFull x).combo r).isSome) =
        before ++ g :: mid ++ alt :: after →
      g.form = .generic → alt.form ≠ .alternate := by
  rw [holdsEscape, escapeFirst_iff_pairwise, pairwise_iff_forall_append]
  rfl

/-- Settles O40: an escape row answers what it has judged of the combination of its own address. -/
theorem escapeRowAnswersTellThePrecedence : Obligations.EscapeRowAnswersTellThePrecedence := by
  intro s t w ok x i hres hx hrow h
  rw [← holdsEscape_iff]
  rcases hrow with ⟨f, u, v, e, q, rfl⟩ | ⟨g, e, b, q, rfl⟩ | ⟨e, sub, b, q, rfl⟩
  · obtain rfl : x = escRegBAddr f u v e q := eq_of_setWidth_eq hx
    rw [(answer_of_presentAddr hres h).2]
  · obtain rfl : x = escRegAAAddr g e b q := eq_of_setWidth_eq hx
    rw [(answer_of_presentAddr hres h).2]
  · obtain rfl : x = escRegABAddr e sub b q := eq_of_setWidth_eq hx
    rw [(answer_of_presentAddr hres h).2]

/-! ### What the trap word says to the CPU (R155, R156) -/

theorem codesOk_iff {cfg : Params} :
    codesOk cfg = true ↔ cfg.opAdd.toNat < 2 ^ widthIn cfg.schema .OP ∧
      cfg.immM2.toNat < 2 ^ widthIn cfg.schema .IMM ∧ cfg.immM2.toNat ≠ immOff7 := by
  simp [codesOk, and_assoc]

/-- The code of -2 is not that of the offset (R68). -/
theorem secondOperand_eq_minus2 {cfg : Params} {w : Word} (hne : cfg.immM2.toNat ≠ immOff7)
    (himm : extract cfg.schema w .IMM = cfg.immM2.toNat) : secondOperand cfg w = .minus2 := by
  rw [secondOperand, himm, if_neg hne, if_pos rfl]

theorem gated_of_lineOn {S : Schema} {w : Word} {enable index : Field} {n : Nat} (henable : extract S w enable = 1)
    (hindex : extract S w index = n) : gated S w enable index = some n := by
  rw [gated, if_pos (lineOn_iff.mpr henable), hindex]

/-- Settles O42: the eight fields of R155 with the two enables are the lines of `PC = PC - 2`. -/
theorem trapWordMovesThePcBackByTwo : Obligations.TrapWordMovesThePcBackByTwo := by
  intro cfg hparams hrloe hriwe
  obtain ⟨-, -, -, hcodes, htrapOk, -⟩ := paramsOk_iff.mp hparams
  obtain ⟨-, -, hne⟩ := codesOk_iff.mp hcodes
  obtain ⟨hcrst, hmoe, hmwe, hri, hrl, himm, hop, haluoe⟩ := trapWordOk_iff.mp htrapOk
  have hleft : (controlLines cfg cfg.trapWord).left = some pcCode := gated_of_lineOn hrloe hrl
  have hdest : (controlLines cfg cfg.trapWord).destination = some pcCode := gated_of_lineOn hriwe hri
  have hsecond : (controlLines cfg cfg.trapWord).second = .minus2 := secondOperand_eq_minus2 hne himm
  have haluOut : (controlLines cfg cfg.trapWord).aluOut = true := lineOn_iff.mpr haluoe
  have hread : (controlLines cfg cfg.trapWord).memRead = false := by simp [controlLines, lineOn, hmoe]
  have hwrite : (controlLines cfg cfg.trapWord).memWrite = false := by simp [controlLines, lineOn, hmwe]
  have hends : (controlLines cfg cfg.trapWord).ends = true := lineOn_iff.mpr hcrst
  exact ⟨if_pos ⟨rfl, hop, hleft, hsecond, haluOut, hdest, hread, hwrite, hends⟩, hread, hwrite, hends,
    fun w hw => if_neg fun h => hw h.1⟩

/-! ### Words written out from the table -/

/-- Settles O57: the decoder evaluated on each word; the bare control word is read as its slices. -/
theorem tableWordsDecodeToTheirRows : Obligations.TableWordsDecodeToTheirRows := by
  exact ⟨rfl, rfl, rfl, rfl, rfl, congrArg (Option.map rowWord) (decodeTableWord_bareControlWord 0x02028000#32)⟩

end Sys2Proof.Machine
end

section
/-! PROOFS. O41 and O43: a busy sequencer on a finished table. Its step presents the address it has fixed, so the trap
word spins for ever and the second word of an instruction ends it. -/

namespace Sys2Proof.Machine

/-! ### The step of a busy sequencer (R28, R168; log 15) -/

/-- The twelve bits of an entry row's word are all of it. -/
theorem rowWord_of_entryRow12 {i : Instr} (hi : isEntryRow12 i = true) :
    ((rowWord i).setWidth 12).setWidth 32 = rowWord i := by
  have hwiden (x : BitVec 12) : ((x.setWidth 32).setWidth 12).setWidth 32 = x.setWidth 32 := by simp
  cases i with
  | ldG0 => rfl
  | trap | oneWord | twoWordFirst | twoWordSecond | ldG0Ref | escRegB | escRegAA | escRegAB | aGroup7 =>
    exact hwiden _
  | _ => cases hi

/-- On a finished table a row is the presentation of the phase and the instruction bits that it presents. -/
theorem exec_of_presents {i : Instr} {s : State} {p : Bit} {j : InstrBits} (hs : s.stage = .frozen)
    (h : presents s.variant i = some (p, j)) : ∃ ok, exec i s = present p j ok s := by
  cases i with
  | oneWord | twoWordFirst | twoWordSecond => cases h; exact ⟨_, rfl⟩
  | trapMini =>
    obtain ⟨hv, hpj⟩ := Option.ite_none_right_eq_some.mp h
    cases hpj
    exact ⟨_, presentIn_of_frozen hs hv ..⟩
  | _ =>
    obtain ⟨⟨hv, hrow⟩, hpj⟩ := Option.ite_none_right_eq_some.mp h
    cases hpj
    exact exec_entryRow12 hrow (rowWord_of_entryRow12 hrow) hs hv

/-- The pending lookup presents the address that a busy sequencer has fixed. -/
theorem presents_pendingLookup {s : State} (hi : s.seq.instr.toNat < s.variant.half) :
    presents s.variant (pendingLookup s) = some (s.seq.phase, s.seq.instr) := by
  rcases (by decide : ∀ p : Bit, p = 0 ∨ p = 1) s.seq.phase with hphase | hphase
  · cases hv : s.variant with
    | full =>
      have hword : (rowWord (.trap 0#1 s.seq.instr)).setWidth 12 = 0#1 ++ s.seq.instr := by simp [rowWord]
      simp [pendingLookup, presents, isEntryRow12, hphase, hv, hword]
    | mini =>
      have hbits : (s.seq.instr.setWidth 8).setWidth 11 = s.seq.instr := by
        have hlt : s.seq.instr.toNat < 2 ^ 8 := by rwa [hv] at hi
        refine BitVec.eq_of_toNat_eq ?_
        rw [BitVec.toNat_setWidth, BitVec.toNat_setWidth]
        omega
      simp [pendingLookup, presents, hphase, hv, hbits]
  · simp [pendingLookup, presents, hphase]

/-- A busy sequencer's step presents the address it has fixed, as its own lookup or as the row by which the oldest
request names it; that request alone is taken. -/
theorem step_eq_present_of_busy {s : State} (hs : s.stage = .frozen) (hbusy : s.seq.busy = true)
    (hi : s.seq.instr.toNat < s.variant.half) (hreset : noResetNext s = true) :
    ∃ ok rest, step s = present s.seq.phase s.seq.instr ok (s.setInputs rest) ∧
      (rest = s.inputs ∨ ∃ bytes, s.inputs = .request bytes :: rest ∧ (namedLookup s bytes).isSome = true) := by
  cases hnamed : namesNext s with
  | false =>
    obtain ⟨ok, hexec⟩ := exec_of_presents hs (presents_pendingLookup hi)
    exact ⟨ok, s.inputs, (step_of_busy hbusy hreset hnamed).trans hexec, .inl rfl⟩
  | true =>
    unfold namesNext at hnamed
    split at hnamed
    · next bytes rest hin =>
      obtain ⟨i, hrow⟩ := Option.isSome_iff_exists.mp hnamed
      obtain ⟨-, hpresents⟩ := namedLookup_eq_some.mp hrow
      obtain ⟨ok, hexec⟩ := exec_of_presents (s := s.setInputs rest) hs hpresents
      exact ⟨ok, rest, (step_of_namedLookup hin hbusy hrow).trans hexec, .inr ⟨bytes, hin, hnamed⟩⟩
    · cases hnamed

/-! ### The hang (R156, R188, R189) -/

/-- The sequencer waits at the trap word of an instruction, and no CPU reset is among the inputs. -/
structure Hung (s : State) : Prop where
  frozen : s.stage = .frozen
  busy : s.seq.busy = true
  phase : s.seq.phase = 0
  instr_lt : s.seq.instr.toNat < s.variant.half
  trap : entry s s.seq.instr.toNat = some s.cfg.trapWord
  noReset : noReset s = true

/-- What stays as it is while the machine hangs: all but CW, the answer, and the requests for the very lookup. -/
structure HangsTo (s t : State) : Prop where
  seq : t.seq = s.seq
  rom : t.rom = s.rom
  owner : t.owner = s.owner
  stage : t.stage = s.stage
  variant : t.variant = s.variant
  cfg : t.cfg = s.cfg
  image : t.image = s.image
  inputs : ∃ taken, s.inputs = taken ++ t.inputs ∧
    ∀ x ∈ taken, ∃ bytes, x = .request bytes ∧ (namedLookup s bytes).isSome = true

theorem HangsTo.namedLookup_eq {s t : State} (h : HangsTo s t) (bytes : List Byte) :
    namedLookup t bytes = namedLookup s bytes := by
  simp only [namedLookup, h.variant, h.seq]

theorem HangsTo.trans {s t u : State} (hst : HangsTo s t) (htu : HangsTo t u) : HangsTo s u where
  seq := htu.seq.trans hst.seq
  rom := htu.rom.trans hst.rom
  owner := htu.owner.trans hst.owner
  stage := htu.stage.trans hst.stage
  variant := htu.variant.trans hst.variant
  cfg := htu.cfg.trans hst.cfg
  image := htu.image.trans hst.image
  inputs := by
    obtain ⟨first, hfirst, hnamed⟩ := hst.inputs
    obtain ⟨later, hlater, hnamed'⟩ := htu.inputs
    simp only [hst.namedLookup_eq] at hnamed'
    refine ⟨first ++ later, by rw [hfirst, hlater, List.append_assoc], fun x hx => ?_⟩
    exact (List.mem_append.mp hx).elim (hnamed x) (hnamed' x)

theorem Hung.of_hangsTo {s t : State} (hs : Hung s) (h : HangsTo s t) : Hung t where
  frozen := h.stage.trans hs.frozen
  busy := by rw [h.seq, hs.busy]
  phase := by rw [h.seq, hs.phase]
  instr_lt := by rw [h.seq, h.variant]; exact hs.instr_lt
  trap := by rw [entry_congr h.cfg h.variant h.stage h.rom, h.seq, h.cfg]; exact hs.trap
  noReset := by
    obtain ⟨taken, hin, -⟩ := h.inputs
    have hall := hs.noReset
    rw [Machine.noReset, hin, List.all_append, Bool.and_eq_true] at hall
    exact hall.2

theorem noResetNext_of_noReset {s : State} (h : noReset s = true) : noResetNext s = true := by
  unfold noResetNext
  split
  · next rest hin => simp [noReset, hin] at h
  · rfl

/-- One step of a hung machine takes the trap word again. -/
theorem Hung.step {s : State} (hs : Hung s) :
    ∃ t, Machine.step s = .next t ∧ t.cw = some s.cfg.trapWord ∧ HangsTo s t := by
  obtain ⟨ok, rest, hstep, htaken⟩ :=
    step_eq_present_of_busy hs.frozen hs.busy hs.instr_lt (noResetNext_of_noReset hs.noReset)
  have hnext : isNextAddress (s.setInputs rest) s.seq.phase s.seq.instr = true :=
    isNextAddress_iff.mpr (.inr ⟨hs.busy, rfl, rfl⟩)
  have hentry : entry (s.setInputs rest) (portIndex s.variant s.seq.phase s.seq.instr.toNat) =
      some s.cfg.trapWord := by
    rw [hs.phase, portIndex_zero]; exact hs.trap
  rw [present_of_entry (s := s.setInputs rest) hs.frozen hs.instr_lt hnext hentry] at hstep
  have hseq : (⟨0, s.seq.instr, true⟩ : Sequencer) = s.seq := by rw [← hs.phase, ← hs.busy]
  refine ⟨_, hstep.trans (if_pos rfl), rfl, hseq, rfl, rfl, rfl, rfl, rfl, rfl, ?_⟩
  rcases htaken with rfl | ⟨bytes, hin, hnamed⟩
  · exact ⟨[], rfl, by simp⟩
  · exact ⟨[.request bytes], hin, by simpa using hnamed⟩

theorem run_succ_of_step (M : Host.Core) {s t : M.State} (h : M.step s = .next t) (n : Nat) :
    M.run (n + 1) s = M.run n t := by
  rw [Host.Core.run, h]

theorem Hung.run {s : State} (hs : Hung s) (n : Nat) :
    ∃ t, Host.Core.run Sys2Proof.core (n + 1) s = .next t ∧ t.cw = some s.cfg.trapWord ∧ HangsTo s t := by
  induction n generalizing s with
  | zero =>
    obtain ⟨t, hstep, hcw, hto⟩ := hs.step
    exact ⟨t, run_succ_of_step core hstep 0, hcw, hto⟩
  | succ n ih =>
    obtain ⟨u, hstep, -, hsu⟩ := hs.step
    obtain ⟨t, hrun, hcw, hut⟩ := ih (hs.of_hangsTo hsu)
    exact ⟨t, (run_succ_of_step core hstep _).trans hrun, hsu.cfg ▸ hcw, hsu.trans hut⟩

/-- Settles O41: a step of the hung machine leaves it hung, with the sequencer at the same address. -/
theorem unassignedInstructionHangs : Obligations.UnassignedInstructionHangs := by
  intro n s hfrozen hbusy hphase hlt htrap hreset
  obtain ⟨t, hrun, hcw, hto⟩ := Hung.run ⟨hfrozen, hbusy, hphase, hlt, htrap, hreset⟩ n
  exact ⟨t, hrun, hto.seq, hcw, hto.rom, hto.owner, hto.stage, hto.variant, hto.cfg, hto.image, hto.inputs⟩

/-! ### The end of an instruction (R167, R168) -/

/-- An entry with `CRST` = 1 ends the instruction or, where it is the trap word, starts it again: phase 0 is next. -/
theorem present_ends {s : State} {p : Bit} {i : InstrBits} {w : Word} (hs : s.stage = .frozen)
    (hi : i.toNat < s.variant.half) (hnext : isNextAddress s p i = true)
    (hw : entry s (portIndex s.variant p i.toNat) = some w) (hcrst : extract s.cfg.schema w .CRST = 1) (f : Bool) :
    ∃ u, present p i f s = .next u ∧ u.seq.phase = 0 ∧ u.seq.instr = i ∧ u.inputs = s.inputs := by
  refine ⟨_, present_completes hs hi hnext hw (.inr (.inr hcrst)) f, ?_⟩
  simp only [setResult_seq, setSeq_seq, if_pos hcrst]
  split <;> exact ⟨rfl, rfl, rfl⟩

/-- A sequencer that waits at phase 1 ends the instruction in its next step where the entry there has `CRST` = 1. -/
theorem step_ends_at_phase_one {s : State} {i : InstrBits} (hs : s.stage = .frozen) (hseq : s.seq = ⟨1, i, true⟩)
    (hi : i.toNat < s.variant.half) (hcrst : crstOf s (i.toNat + s.variant.half) = 1) (hreset : noResetNext s = true) :
    ∃ u, step s = .next u ∧ u.seq.phase = 0 ∧ u.seq.instr = i ∧
      (u.inputs = s.inputs ∨ (namesNext s = true ∧ u.inputs = s.inputs.tail)) := by
  obtain ⟨ok, rest, hstep, htaken⟩ := step_eq_present_of_busy hs (by rw [hseq]) (by rwa [hseq]) hreset
  rw [hseq] at hstep
  rw [← portIndex_one] at hcrst
  have hnext : isNextAddress (s.setInputs rest) 1 i = true := isNextAddress_iff.mpr (.inr (by simp [hseq]))
  have hentry := entry_eq_romWord (s := s.setInputs rest) (.inr hs) (portIndex_lt_size 1 hi)
  obtain ⟨u, hu, hphase, hinstr, hinputs⟩ := present_ends (s := s.setInputs rest) hs hi hnext hentry hcrst ok
  refine ⟨u, hstep.trans hu, hphase, hinstr, ?_⟩
  rw [hinputs]
  rcases htaken with rfl | ⟨bytes, hin, hnamed⟩
  · exact .inl rfl
  · exact .inr ⟨by simpa [namesNext, hin] using hnamed, by rw [hin]; rfl⟩

/-- Settles O43: the first lookup leads to phase 0, or to phase 1, where the entry of clause (a) ends the
instruction. -/
theorem everyInstructionEndsWithinTwoLookups : Obligations.EveryInstructionEndsWithinTwoLookups := by
  intro s i hs hidle hi hcrst hreset
  have hnext : isNextAddress s 0 i = true := isNextAddress_iff.mpr (.inl ⟨hidle, rfl⟩)
  have hentry := entry_eq_romWord (.inr hs) (portIndex_lt_size 0 hi)
  obtain ⟨t, ht⟩ : ∃ t, exec (.oneWord i) s = .next t := ⟨_, present_completes hs hi hnext hentry (.inl rfl) _⟩
  obtain ⟨hcfg, hv, hstage, hrom, -, -, hinputs⟩ := present_frame ht
  refine ⟨t, ht, hinputs, ?_⟩
  rcases present_seq ht with hseq | hseq | hseq
  · simp [hseq]
  · simp [hseq]
  · refine ⟨by rw [hseq], .inr ?_⟩
    have hcrst' : crstOf t (i.toNat + t.variant.half) = 1 := by
      simpa only [crstOf, romWord, hcfg, hv, hrom] using hcrst _ hi
    have hreset' : noResetNext t = true := by
      rw [noResetNext, hinputs]; exact hreset
    rw [← hinputs]
    exact step_ends_at_phase_one (hstage.trans hs) hseq (hv ▸ hi) hcrst' hreset'

end Sys2Proof.Machine
end

section
/-! PROOFS. O3 and O18: the faults of PACK and of the override writes, with what each of them names (R182, R184,
R185). -/

namespace Sys2Proof.Machine

/-! ### PackRange (R112, R182) -/

/-- PACK stops at the first field of the schema whose value does not fit, with that field and value (log 20). -/
theorem pack_eq_error {before after : Schema} {e : FieldSpec} {m : FieldMap}
    (hfits : ∀ d ∈ before, fieldValue m d.field < 2 ^ d.width) (hover : 2 ^ e.width ≤ fieldValue m e.field) :
    pack (before ++ e :: after) m = .error (e.field, fieldValue m e.field) := by
  induction before with
  | nil => exact if_neg (Nat.not_lt.mpr hover)
  | cons d before ih =>
    obtain ⟨hd, hbefore⟩ := List.forall_mem_cons.mp hfits
    simp only [List.cons_append, pack, if_pos hd, ih hbefore]

theorem exec_pack_of_error {s : State} {m : FieldMap} {f : Field} {v : Nat} (hS : schemaOk s.cfg.schema = true)
    (hpack : pack s.cfg.schema m = .error (f, v)) : exec (.pack m) s = .fault (.packRange f v) := by
  simp only [exec, execPack, schemaClause_eq_none_iff.mpr hS, hpack]

/-- Settles O3: under a valid schema PACK's fault is the packer's error, that of the first field out of range. -/
theorem packRangeNamesFieldAndValue : Obligations.PackRangeNamesFieldAndValue := by
  intro s m before after e hS hsplit hfits hover
  exact exec_pack_of_error hS (hsplit ▸ pack_eq_error hfits hover)

/-! ### The override writes (R138, R139, R184, R185) -/

section
variable {s : State} {x : BitVec 12}

/-- An address at or above HALF has the phase bit set, which WRITE2 does not take in any stage. -/
theorem exec_write2_of_half_le (hx : s.variant.half ≤ x.toNat) (w0 w1 : Word) (id : RuleId) :
    exec (.write2 x w0 w1 id) s = .fault (.stageViolation .write2 s.stage) := by
  have hguard : ¬(s.stage = .filled ∧ x.toNat < s.variant.half) := fun h => Nat.not_lt.mpr hx h.2
  simp only [exec, execWrite2, writeTwo, if_neg hguard, done_fault]

variable {holder : RuleId} (hs : s.stage = .filled) (hx : x.toNat < s.variant.half)
include hs hx

theorem exec_write1_of_claimed (ho : ownerOf s x.toNat = some holder) (w : Word) (id : RuleId) :
    exec (.write1 x w id) s = .fault (.doubleClaim x.toNat holder id) := by
  simp only [exec, execWrite1, hx, not_true_eq_false, and_false, if_false, writeOne, if_pos hs, ho, done_fault]

theorem exec_write2_of_claimed (ho : ownerOf s x.toNat = some holder) (w0 w1 : Word) (id : RuleId) :
    exec (.write2 x w0 w1 id) s = .fault (.doubleClaim x.toNat holder id) := by
  simp only [exec, execWrite2, writeTwo, if_pos (And.intro hs hx), ho, done_fault]

theorem exec_write2_of_partner_claimed (ho0 : ownerOf s x.toNat = none)
    (ho1 : ownerOf s (x.toNat + s.variant.half) = some holder) (w0 w1 : Word) (id : RuleId) :
    exec (.write2 x w0 w1 id) s = .fault (.doubleClaim (x.toNat + s.variant.half) holder id) := by
  simp only [exec, execWrite2, writeTwo, if_pos (And.intro hs hx), ho0, ho1, done_fault]

end

/-- Settles O18: an override write asks for the stage and the phase bit first, then for the owner of each slot it
writes, that of phase 0 before that of phase 1 (log 22). -/
theorem overrideWriteFaults : Obligations.OverrideWriteFaults := by
  intro s x w0 w1 id holder
  refine ⟨fun hs => exec_write1_stageViolation hs x w0 id, ?_, fun hs hx ho => ?_, fun hs hx ho0 ho1 => ?_⟩
  · rintro (hs | hx)
    · exact exec_write2_stageViolation hs x w0 w1 id
    · exact exec_write2_of_half_le hx w0 w1 id
  · exact ⟨exec_write1_of_claimed hs hx ho w0 id, exec_write2_of_claimed hs hx ho w0 w1 id⟩
  · exact exec_write2_of_partner_claimed hs hx ho0 ho1 w0 w1 id

end Sys2Proof.Machine
end

section
/-! PROOFS. O33 and O49: the images that a control store refuses (R43, R197, R210), and the invariant at the start of
generation (R34, R205). -/

namespace Sys2Proof.Machine

/-! ### Images that do not fit (R43, R197, R210) -/

section
variable {s : State} {v : Variant} {big : Bool} {img : List Byte}

theorem loadImage_of_length_ne (hs : s.stage = .unallocated) (hlength : img.length ≠ 4 * v.size) :
    loadImage v big img s = .refused .imageLength := by
  simp only [loadImage, if_pos hs, if_neg hlength]

/-- A control store that has a table refuses every image, whatever its length (R197). -/
theorem loadImage_of_occupied (hs : s.stage ≠ .unallocated) :
    loadImage v big img s = .refused .controlStoreInUse := by
  simp only [loadImage, if_neg hs]

end

/-- Settles O33: the idle machine offers the image to its control store, which looks at its own stage first and at the
length of the image after that. -/
theorem unfitImagesAreRefused : Obligations.UnfitImagesAreRefused := by
  intro s v big img rest hidle hin
  rw [step_of_idle_loadImage hin hidle]
  exact ⟨loadImage_of_length_ne (s := s.setInputs rest), loadImage_of_occupied (s := s.setInputs rest)⟩

/-! ### The start of generation (R34, R205) -/

@[simp] theorem resetWith_cw (cfg : Params) : (State.resetWith cfg).cw = none := rfl
@[simp] theorem resetWith_seq (cfg : Params) : (State.resetWith cfg).seq = ⟨0, 0, false⟩ := rfl
@[simp] theorem resetWith_image (cfg : Params) : (State.resetWith cfg).image = none := rfl

/-- No entry exists before ALLOC (R34, first column). -/
theorem entry_of_unallocated {s : State} (hs : s.stage = .unallocated) (a : Nat) : entry s a = none := by
  simp [entry, hs]

/-- Before ALLOC the invariant says that nothing is there yet: no table, no owner map, no output, and a sequencer that
is idle at phase 0. -/
theorem lifecycleInv_iff_of_unallocated {s : State} (hs : s.stage = .unallocated) :
    LifecycleInv s ↔
      s.rom = [] ∧ s.owner = none ∧ (s.seq.phase = 0 ∧ s.seq.busy = false) ∧ s.cw = none ∧ s.image = none := by
  have hshape : stageShape s = true ↔ s.rom = [] ∧ s.owner = none := by simp [stageShape, hs]
  have hseq : seqShape s = true ↔ s.seq.phase = 0 ∧ s.seq.busy = false := by
    cases hbusy : s.seq.busy <;> simp [seqShape_iff, hs, hbusy]
  have hout : outputShape s = true ↔ s.cw = none ∧ s.image = none := by simp [outputShape, hs]
  rw [LifecycleInv, hshape, hseq, hout]
  constructor
  · rintro ⟨-, ⟨hrom, howner⟩, -, hidle, houts⟩
    exact ⟨hrom, howner, hidle, houts⟩
  · rintro ⟨hrom, howner, hidle, houts⟩
    have hwf : Memory.wf s = true := by rw [Memory.wf, hrom, tableWf_nil]
    have hclaim : claimedOrTrap s = true := by simp [claimedOrTrap, howner]
    exact ⟨hwf, ⟨hrom, howner⟩, hclaim, hidle, houts⟩

theorem lifecycleInv_resetWith (cfg : Params) : LifecycleInv (State.resetWith cfg) :=
  (lifecycleInv_iff_of_unallocated (resetWith_stage cfg)).mpr (by simp)

/-- Settles O49: the start of generation has no table, no owner map and no output under any parameter, those of the
reset state among them (log 14). -/
theorem resetMeetsTheInvariant : Obligations.ResetMeetsTheInvariant :=
  ⟨lifecycleInv_resetWith, lifecycleInv_resetWith _, resetWith_stage _, by simp [State.reset], resetWith_cw _,
    resetWith_owner _, entry_of_unallocated (resetWith_stage _)⟩

end Sys2Proof.Machine
end

section
/-! PROOFS. O51, O54 and O56: the request of an instruction is read back operand by operand, a bare address keeps its
bits, and the oldest request is what a step runs. -/

namespace Sys2Proof.Machine

/-! ### The step that takes a request (log 13, log 15) -/

/-- Settles O51: an idle sequencer leaves the step to the request, and a busy one is named its own lookup by it. -/
theorem stepRunsTheDecodedRequest : Obligations.StepRunsTheDecodedRequest := by
  intro s bytes rest i hin hdec _ hnext
  cases hbusy : s.seq.busy with
  | false => exact step_of_idle_request hin hbusy hdec
  | true =>
    have hpresents := hnext.resolve_left (by simp [hbusy])
    exact step_of_namedLookup hin hbusy (namedLookup_eq_some.mpr ⟨hdec, hpresents⟩)

/-! ### Slices of a word that is a concatenation

The library's lemmas, with the width of the concatenation kept out of `simp`'s index: in the row words that width is a
literal, such as 12 for `1 + 11`. -/

/-- A slice above the lower part is a slice of the upper part. -/
theorem slice_append_of_le {m n : Nat} (hi : BitVec m) (lo : BitVec n) {start len : Nat} (h : n ≤ start) :
    (@HAppend.hAppend _ _ (no_index (BitVec (m + n))) _ hi lo).extractLsb' start len =
      hi.extractLsb' (start - n) len :=
  BitVec.extractLsb'_append_eq_of_le h

/-- The lowest slice is the lower part. -/
theorem slice_append_low {m n : Nat} (hi : BitVec m) (lo : BitVec n) :
    (@HAppend.hAppend _ _ (no_index (BitVec (m + n))) _ hi lo).extractLsb' 0 n = lo :=
  BitVec.extractLsb'_append_eq_right

/-- Two slices that meet are one slice. -/
theorem slice_append_slice {k : Nat} (x : BitVec k) {start n lo m : Nat} (h : start = lo + m) :
    (@HAppend.hAppend _ _ (no_index (BitVec (n + m))) _ (x.extractLsb' start n) (x.extractLsb' lo m)) =
      x.extractLsb' lo (n + m) :=
  BitVec.extractLsb'_append_extractLsb'_eq_extractLsb' h

/-! ### Operands read back from their bytes -/

@[simp] theorem fieldOfByte_fieldByte (f : Field) : fieldOfByte (fieldByte f) = some f := by cases f <;> rfl

@[simp] theorem variantOfByte_variantByte (v : Variant) : variantOfByte (variantByte v) = some v := by cases v <;> rfl

@[simp] theorem boolOfByte_boolByte (b : Bool) : boolOfByte (boolByte b) = some b := by cases b <;> rfl

/-! A request gives rule identities and field values two bytes, and four to words (log 29). -/

theorem leBytes_two (n : Nat) : leBytes 2 n = [BitVec.ofNat 8 n, BitVec.ofNat 8 (n / 256)] := rfl

theorem natOfBytes_leBytes {n : Nat} (h : n < 2 ^ 16) :
    natOfBytes (BitVec.ofNat 8 n) (BitVec.ofNat 8 (n / 256)) = n := by
  simp only [natOfBytes, BitVec.toNat_ofNat]
  omega

/-- The request of a field map lists it entry by entry (log 29). -/
theorem fieldMapOfBytes_fieldMapBytes {m : FieldMap} (h : ∀ e ∈ m, e.2 < 2 ^ 16) :
    fieldMapOfBytes (fieldMapBytes m) = some m := by
  induction m with
  | nil => rfl
  | cons e m ih =>
    obtain ⟨he, hm⟩ := List.forall_mem_cons.mp h
    simp [fieldMapBytes, fieldMapOfBytes, ih hm, natOfBytes_leBytes he]

/-- The request of a schema lists it field by field (log 29). -/
theorem schemaOfBytes_schemaBytes {S : Schema} (h : ∀ e ∈ S, e.width < 2 ^ 8 ∧ e.offset < 2 ^ 8) :
    schemaOfBytes (schemaBytes S) = some S := by
  induction S with
  | nil => rfl
  | cons e S ih =>
    obtain ⟨⟨hwidth, hoffset⟩, hS⟩ := List.forall_mem_cons.mp h
    simp [schemaBytes, schemaOfBytes, ih hS, Nat.mod_eq_of_lt hwidth, Nat.mod_eq_of_lt hoffset, -Nat.reducePow]

theorem fieldMapOk_iff {m : FieldMap} : fieldMapOk m = true ↔ (m.map (·.1)).Nodup ∧ ∀ e ∈ m, e.2 < 2 ^ 16 := by
  simp [fieldMapOk]

theorem schemaOperandOk_iff {S : Schema} :
    schemaOperandOk S = true ↔ ∀ e ∈ S, e.width < 2 ^ 8 ∧ e.offset < 2 ^ 8 := by
  simp [schemaOperandOk]

theorem ruleIdOk_iff {id : RuleId} : ruleIdOk id = true ↔ id < 2 ^ 16 := decide_eq_true_iff

/-! ### The request of an instruction (log 11) -/

/-- The word of a well-formed instruction belongs to the row its selector names. -/
theorem rowHolds : ∀ i : Instr, Laws.RowHolds.Statement i
  | .pack _ => Laws.RowHolds.pack _
  | .extract _ _ => Laws.RowHolds.extract _ _
  | .schemaValid _ => Laws.RowHolds.schemaValid _
  | .indexA _ _ _ _ _ => Laws.RowHolds.indexA _ _ _ _ _
  | .indexB _ _ _ _ _ => Laws.RowHolds.indexB _ _ _ _ _
  | .split _ => Laws.RowHolds.split _
  | .indexMini _ _ => Laws.RowHolds.indexMini _ _
  | .pairPack _ _ => Laws.RowHolds.pairPack _ _
  | .pairUnpack _ => Laws.RowHolds.pairUnpack _
  | .alloc _ => Laws.RowHolds.alloc _
  | .fill => Laws.RowHolds.fill
  | .write1 _ _ _ => Laws.RowHolds.write1 _ _ _
  | .write2 _ _ _ _ => Laws.RowHolds.write2 _ _ _ _
  | .decodePass => Laws.RowHolds.decodePass
  | .generate _ => Laws.RowHolds.generate _
  | .lookup _ _ => Laws.RowHolds.lookup _ _
  | .lookupMini _ _ => Laws.RowHolds.lookupMini _ _
  | .serialize _ => Laws.RowHolds.serialize _
  | .trap _ _ => Laws.RowHolds.trap _ _
  | .trapMini _ _ => Laws.RowHolds.trapMini _ _
  | .ldG0 => Laws.RowHolds.ldG0
  | .ldG0Ref _ _ _ => Laws.RowHolds.ldG0Ref _ _ _
  | .oneWord _ => Laws.RowHolds.oneWord _
  | .twoWordFirst _ => Laws.RowHolds.twoWordFirst _
  | .twoWordSecond _ => Laws.RowHolds.twoWordSecond _
  | .escRegB _ _ _ _ _ => Laws.RowHolds.escRegB _ _ _ _ _
  | .escRegAA _ _ _ _ => Laws.RowHolds.escRegAA _ _ _ _
  | .escRegAB _ _ _ _ => Laws.RowHolds.escRegAB _ _ _ _
  | .aGroup7 _ _ _ _ => Laws.RowHolds.aGroup7 _ _ _ _

theorem toNat_selector (i : Instr) : (BitVec.ofNat 8 (selector i)).toNat = selector i := by cases i <;> rfl

/-- A request is read as the operands of its selector's row. -/
theorem parse_encode {i : Instr} (hi : i.wellFormed = true) :
    parse (encode i) = operandsOf (selector i) (rowWord i) (operandBytes i) := by
  obtain ⟨r, hrow, hholds⟩ := rowHolds i hi
  have hselected : parse (encode i) = decodeSelected (rowWord i) (selector i) (operandBytes i) := by
    simp only [encode, leBytes_four_toNat, List.cons_append, List.nil_append, parse, wordOfBytes_extractLsb',
      toNat_selector]
  simp [hselected, decodeSelected, hrow, hholds]

@[simp] theorem alone_nil (mnemonic : String) (i : Instr) : alone mnemonic i [] = .ok i := rfl

@[simp] theorem orBad_some (mnemonic : String) (i : Instr) : orBad mnemonic (some i) = .ok i := rfl

/-- Six bits of a pair number stand in the word, the others in four bytes. -/
theorem operandsOf_pairUnpack {n : Nat} (h : n < 2 ^ 38) :
    operandsOf 9 (rowWord (.pairUnpack n)) (operandBytes (.pairUnpack n)) = .ok (.pairUnpack n) := by
  have hhigh : (BitVec.ofNat 32 (n / 64)).toNat = n / 64 := Nat.mod_eq_of_lt (by omega)
  have hbytes := leBytes_four_toNat (BitVec.ofNat 32 (n / 64))
  rw [hhigh] at hbytes
  simp only [operandsOf, operandBytes, hbytes, wordOfBytes_extractLsb', hhigh, rowWord, BitVec.toNat_ofNat]
  congr 2
  omega

/-- An index is its top bit and the eleven bits its row's word carries. -/
theorem ofBool_append_setWidth (x : BitVec 12) : BitVec.ofBool x[11] ++ x.setWidth 11 = x := by
  have htop : BitVec.ofBool x[11] = x.extractLsb' 11 1 := by ext k hk; simp [show k = 0 by omega]
  rw [htop, BitVec.setWidth_eq_extractLsb' (by decide)]
  exact (BitVec.extractLsb'_append_extractLsb'_eq_extractLsb' (start₂ := 11) (start₁ := 0) rfl).trans
    BitVec.extractLsb'_eq_self

/-- The operands of a row are slices of its word, except in the rows that carry some in further bytes. -/
theorem operandsOf_encode {i : Instr} (hi : i.wellFormed = true) :
    operandsOf (selector i) (rowWord i) (operandBytes i) = .ok i := by
  cases i with
  | pack m =>
    have hm := fieldMapOfBytes_fieldMapBytes (fieldMapOk_iff.mp hi).2
    simp [operandsOf, selector, operandBytes, hm, rowWord]
  | schemaValid S =>
    have hS := schemaOfBytes_schemaBytes (schemaOperandOk_iff.mp hi)
    simp [operandsOf, selector, operandBytes, hS, rowWord]
  | pairUnpack n => exact operandsOf_pairUnpack (of_decide_eq_true hi)
  | write1 x w id =>
    obtain ⟨-, hid⟩ := Bool.and_eq_true_iff.mp hi
    simp [operandsOf, selector, operandBytes, leBytes_four_toNat, wordOfBytes_extractLsb', leBytes_two,
      natOfBytes_leBytes (ruleIdOk_iff.mp hid), rowWord]
  | write2 x w0 w1 id =>
    simp [operandsOf, selector, operandBytes, leBytes_four_toNat, wordOfBytes_extractLsb', leBytes_two,
      natOfBytes_leBytes (ruleIdOk_iff.mp hi), rowWord, ofBool_append_setWidth]
  | extract | alloc | generate | serialize => simp [operandsOf, selector, operandBytes, rowWord]
  | fill | decodePass | ldG0 => rfl
  | indexA | indexB | split | indexMini | pairPack | lookup | lookupMini | trap | trapMini | ldG0Ref | oneWord
  | twoWordFirst | twoWordSecond | escRegB | escRegAA | escRegAB | aGroup7 =>
    simp [operandsOf, selector, operandBytes, rowWord, addrA, addrB, bitAt, sub3At, BitVec.setWidth_eq_extractLsb',
      BitVec.extractLsb'_setWidth_of_le, slice_append_of_le, slice_append_low]

theorem decode_of_parse {bytes : List Byte} {i : Instr} (h : parse bytes = .ok i) (hi : i.wellFormed = true) :
    decode bytes = .ok i := by
  simp [decode, h, hi]

/-- Settles O54: the word belongs to the selected row, whose operands are read back from the word's slices and from the
bytes after the selector. -/
theorem decodeReturnsTheEncodedInstruction : Obligations.DecodeReturnsTheEncodedInstruction := fun _ hi =>
  decode_of_parse ((parse_encode hi).trans (operandsOf_encode hi)) hi

/-! ### A bare 12-bit word (log 11) -/

/-- Where a mask has all of a slice's bits, the slice of a masked word is the pattern's. -/
theorem slice_eq_of_masked {w : Word} {mask pattern : Nat} (h : w.toNat &&& mask = pattern) (lo n : Nat)
    (hmask : mask >>> lo % 2 ^ n = 2 ^ n - 1) : w.extractLsb' lo n = BitVec.ofNat n (pattern >>> lo) := by
  refine BitVec.eq_of_toNat_eq ?_
  rw [BitVec.extractLsb'_toNat, BitVec.toNat_ofNat, ← h, Nat.shiftRight_and_distrib, Nat.and_mod_two_pow, hmask,
    Nat.and_two_pow_sub_one_eq_mod, Nat.mod_mod]

/-- Masking with one bit leaves nothing or that bit. -/
theorem and_two_pow_eq_zero_or (n k : Nat) : n &&& 2 ^ k = 0 ∨ n &&& 2 ^ k = 2 ^ k := by
  rw [Nat.and_two_pow]
  cases n.testBit k <;> simp

/-- A word below 2^12 is its twelve low bits. -/
theorem setWidth_slice_of_lt {w : Word} (hw : w.toNat < 2 ^ 12) : (w.extractLsb' 0 12).setWidth 32 = w := by
  refine BitVec.eq_of_toNat_eq ?_
  rw [BitVec.toNat_setWidth_of_le (by decide), BitVec.extractLsb'_toNat, Nat.shiftRight_zero, Nat.mod_eq_of_lt hw]

theorem isEntryRow12_bareAddress (w : Word) : isEntryRow12 (bareAddress w) = true := by
  unfold bareAddress
  split_ifs <;> rfl

/-- An address whose bits above regA are 0 and that is no ESC_REGB has regB at most 5 (D24, R161). -/
theorem regB_le_five_of_not_escape {n : Nat} (hn : n < 2 ^ 7) (hescape : n &&& 0x80C ≠ 0x00C) : n / 2 % 8 ≤ 5 := by
  revert n
  decide

/-- The escape rows are tried before the row with the constraint on regB (D24). -/
theorem wellFormed_bareAddress {w : Word} (hw : w.toNat < 2 ^ 12) : (bareAddress w).wellFormed = true := by
  unfold bareAddress
  split_ifs with _ _ _ hescape _ hgroup0
  · rfl
  · rfl
  · rfl
  · rfl
  · rfl
  · have hzero : w.toNat >>> 7 % 2 ^ 5 = 0 := by
      simpa using congrArg BitVec.toNat (slice_eq_of_masked hgroup0 7 5 (by decide))
    have hsmall : w.toNat < 2 ^ 7 := by omega
    simpa [Instr.wellFormed, sub3At, Nat.shiftRight_eq_div_pow] using
      regB_le_five_of_not_escape hsmall hescape
  · rfl
  · rfl

/-- The pattern of each row fixes the bits that are no operand of it, so the row's word is the address again. -/
theorem rowWord_bareAddress {w : Word} (hw : w.toNat < 2 ^ 12) : rowWord (bareAddress w) = w := by
  have hwhole := setWidth_slice_of_lt hw
  unfold bareAddress
  split_ifs with hzero hB7 hA hB hgroup7 hgroup0 hphase
  · exact (BitVec.eq_of_toNat_eq hzero).symm
  · have hfixed : w.extractLsb' 8 4 = 7#4 := slice_eq_of_masked hB7 8 4 (by decide)
    simpa [rowWord, bitAt, sub3At, ← hfixed, slice_append_slice] using hwhole
  · have hfixed : w.extractLsb' 10 2 = 0#2 := slice_eq_of_masked hA 10 2 (by decide)
    have hcode : w.extractLsb' 5 2 = 3#2 := slice_eq_of_masked hA 5 2 (by decide)
    simpa [rowWord, bitAt, sub3At, ← hfixed, ← hcode, slice_append_slice] using hwhole
  · have hfixed : w.extractLsb' 11 1 = 0#1 := slice_eq_of_masked hB 11 1 (by decide)
    have hcode : w.extractLsb' 2 2 = 3#2 := slice_eq_of_masked hB 2 2 (by decide)
    simpa [rowWord, bitAt, sub3At, ← hfixed, ← hcode, slice_append_slice] using hwhole
  · have hfixed : w.extractLsb' 7 4 = 7#4 := slice_eq_of_masked hgroup7 7 4 (by decide)
    simpa [rowWord, bitAt, sub3At, ← hfixed, slice_append_slice] using hwhole
  · have hfixed : w.extractLsb' 7 5 = 0#5 := slice_eq_of_masked hgroup0 7 5 (by decide)
    simpa [rowWord, bitAt, sub3At, ← hfixed, slice_append_slice] using hwhole
  · have hfixed : w.extractLsb' 11 1 = 1#1 := slice_eq_of_masked hphase 11 1 (by decide)
    simpa [rowWord, BitVec.setWidth_eq_extractLsb', ← hfixed, slice_append_slice] using hwhole
  · have hphase0 : w.toNat &&& 2 ^ 11 = 0 := (and_two_pow_eq_zero_or w.toNat 11).resolve_right hphase
    have hfixed : w.extractLsb' 11 1 = 0#1 := slice_eq_of_masked hphase0 11 1 (by decide)
    simpa [rowWord, BitVec.setWidth_eq_extractLsb', ← hfixed, slice_append_slice] using hwhole

/-- The two low bytes of a word below 2^12 are all of it. -/
theorem wordOfBytes_of_lt {w : Word} (hw : w.toNat < 2 ^ 12) :
    wordOfBytes (BitVec.ofNat 8 w.toNat) (BitVec.ofNat 8 (w.toNat / 256)) 0 0 = w := by
  have hhigh : w.toNat / 256 / 256 = 0 := by omega
  have hbytes := leBytes_four_toNat w
  simp only [leBytes, hhigh, Nat.zero_div, List.cons.injEq, and_true] at hbytes
  obtain ⟨h0, h1, h2, h3⟩ := hbytes
  rw [h0, h1]
  exact (congrArg₂ (wordOfBytes _ _) h2 h3).trans (wordOfBytes_extractLsb' w)

/-- A bare word of two bytes is an address (log 11). -/
theorem parse_two_bytes {w : Word} (hw : w.toNat < 2 ^ 12) : parse (leBytes 2 w.toNat) = .ok (bareAddress w) := by
  simp only [leBytes_two, parse, wordOfBytes_of_lt hw, if_pos hw]

/-- Settles O56: the row that the address is read as is well-formed, and its word is the address. -/
theorem bareAddressKeepsEveryBit : Obligations.BareAddressKeepsEveryBit := by
  intro x
  have hword : (x.setWidth 32).toNat = x.toNat := BitVec.toNat_setWidth_of_le (by decide)
  have hlt : (x.setWidth 32).toNat < 2 ^ 12 := hword ▸ x.isLt
  have hdecode := decode_of_parse (parse_two_bytes hlt) (wellFormed_bareAddress hlt)
  refine ⟨bareAddress (x.setWidth 32), ?_, isEntryRow12_bareAddress _, rowWord_bareAddress hlt⟩
  simp [decodeTableWord, ← hword, hdecode, -BitVec.toNat_setWidth]

end Sys2Proof.Machine
end
